-- ==== Sys2Proof/Word.lean ====
section
/-!
DEFINITION. The widths of HUFFCORE (spec/00_scope.md R6, R8): every value is unsigned, bit 0 is the least significant bit.
-/

namespace Sys2Proof

/-- One byte: a symbol, one stream transfer (R6, R71). -/
abbrev Byte := BitVec 8

/-- A 64-bit word: counters, composite units, weights, FSIZE, SYMCNT, a CSR as the host sees it (R6, R34). -/
abbrev Word := BitVec 64

/-- The 32-bit register TSIZE (R30, C12). -/
abbrev Half := BitVec 32

/-- The position of a code, 255 bits (R27). -/
abbrev Path := BitVec 255

/-- An index into NODE[0..510] (R25); exactly the legal values of the 9-bit node references of R25, R26, R29, R30. -/
abbrev NodeIx := Fin 511

end Sys2Proof
end

