-- ==== Sys2Proof/Syntax.lean ====
section
/-!
DEFINITION. The instructions of HUFFCORE: the four command codes of CTRL.OP and the thirteen phases of the sequencer
(spec/30_encoding.md R108 to R113, spec/opcode_table.json), and where each is encoded.
-/

namespace Sys2Proof

/-- One constructor per row of spec/opcode_table.json, in the table's order. No row has an operand (R108, R110). -/
inductive Instr where
  /-- CTRL.OP = 00 (R130). -/
  | nop
  /-- CTRL.OP = 01 (R131). -/
  | encode
  /-- CTRL.OP = 10 (R132). -/
  | decode
  /-- CTRL.OP = 11, reserved (R109). -/
  | reservedOp3
  /-- PHASE = 0 (R134). -/
  | idle
  /-- PHASE = 1 (R150). -/
  | fcount
  /-- PHASE = 2 (R190). -/
  | keysort
  /-- PHASE = 3 (R192). -/
  | window
  /-- PHASE = 4 (R161). -/
  | tbuild
  /-- PHASE = 5 (R180). -/
  | cgen
  /-- PHASE = 6 (R195). -/
  | hdrw
  /-- PHASE = 7 (R198). -/
  | tabw
  /-- PHASE = 8 (R200). -/
  | pack
  /-- PHASE = 9 (R203). -/
  | flush
  /-- PHASE = 10 (R220). -/
  | hdrr
  /-- PHASE = 11 (R223). -/
  | tabr
  /-- PHASE = 12 (R226). -/
  | walk
  deriving DecidableEq, Repr, Inhabited

/-- The values PHASE takes (R110, R111): codes 13 to 15 are never taken, so the type has none (U11). -/
inductive Phase where
  | idle | fcount | keysort | window | tbuild | cgen | hdrw | tabw | pack | flush | hdrr | tabr | walk
  deriving DecidableEq, Repr, Inhabited

/-- Who issues an instruction: the host by a write of CTRL, or the sequencer by its PHASE register (R111). -/
inductive Issuer where
  | host
  | sequencer
  deriving DecidableEq, Repr

/-- An encoded instruction: a value written to CTRL (format CMD) or a value of PHASE (format PHASE) (R108, R110). -/
inductive Encoded where
  | ctrl (value : Word)
  | phase (code : BitVec 4)
  deriving DecidableEq, Repr

end Sys2Proof
end

