-- ==== Sys2Proof/WellFormed.lean ====
section
/-!
DEFINITION. Which instruction may come from where (spec/30_encoding.md R111: "Phases cannot be issued by the host; only the
sequencer enters them"). No instruction has an operand, so there is no operand to check.
-/

namespace Sys2Proof

/-- The agent an instruction comes from: the CMD rows from the host, the PHASE rows from the sequencer (R111, R113). -/
def Instr.issuer : Instr → Issuer
  | .nop | .encode | .decode | .reservedOp3 => .host
  | .idle | .fcount | .keysort | .window | .tbuild | .cgen | .hdrw | .tabw | .pack | .flush | .hdrr | .tabr | .walk =>
    .sequencer

/-- The instruction may be issued by that agent (R111). -/
def Instr.wellFormed (from_ : Issuer) (i : Instr) : Bool := decide (i.issuer = from_)

/-- The agent that presents an encoded instruction: a CTRL write is the host's, a PHASE code the sequencer's. -/
def Encoded.issuer : Encoded → Issuer
  | .ctrl _ => .host
  | .phase _ => .sequencer

end Sys2Proof
end

