-- ==== Sys2Proof/Decode.lean ====
section
/-!
DEFINITION. Decoding a CTRL write and a PHASE code (spec/30_encoding.md R108 to R113), then the encoder, then the fixed name
decodeTableWord that reads a row of spec/opcode_table.json.
-/

namespace Sys2Proof

/-- Why an encoded instruction is rejected. -/
inductive DecodeReject where
  /-- PHASE codes 13, 14 and 15 are unused (R111). -/
  | reservedPhase (code : BitVec 4)
  deriving DecidableEq, Repr

/-- "A decoder of CTRL writes is: take bits 1:0, look the value up among the CMD rows" (R113); bits 63:2 are ignored (R35). -/
def decodeCtrl (v : Word) : Instr :=
  if v.extractLsb' 0 2 = 0#2 then .nop
  else if v.extractLsb' 0 2 = 1#2 then .encode
  else if v.extractLsb' 0 2 = 2#2 then .decode
  else .reservedOp3

/-- The phase whose code is p (R110); 13 to 15 are rejected by name (R111). -/
def decodePhase (p : BitVec 4) : Except DecodeReject Instr :=
  match p.toNat with
  | 0 => .ok .idle
  | 1 => .ok .fcount
  | 2 => .ok .keysort
  | 3 => .ok .window
  | 4 => .ok .tbuild
  | 5 => .ok .cgen
  | 6 => .ok .hdrw
  | 7 => .ok .tabw
  | 8 => .ok .pack
  | 9 => .ok .flush
  | 10 => .ok .hdrr
  | 11 => .ok .tabr
  | 12 => .ok .walk
  | _ => .error (.reservedPhase p)

/-- The decoder of both formats. -/
def decodeWord : Encoded → Except DecodeReject Instr
  | .ctrl v => .ok (decodeCtrl v)
  | .phase p => decodePhase p

/-- The code of each value of PHASE (R110), as STATUS[11:8] shows it. -/
def Phase.code : Phase → BitVec 4
  | .idle => 0
  | .fcount => 1
  | .keysort => 2
  | .window => 3
  | .tbuild => 4
  | .cgen => 5
  | .hdrw => 6
  | .tabw => 7
  | .pack => 8
  | .flush => 9
  | .hdrr => 10
  | .tabr => 11
  | .walk => 12

/-- The instruction that a value of PHASE runs (R110). -/
def Phase.instr : Phase → Instr
  | .idle => .idle
  | .fcount => .fcount
  | .keysort => .keysort
  | .window => .window
  | .tbuild => .tbuild
  | .cgen => .cgen
  | .hdrw => .hdrw
  | .tabw => .tabw
  | .pack => .pack
  | .flush => .flush
  | .hdrr => .hdrr
  | .tabr => .tabr
  | .walk => .walk

/-- The phase that runs an instruction; none for a command. -/
def Instr.phase? : Instr → Option Phase
  | .nop | .encode | .decode | .reservedOp3 => none
  | .idle => some .idle
  | .fcount => some .fcount
  | .keysort => some .keysort
  | .window => some .window
  | .tbuild => some .tbuild
  | .cgen => some .cgen
  | .hdrw => some .hdrw
  | .tabw => some .tabw
  | .pack => some .pack
  | .flush => some .flush
  | .hdrr => some .hdrr
  | .tabr => some .tabr
  | .walk => some .walk

/-- The word of an instruction (R108, R110), the ignored bits CTRL[63:2] written as `ignored` (R35); a phase has no such bits. -/
def encodeWith (ignored : BitVec 62) : Instr → Encoded
  | .nop => .ctrl (ignored ++ 0#2)
  | .encode => .ctrl (ignored ++ 1#2)
  | .decode => .ctrl (ignored ++ 2#2)
  | .reservedOp3 => .ctrl (ignored ++ 3#2)
  | .idle => .phase 0
  | .fcount => .phase 1
  | .keysort => .phase 2
  | .window => .phase 3
  | .tbuild => .phase 4
  | .cgen => .phase 5
  | .hdrw => .phase 6
  | .tabw => .phase 7
  | .pack => .phase 8
  | .flush => .phase 9
  | .hdrr => .phase 10
  | .tabr => .phase 11
  | .walk => .phase 12

/-- The word of an instruction with the ignored bits 0. -/
def encode (i : Instr) : Encoded := encodeWith 0 i

/-- Which of the two formats an opcode-table word of nbits bits stands in. DESIGN CHOICE (log entry 16): 2 or 3 bits are CTRL.OP,
4 to 7 bits are PHASE, 64 bits are a CTRL write; in a whole byte the formats cannot be told apart, so there 0 to 3 is CTRL.OP,
4 to 15 is PHASE, and a value wider than PHASE is a CTRL write with its ignored bits set. -/
def tableWord (nbits w : Nat) : Encoded :=
  if nbits ≤ 3 then .ctrl (BitVec.ofNat 64 w)
  else if nbits ≤ 7 then .phase (BitVec.ofNat 4 w)
  else if w < 4 then .ctrl (BitVec.ofNat 64 w)
  else if w < 16 ∧ nbits = 8 then .phase (BitVec.ofNat 4 w)
  else .ctrl (BitVec.ofNat 64 w)

/-- The instruction the decoder reads from an opcode-table word. -/
def decodeTableWord (nbits w : Nat) : Option Instr :=
  match decodeWord (tableWord nbits w) with
  | .ok i => some i
  | .error _ => none

end Sys2Proof
end

