-- ==== Sys2Proof/Config.lean ====
section
/-!
DEFINITION. What an implementation fixes and what the spec leaves open: the records of the internal memories
(spec/10_state.md R25, R27, R29), the free values that stand for contents the spec calls unspecified, and CSR_MAP.
-/

namespace Sys2Proof

/-- A NODE entry (R25). A leaf has no children and an internal node no byte value: what R25 calls not meaningful does not exist
(log entry 12). -/
inductive Node where
  /-- kind LEAF: "one original byte value" and its frequency. -/
  | leaf (weight : Word) (value : Byte)
  /-- kind INTERNAL: "the summed weight of its two children" and the children's indices. -/
  | internal (weight : Word) (left right : NodeIx)
  deriving DecidableEq, Repr, Inhabited

/-- The weight of a node of either kind (R25, R162). -/
def Node.weight : Node → Word
  | .leaf w _ => w
  | .internal w _ _ => w

/-- A CODE entry (R27): while `valid` is false, `len` and `pos` are stale and no rule reads them (U9). -/
structure CodeEntry where
  valid : Bool
  len : BitVec 8
  pos : Path
  deriving DecidableEq, Repr, Inhabited

/-- A CGSTK entry: node index, level, position (R29). -/
structure StackEntry where
  node : NodeIx
  level : BitVec 8
  pos : Path
  deriving DecidableEq, Repr, Inhabited

/-- The memories and registers whose contents are unspecified once a command has ended (R44, U3) and after a reset of a
machine that has run (R290, U14). -/
structure Leftover where
  freq : Vector Word 256
  key : Vector Word 256
  tab : Vector Word 256
  node : Vector Node 511
  seq : Vector NodeIx 256
  code : Vector CodeEntry 256
  hbuf : Vector Byte 20
  cgstk : Vector StackEntry 256
  cgsp : Fin 257
  wstart : Fin 255
  root : NodeIx
  i : Fin 256
  j : Fin 256
  m : NodeIx
  cur : NodeIx
  acc : Byte
  nbits : BitVec 3
  cache : Byte
  cbits : BitVec 4
  deriving Inhabited

/-- FREE VALUE: what a command leaves behind, the n-th time one ends or the block is reset (R44, R290; log entry 10). No body. -/
opaque Config.leftover : Nat → Leftover

/-- FREE VALUE: what FILE_SIZE or SYMCNT read as in the middle of a command (R38, U12; log entry 11). No body. -/
opaque Config.midData : Nat → Word

/-- FREE VALUE: what the 32 bits of TABLE_SIZE read as in the middle of a command (R38, U12; log entry 11). No body. -/
opaque Config.midTable : Nat → Half

/-- The open parameter CSR_MAP (R34, D4): the bus address of each CSR. "No rule depends on it"; the model's host names CSRs by
number (log entry 19). No body. -/
opaque Config.csrMap : Fin 5 → Nat

end Sys2Proof
end

