-- ==== Sys2Proof/Machine/State.lean ====
section
/-!
DEFINITION. The state of HUFFCORE (spec/10_state.md R22 to R33, R41) together with what stands at its ports: the two streams
and the host. Plain data. State.reset is the block after rst (spec/70_reset_and_hazards.md R290).
-/

namespace Sys2Proof.Machine

/-- STATUS.ERR (R33, R251): codes 5 to 7 are never written, so the type has none (U11). -/
inductive ErrKind where
  /-- 0: "no error since the last accepted command (or since reset)". -/
  | none
  /-- 1: a stream primitive failed, or PACK met a byte without a code (R252). -/
  | io
  /-- 2: short header, magic, table size, short table (R253). -/
  | format
  /-- 3: the input ended before FSIZE symbols (R254). -/
  | truncated
  /-- 4: reserved, never raised (R255). -/
  | allocation
  deriving DecidableEq, Repr, Inhabited

/-- CMDREG: the last accepted command, none since reset (R30, R36). -/
inductive CmdReg where
  | none
  | encode
  | decode
  deriving DecidableEq, Repr, Inhabited

/-- How a stream answers one primitive (R252, R302; log entry 2). -/
inductive Answer where
  /-- The primitive is performed. -/
  | ok
  /-- The stream asserts in_err or out_err: IoError (R252); it wins over the end of the stream (R260). -/
  | err
  /-- The stream never answers this primitive: a hang, not an error (R302). If rst cuts the wait off, the stream goes on with the
  answers after this one; a stream that stays silent has more of these (log entry 31). -/
  | never
  deriving DecidableEq, Repr

/-- The stream primitives (R10, R61). -/
inductive Prim where
  | inAtEnd
  | inRead
  | inRewind
  | outWrite (b : Byte)
  deriving DecidableEq, Repr

/-- A performed primitive with its answer, as an outside party sees it (R145). -/
inductive Transfer where
  | atEnd (answer : Bool)
  | read (b : Byte)
  | rewound
  | wrote (b : Byte)
  | failed (p : Prim)
  deriving DecidableEq, Repr

/-- The input stream (R41). `passes` is what it presents after each later rewind when it breaks the duty of R65, empty for a
stream that keeps it (log entry 6); `answers` says how it answers the primitives to come, all ok once it is empty (log entry 2). -/
structure InStream where
  data : List Byte
  pos : Nat
  passes : List (List Byte)
  answers : List Answer
  deriving DecidableEq, Repr

/-- The output stream (R41). -/
structure OutStream where
  data : List Byte
  answers : List Answer
  deriving DecidableEq, Repr

/-- What the host does next (R138, R146, R290; log entry 4). -/
inductive HostAct where
  /-- The host does nothing in this step: the sequencer moves. -/
  | quiet
  /-- Write a CSR by its number; 0 is CTRL and issues a command, the others ignore writes (R35, R36, R38). -/
  | csrWrite (n : Nat) (v : Word)
  /-- Read a CSR by its number (R34 to R38). -/
  | csrRead (n : Nat)
  /-- Connect or replace the input stream, at its first byte. -/
  | connectIn (data : List Byte) (passes : List (List Byte)) (answers : List Answer)
  /-- Connect or replace the output stream by an empty one. -/
  | connectOut (answers : List Answer)
  /-- Reposition the input stream. -/
  | seekIn (pos : Nat)
  /-- Assert rst. -/
  | rst
  deriving DecidableEq, Repr

/-- Every piece of state: the block's registers and memories, then the streams, the host and the logs beside them. -/
structure State where
  /-- The phase being executed, R32. -/
  phase : Phase
  /-- R33. -/
  busy : Bool
  /-- R33. -/
  done : Bool
  /-- R33, R251. -/
  err : ErrKind
  /-- The last accepted command, R30, R36. -/
  cmdreg : CmdReg
  /-- The header's file_size, R30. -/
  fsize : Word
  /-- The header's table_size, R30, C12. -/
  tsize : Half
  /-- Symbols packed or decoded, R30. -/
  symcnt : Word
  /-- Index in KEY of the first window entry, R30. -/
  wstart : Fin 255
  /-- Index in NODE of the tree's root, R30. -/
  root : NodeIx
  /-- Merge iteration, R30. -/
  i : Fin 256
  /-- Insertion scan position, R30. -/
  j : Fin 256
  /-- The internal node being created, R30. -/
  m : NodeIx
  /-- The decoder's walk position, R30. -/
  cur : NodeIx
  /-- The encoder's accumulator, R30. -/
  acc : Byte
  /-- The number of code bits in ACC, R30. -/
  nbits : BitVec 3
  /-- The decoder's 1-byte cache, R30. -/
  cache : Byte
  /-- The number of unconsumed bits in CACHE, R30. -/
  cbits : BitVec 4
  /-- R22. -/
  freq : Vector Word 256
  /-- R23. -/
  key : Vector Word 256
  /-- R24. -/
  tab : Vector Word 256
  /-- R25. -/
  node : Vector Node 511
  /-- R26. -/
  seq : Vector NodeIx 256
  /-- R27. -/
  code : Vector CodeEntry 256
  /-- R28. -/
  hbuf : Vector Byte 20
  /-- R29. -/
  cgstk : Vector StackEntry 256
  /-- The stack pointer of CGSTK, 0 to 256, R29. -/
  cgsp : Fin 257
  /-- The input stream, R41. -/
  input : InStream
  /-- The output stream, R41. -/
  output : OutStream
  /-- What the host does next; empty: nothing, for ever (log entry 4). -/
  host : List HostAct
  /-- The primitive that is never answered, if the block hangs on one (R302; log entry 3). -/
  wait : Option Prim
  /-- The primitives performed, latest first (R145; log entry 20). -/
  trace : List Transfer
  /-- What the host's CSR reads returned, latest first (log entry 20). -/
  reads : List (Nat × Word)
  /-- The model's own counter, with which free values are drawn (log entries 10 and 11). -/
  fresh : Nat
  deriving DecidableEq, Repr

/-- Model faults. None is an error of the spec (those are next states, R256): each stops the model, safely, in a state that no
run reaches. -/
inductive Fault where
  /-- TBUILD with TSIZE outside 2..256 (R160, R168), TABW with TSIZE above 256: an entry that does not exist. Safe. -/
  | tableSize
  /-- WALK reads a child of a leaf (R227: cannot arise). Safe. -/
  | leafHasNoChild
  /-- CGEN pushes onto a full CGSTK (R184: cannot arise on a tree). Safe. -/
  | stackFull
  /-- A loop goes past the bound R137 gives it (CGEN on a NODE memory that is no tree). Safe. -/
  | loopBound
  /-- InRead beyond the end of the input, or from a cursor outside it (R41, R62: cannot arise). Safe. -/
  | inputCursor
  deriving DecidableEq, Repr

/-- Refusals: the model gives the step no meaning. -/
inductive Refusal where
  /-- Raised by an arm of exec for an instruction that has no meaning yet. Safe. -/
  | notModelled (mnemonic : String)
  /-- Raised by KEYSORT for an input of 2^56 bytes or more (R152: "what KEYSORT then does is unspecified"; U1). Safe. -/
  | inputTooLong
  /-- Raised by step when the host moves or exchanges a stream while BUSY = 1 (R146 forbids it; U6, U7). Safe. -/
  | streamMovedWhileBusy
  /-- Raised by step for a PHASE code that no phase has (R111); no value of PHASE has one. Safe. -/
  | reservedPhase
  deriving DecidableEq, Repr

/-- The block right after rst (R290, R31), no stream connected, a host that does nothing. Where R290 says "unspecified" the
values are the model's own DESIGN CHOICE (log entry 9). -/
def State.reset : State where
  phase := .idle
  busy := false
  done := false
  err := .none
  cmdreg := .none
  fsize := 0
  tsize := 0
  symcnt := 0
  wstart := 0
  root := 0
  i := 0
  j := 0
  m := 0
  cur := 0
  acc := 0
  nbits := 0
  cache := 0
  cbits := 0
  freq := Vector.replicate 256 0
  key := Vector.replicate 256 0
  tab := Vector.replicate 256 0
  node := Vector.replicate 511 (.leaf 0 0)
  seq := Vector.replicate 256 0
  code := Vector.replicate 256 ⟨false, 0, 0⟩
  hbuf := Vector.replicate 20 0
  cgstk := Vector.replicate 256 ⟨0, 0, 0⟩
  cgsp := 0
  input := ⟨[], 0, [], []⟩
  output := ⟨[], []⟩
  host := []
  wait := none
  trace := []
  reads := []
  fresh := 0

end Sys2Proof.Machine
end

