-- ==== Sys2Proof/Machine/Flags.lean ====
section
/-!
DEFINITION. The status flags and the control and status registers (spec/10_state.md R33 to R38) as views of the state, and the
output ports (R39).
-/

namespace Sys2Proof.Machine

/-- The code of an error kind (R251). -/
def ErrKind.code : ErrKind → BitVec 3
  | .none => 0
  | .io => 1
  | .format => 2
  | .truncated => 3
  | .allocation => 4

/-- The code of CMDREG (R36, R108). -/
def CmdReg.code : CmdReg → BitVec 2
  | .none => 0
  | .encode => 1
  | .decode => 2

/-- STATUS (R36): bit 0 BUSY, bit 1 DONE, bits 4:2 ERR, bits 7:5 zero, bits 11:8 PHASE, bits 13:12 CMD, the rest zero. -/
def State.status (s : State) : Word :=
  0#50 ++ s.cmdreg.code ++ s.phase.code ++ 0#3 ++ s.err.code ++ BitVec.ofBool s.done ++ BitVec.ofBool s.busy

/-- The value a CSR holds (R34 to R38): CTRL reads 0, TABLE_SIZE is zero-extended, a CSR that does not exist reads 0. -/
def State.csr (s : State) : Nat → Word
  | 0 => 0
  | 1 => s.status
  | 2 => s.fsize
  | 3 => s.tsize.setWidth 64
  | 4 => s.symcnt
  | _ => 0

/-- What a read of a CSR returns (R38): the value it holds, but for FILE_SIZE, TABLE_SIZE and SYMCNT while BUSY, whose value in
the middle of a phase is a free value (U12, log entry 11). -/
def State.csrRead (s : State) (n : Nat) : Word :=
  if s.busy = true ∧ (n = 2 ∨ n = 4) then Config.midData s.fresh
  else if s.busy = true ∧ n = 3 then (Config.midTable s.fresh).setWidth 64
  else s.csr n

/-- The output ports (R39) between two transfers: deasserted, unless the block waits for an answer (R302, log entry 21). -/
structure Ports where
  inReady : Bool
  inRewind : Bool
  outValid : Bool
  outData : Byte
  deriving DecidableEq, Repr

/-- The output ports as the unanswered primitive leaves them; with none, all are deasserted (R39, R290). -/
def State.ports (s : State) : Ports :=
  match s.wait with
  | some .inRead => ⟨true, false, false, 0⟩
  | some .inRewind => ⟨false, true, false, 0⟩
  | some (.outWrite b) => ⟨false, false, true, b⟩
  | some .inAtEnd => ⟨false, false, false, 0⟩
  | none => ⟨false, false, false, 0⟩

end Sys2Proof.Machine
end

