-- ==== Sys2Proof/Machine/Operands.lean ====
section
/-!
DEFINITION. The operand forms of the container (spec/30_encoding.md R90 to R97): byte order, the magic, the composite unit and
its order, and the bits of a code.
-/

namespace Sys2Proof.Machine

/-- The k bytes of n, least significant first (R11, R67). -/
def leBytes : Nat → Nat → List Byte
  | 0, _ => []
  | k + 1, n => BitVec.ofNat 8 n :: leBytes k (n / 256)

/-- The number whose bytes, least significant first, are these (R11, R67). -/
def leNat : List Byte → Nat
  | [] => 0
  | b :: bs => b.toNat + 256 * leNat bs

/-- LE64 (R11). -/
def le64 (v : Word) : List Byte := leBytes 8 v.toNat

/-- LE32 (R11). -/
def le32 (v : Half) : List Byte := leBytes 4 v.toNat

/-- U64LE (R11). -/
def u64le (bs : List Byte) : Word := BitVec.ofNat 64 (leNat bs)

/-- U32LE (R11). -/
def u32le (bs : List Byte) : Half := BitVec.ofNat 32 (leNat bs)

/-- "HUFFMAN" + NUL (R91); the ASCII values are the spec's own general knowledge (GK1, log entry 22). -/
def magic : List Byte := [0x48, 0x55, 0x46, 0x46, 0x4D, 0x41, 0x4E, 0x00]

/-- The composite unit of a frequency and a byte value, the frequency cut to its low 56 bits (R93, R190). -/
def unitOf (freq : Word) (value : Byte) : Word := (freq <<< 8) ||| value.setWidth 64

/-- u[7:0] (R93). -/
def unitValue (u : Word) : Byte := u.setWidth 8

/-- u[63:8], zero-extended to 64 bits (R93, R162). -/
def unitFreq (u : Word) : Word := u >>> 8

/-- Puts a unit before the first one that is not below it, unsigned (R191, D11). -/
def insertUnit (u : Word) : List Word → List Word
  | [] => [u]
  | v :: vs => if u.toNat ≤ v.toNat then u :: v :: vs else v :: insertUnit u vs

/-- "sort ascending as unsigned 64-bit integers" (R190); any correct sort gives this list (R191, U19). -/
def sortUnits : List Word → List Word
  | [] => []
  | u :: us => insertUnit u (sortUnits us)

/-- The vector whose k-th entry is f k. -/
def tabulate {α : Type} (n : Nat) (f : Fin n → α) : Vector α n := ⟨(List.ofFn f).toArray, by simp⟩

/-- A counter value as an index of a 256-entry memory; the loops that use it keep it below 256. -/
def ix256 (k : Nat) : Fin 256 := Fin.ofNat 256 k

/-- A counter value as a node index; the loops that use it keep it below 511. -/
def nodeIx (k : Nat) : NodeIx := Fin.ofNat 511 k

/-- Bit t of a code's position (R27, R181). -/
def pathBit (p : Path) (t : Nat) : Bool := p.getLsbD t

/-- P[t] << (7 - NBITS): the code bit at the next free place of ACC, from bit 7 downward (R200). -/
def accBit (bit : Bool) (nbits : BitVec 3) : Byte := (if bit then (1 : Byte) else 0) <<< (7 - nbits.toNat)

/-- 2P + bit in 255 bits: one edge further down (R181). -/
def pathStep (p : Path) (bit : Bool) : Path := (p <<< 1) ||| (if bit then (1 : Path) else 0)

end Sys2Proof.Machine
end

