-- ==== Sys2Proof/Machine/Ops.lean ====
section
/-!
DEFINITION. The shared operations: how a phase runs, the stream primitives (spec/00_scope.md R10, spec/20_memory.md R62), the
raise of an error (spec/60_exceptions.md R256), the acceptance and the completion of a command, the reset of the block.
-/

namespace Sys2Proof.Machine

/-- A piece of a phase: it goes on with a value, it stops the phase (an error was raised, or a primitive is never answered), or
the model faults. -/
inductive Run (α : Type) where
  | ok (a : α) (s : State)
  | halt (s : State)
  | fault (f : Fault)

/-- Sequencing, in pseudocode order (R73). -/
def Run.bind {α β : Type} (r : Run α) (k : α → State → Run β) : Run β :=
  match r with
  | .ok a s => k a s
  | .halt s => .halt s
  | .fault f => .fault f

/-- A while loop: the body says whether to go round again. `fuel` is a bound that R137 gives the loop; past it the model faults. -/
def Run.loop : Nat → (State → Run Bool) → State → Run Unit
  | 0, _, _ => .fault .loopBound
  | fuel + 1, body, s =>
    match body s with
    | .ok true t => Run.loop fuel body t
    | .ok false t => .ok () t
    | .halt t => .halt t
    | .fault f => .fault f

/-- A counted loop over the values of a list, in order. -/
def Run.each {α : Type} : List α → (α → State → Run Unit) → State → Run Unit
  | [], _, s => .ok () s
  | a :: as, body, s => (body a s).bind fun _ t => Run.each as body t

/-- A whole phase: a block that hangs on a primitive stays as it is (R302); otherwise the body runs, and after it `fin`. -/
def runPhase (body : State → Run Unit) (fin : State → State) (s : State) : Host.Outcome State Fault Refusal :=
  match s.wait with
  | some _ => .next s
  | none =>
    match body s with
    | .ok _ t => .next (fin t)
    | .halt t => .next t
    | .fault f => .fault f

/-! ### The end of a command -/

/-- The contents that are unspecified from now on become free values (R44, R290; log entry 10). FSIZE, TSIZE, SYMCNT and the
status fields keep their values. -/
def release (s : State) : State :=
  let x := Config.leftover s.fresh
  { s with
    freq := x.freq, key := x.key, tab := x.tab, node := x.node, seq := x.seq, code := x.code, hbuf := x.hbuf,
    cgstk := x.cgstk, cgsp := x.cgsp, wstart := x.wstart, root := x.root, i := x.i, j := x.j, m := x.m, cur := x.cur,
    acc := x.acc, nbits := x.nbits, cache := x.cache, cbits := x.cbits, fresh := s.fresh + 1 }

/-- `raise E(info)` "as one indivisible step" (R256, R136): ERR, BUSY, DONE, PHASE; `info` is stored nowhere (R251). -/
def raiseError (e : ErrKind) (s : State) : State :=
  release { s with err := e, busy := false, done := false, phase := .idle }

/-- The last line of FLUSH and of WALK (R135, R144): PHASE <- IDLE; BUSY <- 0; DONE <- 1. The command has then ended, so
everything that R44 names is unspecified, what the last phase itself wrote included (R77; log entry 10). -/
def completeCommand (s : State) : State :=
  release { s with phase := .idle, busy := false, done := true }

/-- Acceptance of a command (R131 to R133): if and only if BUSY = 0; a write while BUSY is ignored and not queued. -/
def acceptCommand (c : CmdReg) (first : Phase) (s : State) : State :=
  if s.busy = true then s
  else { s with cmdreg := c, busy := true, done := false, err := .none, phase := first }

/-- rst (R290, R291): the listed values; the rest of the block unspecified; the streams, the host and the logs stay. A primitive
that was waiting is given up, not performed (DESIGN CHOICE, log entry 31). -/
def resetBlock (s : State) : State :=
  { release s with
    phase := .idle, busy := false, done := false, err := .none, cmdreg := .none, fsize := 0, tsize := 0, symcnt := 0,
    acc := 0, nbits := 0, cache := 0, cbits := 0, wait := none }

/-- PHASE <- p (R11, R135). -/
def goPhase (p : Phase) (s : State) : State := { s with phase := p }

/-- A `raise` inside a phase: the command ends here (R11). -/
def Run.raise {α : Type} (e : ErrKind) (s : State) : Run α := .halt (raiseError e s)

/-! ### The stream primitives -/

/-- One line in the log of performed primitives (R145). -/
def State.log (t : Transfer) (s : State) : State := { s with trace := t :: s.trace }

/-- The input stream's answer to a primitive: go on, IoError (R252), or wait for ever (R302). DESIGN CHOICE (log entry 31): the
unanswered primitive is not performed, and what the stream answers after a rst is the rest of its script. -/
def askIn (p : Prim) (s : State) : Run Unit :=
  match s.input.answers with
  | [] => .ok () s
  | .ok :: rest => .ok () { s with input := { s.input with answers := rest } }
  | .err :: rest => .raise .io (State.log (.failed p) { s with input := { s.input with answers := rest } })
  | .never :: rest => .halt { s with input := { s.input with answers := rest }, wait := some p }

/-- The output stream's answer to a primitive; for one that is not answered, DESIGN CHOICE as in askIn (log entry 31). -/
def askOut (p : Prim) (s : State) : Run Unit :=
  match s.output.answers with
  | [] => .ok () s
  | .ok :: rest => .ok () { s with output := { s.output with answers := rest } }
  | .err :: rest => .raise .io (State.log (.failed p) { s with output := { s.output with answers := rest } })
  | .never :: rest => .halt { s with output := { s.output with answers := rest }, wait := some p }

/-- InAtEnd() (R10, R41). -/
def inAtEnd (s : State) : Run Bool :=
  (askIn .inAtEnd s).bind fun _ s =>
    let e := decide (s.input.pos = s.input.data.length)
    .ok e (State.log (.atEnd e) s)

/-- InRead() (R10, R41, R71): the byte under the cursor, and the cursor moves on. -/
def inRead (s : State) : Run Byte :=
  (askIn .inRead s).bind fun _ s =>
    match s.input.data[s.input.pos]? with
    | none => .fault .inputCursor
    | some b => .ok b (State.log (.read b) { s with input := { s.input with pos := s.input.pos + 1 } })

/-- InRewind() (R10, R41): the cursor to the first byte. A stream that breaks R65 presents other bytes from here on. -/
def inRewind (s : State) : Run Unit :=
  (askIn .inRewind s).bind fun _ s =>
    .ok () (State.log .rewound
      { s with input := { s.input with
          pos := 0
          data := s.input.passes.headD s.input.data
          passes := s.input.passes.tail } })

/-- OutWrite(b) (R10, R41). -/
def outWrite (b : Byte) (s : State) : Run Unit :=
  (askOut (.outWrite b) s).bind fun _ s =>
    .ok () (State.log (.wrote b) { s with output := { s.output with data := s.output.data ++ [b] } })

/-- The pair "if not InAtEnd() then InRead()" with which every byte is read (R62). -/
def inNext (s : State) : Run (Option Byte) :=
  (inAtEnd s).bind fun e s =>
    if e = true then .ok none s else (inRead s).bind fun b s => .ok (some b) s

/-- InReadN(n) (R10, R62): shorter than n exactly when the stream ended early. -/
def inReadN : Nat → State → Run (List Byte)
  | 0, s => .ok [] s
  | n + 1, s =>
    (inNext s).bind fun b s =>
      match b with
      | none => .ok [] s
      | some b => (inReadN n s).bind fun bs s => .ok (b :: bs) s

/-- OutWrite of each byte, in order. -/
def writeBytes (bs : List Byte) (s : State) : Run Unit := Run.each bs outWrite s

/-- The input bytes not yet read. -/
def State.unread (s : State) : List Byte := s.input.data.drop s.input.pos

/-- A bound on the rounds of a loop that reads a byte a round until the input ends (R137). -/
def State.byteRounds (s : State) : Nat := s.unread.length + 1

end Sys2Proof.Machine
end

