-- ==== Sys2Proof/Machine/CodeGenerator.lean ====
section
/-!
DEFINITION. The Code Generator unit: phase CGEN (spec/43_code_generator.md R180 to R187).
-/

namespace Sys2Proof.Machine

/-- push(k, L, P) (R180). CGSTK has 256 entries; R184 says they suffice. -/
def pushNode (k : NodeIx) (level : BitVec 8) (pos : Path) (s : State) : Run Unit :=
  if h : s.cgsp.val < 256 then
    .ok () { s with cgstk := s.cgstk.set s.cgsp.val ⟨k, level, pos⟩, cgsp := ⟨s.cgsp.val + 1, by omega⟩ }
  else .fault .stackFull

/-- One round of the traversal (R180, R181): pop; a leaf gets its code; an internal node pushes its right child, then its left,
which is popped first (R182). -/
def visitNode (s : State) : Run Bool :=
  if h : s.cgsp.val = 0 then .ok false s
  else
    let e := s.cgstk[s.cgsp.val - 1]
    let s1 : State := { s with cgsp := ⟨s.cgsp.val - 1, by omega⟩ }
    match s.node[e.node] with
    | .leaf _ v => .ok true { s1 with code := s1.code.set v.toNat ⟨true, e.level, e.pos⟩ }
    | .internal _ l r =>
      (pushNode r (e.level + 1) (pathStep e.pos true) s1).bind fun _ s2 =>
        (pushNode l (e.level + 1) (pathStep e.pos false) s2).bind fun _ s3 => .ok true s3

/-- Every valid bit to 0, the root pushed, then the traversal; it visits each of at most 511 nodes once (R137, R180). -/
def cgenBody (s : State) : Run Unit :=
  (pushNode s.root 0 0 { s with code := s.code.map fun c => { c with valid := false }, cgsp := 0 }).bind fun _ s =>
    Run.loop 512 visitNode s

/-- CGEN (R180). -/
def execCgen (s : State) : Host.Outcome State Fault Refusal := runPhase cgenBody (goPhase .hdrw) s

end Sys2Proof.Machine
end

