-- ==== Sys2Proof/Machine/Commands.lean ====
section
/-!
DEFINITION. The four command codes and the phase IDLE (spec/40_commands.md R130 to R134, spec/30_encoding.md R109).
-/

namespace Sys2Proof.Machine

/-- NOP (R130): nothing; it does not clear DONE or ERR. -/
def execNop (s : State) : Host.Outcome State Fault Refusal := .next s

/-- ENCODE (R131, R133). -/
def execEncode (s : State) : Host.Outcome State Fault Refusal := .next (acceptCommand .encode .fcount s)

/-- DECODE (R132, R133). -/
def execDecode (s : State) : Host.Outcome State Fault Refusal := .next (acceptCommand .decode .hdrr s)

/-- OP = 11 (R109): "A write of it changes no state and raises no error, exactly as NOP" (log entry 8). -/
def execReservedOp3 (s : State) : Host.Outcome State Fault Refusal := .next s

/-- IDLE (R134): no stream primitive, no change of state. -/
def execIdle (s : State) : Host.Outcome State Fault Refusal := .next s

end Sys2Proof.Machine
end

