-- ==== Sys2Proof/Machine/DecodeSide.lean ====
section
/-!
DEFINITION. The Container Codec, decode side: phases HDRR, TABR, WALK (spec/45_decode.md R220 to R233).
-/

namespace Sys2Proof.Machine

/-! ### HDRR -/

/-- The whole header is read, then the magic compared; FSIZE and TSIZE are written only after both checks (R220 to R222). -/
def hdrrBody (s : State) : Run Unit :=
  (inReadN 20 s).bind fun bytes s =>
    if bytes.length < 20 then .raise .format s
    else
      let s1 := { s with hbuf := tabulate 20 fun k => bytes.getD k.val 0 }
      if s1.hbuf.toList.take 8 = magic then
        .ok () { s1 with
          fsize := u64le ((s1.hbuf.toList.drop 8).take 8)
          tsize := u32le ((s1.hbuf.toList.drop 16).take 4) }
      else .raise .format s1

/-- HDRR (R220). -/
def execHdrr (s : State) : Host.Outcome State Fault Refusal := runPhase hdrrBody (goPhase .tabr) s

/-! ### TABR -/

/-- TAB[k] <- U64LE(InReadN(8)), or FormatError on a short read (R223, R225). -/
def readEntry (k : Nat) (s : State) : Run Unit :=
  (inReadN 8 s).bind fun bytes s =>
    if bytes.length < 8 then .raise .format s
    else .ok () { s with tab := s.tab.set (ix256 k).val (u64le bytes) }

/-- The range check on the full 32 bits, before any table byte is read, then the table (R223, R224). -/
def tabrBody (s : State) : Run Unit :=
  if s.tsize.toNat < 2 ∨ 256 < s.tsize.toNat then .raise .format s
  else Run.each (List.range s.tsize.toNat) readEntry s

/-- TABR (R223). -/
def execTabr (s : State) : Host.Outcome State Fault Refusal := runPhase tabrBody (goPhase .tbuild) s

/-! ### WALK -/

/-- A new payload byte when CACHE is empty; TruncatedPayload at the end of the input (R226, R228). -/
def refill (s : State) : Run Unit :=
  if s.cbits = 0 then
    (inNext s).bind fun b s =>
      match b with
      | none => .raise .truncated s
      | some b => .ok () { s with cache := b, cbits := 8 }
  else .ok () s

/-- The child a bit leads to: 0 left, 1 right (R226). -/
def childOf (n : Node) (bit : Bool) : Option NodeIx :=
  match n with
  | .leaf _ _ => none
  | .internal _ l r => some (if bit = true then r else l)

/-- Consume CACHE[7], move CUR, and at a leaf emit its value and go back to the root (R226). -/
def walkBit (s : State) : Run Unit :=
  match childOf s.node[s.cur] s.cache.msb with
  | none => .fault .leafHasNoChild
  | some c =>
    let s1 := { s with cache := s.cache <<< 1, cbits := s.cbits - 1, cur := c }
    match s1.node[c] with
    | .internal _ _ _ => .ok () s1
    | .leaf _ v => (outWrite v s1).bind fun _ s2 => .ok () { s2 with symcnt := s2.symcnt + 1, cur := s2.root }

/-- One round of WALK while SYMCNT < FSIZE, unsigned (R226, R229). -/
def walkRound (s : State) : Run Bool :=
  if s.symcnt.toNat < s.fsize.toNat then
    (refill s).bind fun _ s => (walkBit s).bind fun _ s => .ok true s
  else .ok false s

/-- CUR, CBITS, SYMCNT set, then one bit a round; the unread bytes hold eight bits each (R226, R137). -/
def walkBody (s : State) : Run Unit :=
  Run.loop (8 * s.unread.length + 1) walkRound { s with cur := s.root, cbits := 0, symcnt := 0 }

/-- WALK (R226): the last phase of DECODE. -/
def execWalk (s : State) : Host.Outcome State Fault Refusal := runPhase walkBody completeCommand s

end Sys2Proof.Machine
end

