-- ==== Sys2Proof/Machine/EncodeSide.lean ====
section
/-!
DEFINITION. The Container Codec, encode side: phases KEYSORT, WINDOW, HDRW, TABW, PACK, FLUSH (spec/44_encode.md R190 to R204).
-/

namespace Sys2Proof.Machine

/-! ### KEYSORT -/

/-- The composite key of every byte value, in order of value (R190). -/
def rawKeys (freq : Vector Word 256) : List Word := List.ofFn fun b : Fin 256 => unitOf freq[b] (BitVec.ofFin b)

/-- The 256 keys, ascending (R190, R191). -/
def sortedKeys (freq : Vector Word 256) : Vector Word 256 :=
  tabulate 256 fun k => (sortUnits (rawKeys freq)).getD k.val 0

/-- The number of bytes FCOUNT has counted (R151). -/
def countedBytes (freq : Vector Word 256) : Nat := (freq.toList.map BitVec.toNat).sum

/-- The run is outside ENCODE's domain (R152, R296, U1): 2^56 bytes or more. -/
def tooLong (s : State) : Bool := decide (2 ^ 56 ≤ countedBytes s.freq) || decide (2 ^ 56 ≤ s.input.data.length)

/-- KEY <- the sorted composite keys (R190). -/
def keysortBody (s : State) : Run Unit := .ok () { s with key := sortedKeys s.freq }

/-- KEYSORT (R190); beyond 2^56 bytes "what KEYSORT then does is unspecified" and the model refuses (R152, U1). -/
def execKeysort (s : State) : Host.Outcome State Fault Refusal :=
  if s.wait = none ∧ tooLong s = true then .refused .inputTooLong else runPhase keysortBody (goPhase .window) s

/-! ### WINDOW -/

/-- The number of leading zero-frequency entries (R192). -/
def leadingZeros (key : Vector Word 256) : Nat := (key.toList.takeWhile fun u => unitFreq u == 0).length

/-- WSTART: the clamp (R192, R193). -/
def windowStart (key : Vector Word 256) : Nat := min (leadingZeros key) 254

/-- TAB[k] <- KEY[WSTART + k] for k below TSIZE; the other entries stay (R192). -/
def windowTable (start : Nat) (key tab : Vector Word 256) : Vector Word 256 :=
  tabulate 256 fun k => if k.val < 256 - start then key[ix256 (start + k.val)] else tab[k]

/-- WINDOW's effect (R192). -/
def windowBody (s : State) : Run Unit :=
  let w := windowStart s.key
  .ok () { s with wstart := Fin.ofNat 255 w, tsize := BitVec.ofNat 32 (256 - w), tab := windowTable w s.key s.tab }

/-- WINDOW (R192). -/
def execWindow (s : State) : Host.Outcome State Fault Refusal := runPhase windowBody (goPhase .tbuild) s

/-! ### HDRW and TABW -/

/-- FSIZE <- NODE[ROOT].weight, then magic, LE64(FSIZE), LE32(TSIZE) (R195). -/
def hdrwBody (s : State) : Run Unit :=
  let w := s.node[s.root].weight
  writeBytes (magic ++ le64 w ++ le32 s.tsize) { s with fsize := w }

/-- HDRW (R195). -/
def execHdrw (s : State) : Host.Outcome State Fault Refusal := runPhase hdrwBody (goPhase .tabw) s

/-- TAB[0 .. n-1] as a list. -/
def tableList (tab : Vector Word 256) (n : Nat) : List Word := tab.toList.take n

/-- LE64 of each table entry, in order (R198, R199). -/
def tabwBody (s : State) : Run Unit :=
  if s.tsize.toNat ≤ 256 then writeBytes ((tableList s.tab s.tsize.toNat).flatMap le64) s else .fault .tableSize

/-- TABW (R198). -/
def execTabw (s : State) : Host.Outcome State Fault Refusal := runPhase tabwBody (goPhase .pack) s

/-! ### PACK and FLUSH -/

/-- One code bit into ACC; at the eighth, OutWrite(ACC) and ACC, NBITS to 0 (R200: "8" is the carry out of NBITS). -/
def packBit (bit : Bool) (s : State) : Run Unit :=
  let s1 := { s with acc := s.acc ||| accBit bit s.nbits, nbits := s.nbits + 1 }
  if s.nbits = 7 then (outWrite s1.acc s1).bind fun _ s2 => .ok () { s2 with acc := 0, nbits := 0 }
  else .ok () s1

/-- for t in L-1 downto 0 (R200). -/
def packCode : Nat → Path → State → Run Unit
  | 0, _, s => .ok () s
  | t + 1, p, s => (packBit (pathBit p t) s).bind fun _ s => packCode t p s

/-- One round of PACK (R200): a byte without a code raises IoError and no bit of it is packed (R201). -/
def packByte (s : State) : Run Bool :=
  (inNext s).bind fun b s =>
    match b with
    | none => .ok false s
    | some b =>
      if (s.code[b.toNat]).valid = false then .raise .io s
      else (packCode (s.code[b.toNat]).len.toNat (s.code[b.toNat]).pos s).bind fun _ s =>
        .ok true { s with symcnt := s.symcnt + 1 }

/-- ACC, NBITS and SYMCNT to 0, then every byte of pass 2 (R200). -/
def packBody (s : State) : Run Unit :=
  Run.loop s.byteRounds packByte { s with acc := 0, nbits := 0, symcnt := 0 }

/-- PACK (R200). -/
def execPack (s : State) : Host.Outcome State Fault Refusal := runPhase packBody (goPhase .flush) s

/-- The last partial byte, zero-padded (R203). -/
def flushBody (s : State) : Run Unit :=
  if s.nbits = 0 then .ok () s
  else (outWrite s.acc s).bind fun _ s => .ok () { s with acc := 0, nbits := 0 }

/-- FLUSH (R203): the last phase of ENCODE. -/
def execFlush (s : State) : Host.Outcome State Fault Refusal := runPhase flushBody completeCommand s

end Sys2Proof.Machine
end

