-- ==== Sys2Proof/Machine/FrequencyTable.lean ====
section
/-!
DEFINITION. The Frequency Table unit: phase FCOUNT (spec/41_frequency_table.md R150 to R153).
-/

namespace Sys2Proof.Machine

/-- FREQ[b] <- FREQ[b] + 1, modulo 2^64 (R150). -/
def countUp (freq : Vector Word 256) (b : Byte) : Vector Word 256 := freq.set b.toNat (freq[b.toNat] + 1)

/-- One round of the counting loop (R150). -/
def countByte (s : State) : Run Bool :=
  (inNext s).bind fun b s =>
    match b with
    | none => .ok false s
    | some b => .ok true { s with freq := countUp s.freq b }

/-- FREQ to zero, count every byte, rewind (R150). -/
def fcountBody (s : State) : Run Unit :=
  (Run.loop s.byteRounds countByte { s with freq := Vector.replicate 256 0 }).bind fun _ s => inRewind s

/-- FCOUNT (R150). -/
def execFcount (s : State) : Host.Outcome State Fault Refusal := runPhase fcountBody (goPhase .keysort) s

end Sys2Proof.Machine
end

