-- ==== Sys2Proof/Machine/TreeBuilder.lean ====
section
/-!
DEFINITION. The Tree Builder unit: phase TBUILD (spec/42_tree_builder.md R160 to R173).
-/

namespace Sys2Proof.Machine

/-- The leaf of table entry k, and its place in the working sequence (R161 step 1, R162). -/
def buildLeaf (s : State) (k : Nat) : State :=
  { s with
    node := s.node.set (nodeIx k).val (.leaf (unitFreq s.tab[ix256 k]) (unitValue s.tab[ix256 k]))
    seq := s.seq.set (ix256 k).val (nodeIx k) }

/-- The insertion scan (R161, R165) from position j: every entry whose weight is strictly less than w moves one position left.
Answers the position reached and the sequence. `fuel` bounds the rounds (R137: fewer than n). -/
def scan (node : Vector Node 511) (n : Nat) (w : Word) : Nat → Nat → Vector NodeIx 256 → Nat × Vector NodeIx 256
  | 0, j, seq => (j, seq)
  | fuel + 1, j, seq =>
    if j + 1 < n ∧ (node[seq[ix256 (j + 1)]]).weight.toNat < w.toNat then
      scan node n w fuel (j + 1) (seq.set (ix256 j).val seq[ix256 (j + 1)])
    else (j, seq)

/-- One merge, iteration it (R161 step 2, R163 to R165): the entry at position it is the left child, the next the right. -/
def mergeStep (n : Nat) (s : State) (it : Nat) : State :=
  let a := s.seq[ix256 it]
  let b := s.seq[ix256 (it + 1)]
  let w := s.node[a].weight + s.node[b].weight
  let node := s.node.set (nodeIx (n + it)).val (.internal w a b)
  let r := scan node n w n (it + 1) s.seq
  { s with
    node := node, seq := r.2.set (ix256 r.1).val (nodeIx (n + it)), i := ix256 it, j := ix256 r.1, m := nodeIx (n + it) }

/-- Leaves, n - 1 merges, root (R161). -/
def buildTree (n : Nat) (s : State) : State :=
  let s1 := (List.range n).foldl buildLeaf s
  let s2 := (List.range (n - 1)).foldl (mergeStep n) s1
  { s2 with root := s2.seq[ix256 (n - 1)] }

/-- TBUILD is defined for tables of 2 to 256 entries (R160, R168). -/
def tbuildBody (s : State) : Run Unit :=
  if 2 ≤ s.tsize.toNat ∧ s.tsize.toNat ≤ 256 then .ok () (buildTree s.tsize.toNat s) else .fault .tableSize

/-- PHASE <- (if CMDREG = 1 then CGEN else WALK) (R161, R135). -/
def afterTbuild (s : State) : State := goPhase (if s.cmdreg = .encode then .cgen else .walk) s

/-- TBUILD (R161). -/
def execTbuild (s : State) : Host.Outcome State Fault Refusal := runPhase tbuildBody afterTbuild s

end Sys2Proof.Machine
end

