-- ==== Sys2Proof/Machine/Dispatch.lean ====
section
/-!
DEFINITION. One arm per instruction: the effect of executing it (spec/opcode_table.json).
-/

namespace Sys2Proof.Machine

def exec (i : Instr) (s : State) : Host.Outcome State Fault Refusal :=
  match i with
  | .nop => Sys2Proof.Machine.execNop s
  | .encode => Sys2Proof.Machine.execEncode s
  | .decode => Sys2Proof.Machine.execDecode s
  | .reservedOp3 => Sys2Proof.Machine.execReservedOp3 s
  | .idle => Sys2Proof.Machine.execIdle s
  | .fcount => Sys2Proof.Machine.execFcount s
  | .keysort => Sys2Proof.Machine.execKeysort s
  | .window => Sys2Proof.Machine.execWindow s
  | .tbuild => Sys2Proof.Machine.execTbuild s
  | .cgen => Sys2Proof.Machine.execCgen s
  | .hdrw => Sys2Proof.Machine.execHdrw s
  | .tabw => Sys2Proof.Machine.execTabw s
  | .pack => Sys2Proof.Machine.execPack s
  | .flush => Sys2Proof.Machine.execFlush s
  | .hdrr => Sys2Proof.Machine.execHdrr s
  | .tabr => Sys2Proof.Machine.execTabr s
  | .walk => Sys2Proof.Machine.execWalk s

end Sys2Proof.Machine
end

