-- ==== Sys2Proof/Machine/Host.lean ====
section
/-!
DEFINITION. The two sources of instructions: the sequencer's PHASE register (spec/10_state.md R32) and the host's actions
(spec/40_commands.md R138, R146), and the placing of an opcode-table word.
-/

namespace Sys2Proof.Machine

/-- The sequencer's turn: the instruction PHASE names (R32, R110). -/
def runSequencer (s : State) : Host.Outcome State Fault Refusal :=
  match decodePhase s.phase.code with
  | .ok i => exec i s
  | .error _ => .refused .reservedPhase

/-- A write to a CSR: CTRL issues the command its bits 1:0 name; any other write is ignored (R35, R36, R38). -/
def writeCsr (n : Nat) (v : Word) (s : State) : Host.Outcome State Fault Refusal :=
  if n = 0 then exec (decodeCtrl v) s else .next s

/-- A read of a CSR has no side effect on the block (R38); the value goes to the host's log. -/
def readCsr (n : Nat) (s : State) : State := { s with reads := (n, s.csrRead n) :: s.reads, fresh := s.fresh + 1 }

/-- A stream is moved or exchanged only while BUSY = 0 (R146). -/
def whenIdle (s t : State) : Host.Outcome State Fault Refusal :=
  if s.busy = true then .refused .streamMovedWhileBusy else .next t

/-- The host's turn. -/
def runHost (a : HostAct) (s : State) : Host.Outcome State Fault Refusal :=
  match a with
  | .quiet => runSequencer s
  | .csrWrite n v => writeCsr n v s
  | .csrRead n => .next (readCsr n s)
  | .connectIn data passes answers => whenIdle s { s with input := ⟨data, 0, passes, answers⟩ }
  | .connectOut answers => whenIdle s { s with output := ⟨[], answers⟩ }
  | .seekIn pos => whenIdle s { s with input := { s.input with pos := min pos s.input.data.length } }
  | .rst => .next (resetBlock s)

/-- The command whose phases the sequencer enters this phase in; TBUILD is in both, and ENCODE is taken (R135). -/
def commandOf : Phase → CmdReg
  | .idle => .none
  | .fcount | .keysort | .window | .tbuild | .cgen | .hdrw | .tabw | .pack | .flush => .encode
  | .hdrr | .tabr | .walk => .decode

/-- The table size that TBUILD is entered with: WINDOW or TABR has put it in 2..256 (R160); where none has run, 2. -/
def enteredSize (p : Phase) (n : Half) : Half := if p = .tbuild ∧ (n.toNat < 2 ∨ 256 < n.toNat) then 2 else n

/-- The block in the middle of a command, about to run phase p (log entry 17). -/
def State.enterPhase (s : State) (p : Phase) : State :=
  { s with tsize := enteredSize p s.tsize, phase := p, busy := true, done := false, err := .none, cmdreg := commandOf p, wait := none, host := [] }

/-- A CTRL value on the host's agenda, or a phase in PHASE (log entries 16 and 17). -/
def State.placeWord (s : State) (e : Encoded) : State :=
  match e with
  | .ctrl v => { s with host := [.csrWrite 0 v] }
  | .phase p =>
    match decodePhase p with
    | .error _ => { s with host := [] }
    | .ok i =>
      match i.phase? with
      | none => { s with host := [] }
      | some .idle => { s with phase := .idle, busy := false, wait := none, host := [] }
      | some ph => s.enterPhase ph

end Sys2Proof.Machine
end

