-- ==== Sys2Proof/Machine/Step.lean ====
section
/-!
DEFINITION. One step of the machine: the host's next action, or the sequencer's phase (log entries 1 and 4).
-/

namespace Sys2Proof.Machine

/-- The host's next action if it has one, otherwise the sequencer. -/
def step (s : State) : Host.Outcome State Fault Refusal :=
  match s.host with
  | [] => runSequencer s
  | a :: rest => runHost a { s with host := rest }

/-- s with an opcode-table word placed where the next step takes its instruction from (log entries 16 and 17). -/
def State.withFetchWord (s : State) (nbits w : Nat) : State := s.placeWord (tableWord nbits w)

end Sys2Proof.Machine
end

