-- ==== Sys2Proof/Machine/Whole.lean ====
section
/-!
DEFINITION. What a whole command computes: the functions Encode and Decode of spec/40_commands.md R139 and R140 over a tree, the
codes of a tree (spec/30_encoding.md R96 to R99) and the bits of a payload. No phase uses them: the phases work on the registers
and memories, and statements say that the two agree.
-/

namespace Sys2Proof.Machine

/-! ### Trees and codes -/

/-- A strict binary tree of weights and byte values (R25, R171). -/
inductive HTree where
  | leaf (weight : Word) (value : Byte)
  | node (weight : Word) (left right : HTree)
  deriving DecidableEq, Repr, Inhabited

/-- The weight of the root (R162). -/
def HTree.weight : HTree → Word
  | .leaf w _ => w
  | .node w _ _ => w

/-- The number of leaves. -/
def HTree.leaves : HTree → Nat
  | .leaf _ _ => 1
  | .node _ l r => l.leaves + r.leaves

/-- The byte values of the leaves, left to right. -/
def HTree.values : HTree → List Byte
  | .leaf _ v => [v]
  | .node _ l r => l.values ++ r.values

/-- The greatest number of edges from the root to a leaf (R171). -/
def HTree.depth : HTree → Nat
  | .leaf _ _ => 0
  | .node _ l r => max l.depth r.depth + 1

/-- The code of a byte value: the path from the root, 0 = left, 1 = right (R12, R99). Of two leaves with one value the rightmost
counts, the one CGEN visits last (R182). -/
def HTree.path : HTree → Byte → Option (List Bool)
  | .leaf _ v, b => if v = b then some [] else none
  | .node _ l r, b =>
    match r.path b with
    | some p => some (true :: p)
    | none => (l.path b).map (false :: ·)

/-- The tree without its byte values: its shape and weights (R167). -/
def HTree.shape : HTree → HTree
  | .leaf w _ => .leaf w 0
  | .node w l r => .node w l.shape r.shape

/-- A leaf for each composite unit (R162). -/
def leafOf (u : Word) : HTree := .leaf (unitFreq u) (unitValue u)

/-- The place of a merged tree: past every tree of strictly less weight, before the first that is not (R165). -/
def insertTree (t : HTree) : List HTree → List HTree
  | [] => [t]
  | u :: us => if u.weight.toNat < t.weight.toNat then u :: insertTree t us else t :: u :: us

/-- Merge the two trees in front, the first as left child, and put the result in its place; so many times (R161, R164). -/
def mergeTrees : Nat → List HTree → List HTree
  | n + 1, a :: b :: rest => mergeTrees n (insertTree (.node (a.weight + b.weight) a b) rest)
  | _, ts => ts

/-- Tree(T) (R139, R140): the last tree left (R161 step 3). None for an empty table. -/
def treeOf (table : List Word) : Option HTree := (mergeTrees (table.length - 1) (table.map leafOf)).head?

/-! ### Payload bits -/

/-- The bits of bytes, most significant first (R68, R96). -/
def bitsOf (bs : List Byte) : List Bool := bs.flatMap fun b => (List.range 8).map fun q => b.getLsbD (7 - q)

/-- The byte whose bit 7 - q is the q-th of these (at most 8) bits, zeros below them (R96, R97). -/
def byteOf (bits : List Bool) : Byte :=
  (List.range 8).foldl (fun a q => a ||| ((if bits.getD q false then (1 : Byte) else 0) <<< (7 - q))) 0

/-- Payload byte p: bits 8p to 8p + 7 (R96). -/
def payloadByte (bits : List Bool) (p : Nat) : Byte := byteOf (bits.drop (8 * p))

/-- The whole bytes of a bit string (R202). -/
def packWhole (bits : List Bool) : List Byte := (List.range (bits.length / 8)).map (payloadByte bits)

/-- PackMSB (R139): ceil(B / 8) bytes, the last one padded with zeros (R96, R97). -/
def packBits (bits : List Bool) : List Byte := (List.range ((bits.length + 7) / 8)).map (payloadByte bits)

/-- The bits of a CODE entry, first bit first (R27, R181). -/
def codeBits (c : CodeEntry) : List Bool := (List.range c.len.toNat).map fun q => pathBit c.pos (c.len.toNat - 1 - q)

/-! ### Encode -/

/-- K: the 256 composite units of S, ascending (R139). -/
def encodeKeys (input : List Byte) : List Word :=
  sortUnits (List.ofFn fun b : Fin 256 => unitOf (BitVec.ofNat 64 (input.count (BitVec.ofFin b))) (BitVec.ofFin b))

/-- ws = min(z, 254), z the number of byte values that do not occur (R139). -/
def encodeStart (input : List Byte) : Nat :=
  min ((List.finRange 256).countP fun b => decide (input.count (BitVec.ofFin b) = 0)) 254

/-- T = K[ws .. 255] (R139). -/
def encodeTable (input : List Byte) : List Word := (encodeKeys input).drop (encodeStart input)

/-- The code bits of S under a tree, in input order (R96). -/
def payloadBits (t : HTree) (input : List Byte) : List Bool := input.flatMap fun b => (t.path b).getD []

/-- Encode(S) (R139). -/
def encodeFn (input : List Byte) : List Byte :=
  let table := encodeTable input
  magic ++ le64 (BitVec.ofNat 64 input.length) ++ le32 (BitVec.ofNat 32 table.length) ++ table.flatMap le64
    ++ packBits (payloadBits ((treeOf table).getD (.leaf 0 0)) input)

/-! ### Decode -/

/-- The child that a bit leads to (R226). -/
def HTree.child : HTree → Bool → Option HTree
  | .leaf _ _, _ => none
  | .node _ l r, b => some (if b = true then r else l)

/-- What a walk over payload bits gives: the bytes emitted, the bits consumed, and whether all the wanted symbols came out. -/
structure Walked where
  out : List Byte
  used : Nat
  finished : Bool
  deriving DecidableEq, Repr

/-- Walk from `cur`, `need` symbols still wanted (R140, R226). -/
def walkTree (root : HTree) : HTree → Nat → List Bool → Walked
  | _, 0, _ => ⟨[], 0, true⟩
  | _, _ + 1, [] => ⟨[], 0, false⟩
  | cur, need + 1, b :: bs =>
    match cur.child b with
    | none => ⟨[], 0, false⟩
    | some (.leaf _ v) =>
      let r := walkTree root root need bs
      ⟨v :: r.out, r.used + 1, r.finished⟩
    | some (.node w x y) =>
      let r := walkTree root (.node w x y) (need + 1) bs
      ⟨r.out, r.used + 1, r.finished⟩

/-- The result of Decode(C): an error with the bytes already written, or the output and the number of bytes consumed (R140). -/
inductive Decoded where
  | failed (e : ErrKind) (out : List Byte)
  | finished (out : List Byte) (consumed : Nat)
  deriving DecidableEq, Repr

/-- T[k] = U64LE(C[20+8k .. 27+8k]) (R140). -/
def containerTable (c : List Byte) (n : Nat) : List Word := (List.range n).map fun k => u64le ((c.drop (20 + 8 * k)).take 8)

/-- Decode(C) (R140). -/
def decodeFn (c : List Byte) : Decoded :=
  if c.length < 20 then .failed .format []
  else if c.take 8 ≠ magic then .failed .format []
  else
    let fs := (u64le ((c.drop 8).take 8)).toNat
    let n := (u32le ((c.drop 16).take 4)).toNat
    if n < 2 ∨ 256 < n then .failed .format []
    else if c.length < 20 + 8 * n then .failed .format []
    else
      let t := (treeOf (containerTable c n)).getD (.leaf 0 0)
      let w := walkTree t t fs (bitsOf (c.drop (20 + 8 * n)))
      if w.finished = true then .finished w.out (20 + 8 * n + (w.used + 7) / 8) else .failed .truncated w.out

end Sys2Proof.Machine
end

