-- ==== Sys2Proof/Safety.lean ====
section
/-!
DEFINITION. The terms in which statements speak of runs: streams that answer, the tree a NODE memory holds, the invariant that
every step keeps, and the outcomes of a command (spec/40_commands.md R144).
-/

namespace Sys2Proof.Machine

/-- The stream performs every primitive (the fairness premise of R302, and no failure). -/
def AllOk (answers : List Answer) : Prop := ∀ a ∈ answers, a = .ok

/-- The block is not hanging, both streams perform every primitive, and the input cursor is one R41 allows. -/
def State.Answered (s : State) : Prop :=
  s.wait = none ∧ AllOk s.input.answers ∧ AllOk s.output.answers ∧ s.input.pos ≤ s.input.data.length

/-- The NODE memory holds this tree at this index (R25, R171). -/
def Represents (node : Vector Node 511) : NodeIx → HTree → Prop
  | k, .leaf w v => node[k] = .leaf w v
  | k, .node w l r => ∃ a b, node[k] = .internal w a b ∧ Represents node a l ∧ Represents node b r

/-- The CODE memory holds the codes of the tree: valid exactly at its leaves' values, the path as bits (R183, R181). -/
def HoldsCodes (code : Vector CodeEntry 256) (t : HTree) : Prop :=
  ∀ b : Byte, match t.path b with
    | some p => (code[b.toNat]).valid = true ∧ (code[b.toNat]).len.toNat = p.length ∧ codeBits code[b.toNat] = p ∧
        (code[b.toNat]).pos.toNat < 2 ^ p.length
    | none => (code[b.toNat]).valid = false

/-- The phases in which TSIZE has been checked or computed and is still to be used (R30, R160). -/
def hasTable : Phase → Bool
  | .tbuild | .cgen | .hdrw | .tabw | .walk => true
  | .idle | .fcount | .keysort | .window | .pack | .flush | .hdrr | .tabr => false

/-- The phases that read the tree (R25). -/
def hasTree : Phase → Bool
  | .cgen | .hdrw | .walk => true
  | .idle | .fcount | .keysort | .window | .tbuild | .tabw | .pack | .flush | .hdrr | .tabr => false

/-- What holds after reset and is kept by every step. -/
structure Inv (s : State) : Prop where
  /-- R134. -/
  busy_iff : s.busy = true ↔ s.phase ≠ .idle
  /-- R33: "at most one of BUSY, DONE, (ERR ≠ 0) holds at any time". -/
  done_alone : s.done = true → s.busy = false ∧ s.err = .none
  err_alone : s.err ≠ .none → s.busy = false ∧ s.done = false
  /-- R255. -/
  err_kind : s.err ≠ .allocation
  /-- R135: the command whose phase is running. -/
  command : s.phase ≠ .idle → s.phase ≠ .tbuild → s.cmdreg = commandOf s.phase
  command_tbuild : s.phase = .tbuild → s.cmdreg ≠ .none
  /-- R41. -/
  cursor : s.input.pos ≤ s.input.data.length
  /-- R302: only a busy block waits for a stream. -/
  waiting : s.wait ≠ none → s.busy = true
  /-- R160: "the callers meet 2 ≤ n ≤ 256 always". -/
  table : hasTable s.phase = true → 2 ≤ s.tsize.toNat ∧ s.tsize.toNat ≤ 256
  /-- R171: "a strict binary tree with `size` leaves". -/
  tree : hasTree s.phase = true → ∃ t, Represents s.node s.root t ∧ t.leaves = s.tsize.toNat
  /-- R202: the free bits of ACC are 0 when PACK has ended. -/
  padded : s.phase = .flush → s.wait = none → ∀ k, k + s.nbits.toNat < 8 → s.acc.getLsbD k = false

/-- k steps of the machine. -/
def steps (k : Nat) (s : State) : Host.Outcome State Fault Refusal := Host.Core.run Sys2Proof.core k s

/-- A completed command (R144 (a)). -/
def State.Completed (s : State) : Prop := s.busy = false ∧ s.done = true ∧ s.err = .none ∧ s.phase = .idle

/-- A failed command (R144 (b)). -/
def State.Failed (s : State) (e : ErrKind) : Prop := s.busy = false ∧ s.done = false ∧ s.err = e ∧ s.phase = .idle

/-- The bytes that were read in a piece of the trace, oldest first. -/
def readsIn (trace : List Transfer) : List Byte :=
  trace.reverse.filterMap fun
    | .read b => some b
    | .atEnd _ | .rewound | .wrote _ | .failed _ => none

/-- The bytes that were written in a piece of the trace, oldest first. -/
def writesIn (trace : List Transfer) : List Byte :=
  trace.reverse.filterMap fun
    | .wrote b => some b
    | .atEnd _ | .rewound | .read _ | .failed _ => none

/-- The trace of reading these bytes, each after a test that the input has not ended (R62), latest first. -/
def readTrace (bs : List Byte) : List Transfer := bs.reverse.flatMap fun b => [.read b, .atEnd false]

/-- The table of R135: the phase that follows when a phase completes and the command goes on. -/
def follows : Phase → CmdReg → Option Phase
  | .fcount, _ => some .keysort
  | .keysort, _ => some .window
  | .window, _ => some .tbuild
  | .tbuild, .encode => some .cgen
  | .tbuild, .decode => some .walk
  | .tbuild, .none => none
  | .cgen, _ => some .hdrw
  | .hdrw, _ => some .tabw
  | .tabw, _ => some .pack
  | .pack, _ => some .flush
  | .hdrr, _ => some .tabr
  | .tabr, _ => some .tbuild
  | .idle, _ => none
  | .flush, _ => none
  | .walk, _ => none

/-- The column "raised by" of R251: which errors a phase can raise. -/
def canRaise : Phase → ErrKind → Bool
  | .fcount, .io | .hdrw, .io | .tabw, .io | .pack, .io | .flush, .io | .hdrr, .io | .tabr, .io | .walk, .io => true
  | .hdrr, .format | .tabr, .format => true
  | .walk, .truncated => true
  | _, _ => false

/-- The last phase of ENCODE and of DECODE (R135, R144). -/
def isLast (p : Phase) : Bool := decide (p = .flush ∨ p = .walk)

end Sys2Proof.Machine
end

