-- ==== Sys2Proof/Certificates/Slice0/Obligations.lean ====
section
/-!
DEFINITION. The statements for the provers. Each docstring says which sentence of the spec it formalises; basis and citations
stand in OBLIGATIONS.json. No statement rests on the model's counter `fresh` or on a free value.
-/

open Sys2Proof Sys2Proof.Machine

/-! ### Reset, commands, the host (spec/40_commands.md, spec/70_reset_and_hazards.md) -/

/-- R290, R291: rst gives the listed values whatever the block was doing; bytes already written stay and the streams are not
reset. -/
def Obligations.ResetPutsTheListedState : Prop :=
  (∀ (s : State) (rest : List HostAct), s.host = .rst :: rest →
    ∃ t, step s = .next t ∧ t.phase = .idle ∧ t.busy = false ∧ t.done = false ∧ t.err = .none ∧ t.cmdreg = .none ∧
      t.fsize = 0 ∧ t.tsize = 0 ∧ t.symcnt = 0 ∧ t.acc = 0 ∧ t.nbits = 0 ∧ t.cache = 0 ∧ t.cbits = 0 ∧
      t.ports.inReady = false ∧ t.ports.inRewind = false ∧ t.ports.outValid = false ∧
      t.input = s.input ∧ t.output = s.output ∧ t.host = rest) ∧
  (State.reset.phase = .idle ∧ State.reset.status = 0 ∧ (∀ n, State.reset.csr n = 0) ∧ State.reset.acc = 0 ∧
    State.reset.nbits = 0 ∧ State.reset.cache = 0 ∧ State.reset.cbits = 0)

/-- The invariant holds right after reset. -/
def Obligations.ResetSatisfiesInvariant : Prop := Inv State.reset

/-- R130: a NOP changes nothing, idle or busy, and does not clear DONE or ERR. -/
def Obligations.NopChangesNothing : Prop :=
  (∀ s : State, exec .nop s = .next s) ∧
  (∀ (s : State) (v : Word) (rest : List HostAct), s.host = .csrWrite 0 v :: rest → v.extractLsb' 0 2 = 0#2 →
    step s = .next { s with host := rest })

/-- R109's hardware effect, which the model takes (log entry 8): OP = 11 changes no state and raises no error. -/
def Obligations.ReservedCommandChangesNothing : Prop :=
  (∀ s : State, exec .reservedOp3 s = .next s) ∧
  (∀ (s : State) (v : Word) (rest : List HostAct), s.host = .csrWrite 0 v :: rest → v.extractLsb' 0 2 = 3#2 →
    step s = .next { s with host := rest })

/-- R134: in IDLE the block performs no stream primitive and changes no state; BUSY = 0 if and only if PHASE = IDLE. -/
def Obligations.IdleChangesNothing : Prop :=
  (∀ s : State, exec .idle s = .next s) ∧
  (∀ s : State, s.phase = .idle → s.host = [] → step s = .next s) ∧
  (∀ s : State, Inv s → (s.busy = false ↔ s.phase = .idle))

/-- R133: accepted if and only if BUSY = 0; ignored, not queued, no error while BUSY = 1, and then no CTRL write aborts the
command; acceptance clears DONE and ERR. -/
def Obligations.CommandAcceptedIffNotBusy : Prop :=
  (∀ s : State, s.busy = true → exec .encode s = .next s ∧ exec .decode s = .next s ∧
    ∀ v : Word, exec (decodeCtrl v) s = .next s) ∧
  (∀ s : State, s.busy = false →
    exec .encode s = .next { s with cmdreg := .encode, busy := true, done := false, err := .none, phase := .fcount } ∧
    exec .decode s = .next { s with cmdreg := .decode, busy := true, done := false, err := .none, phase := .hdrr }) ∧
  (∀ (s : State) (v : Word) (rest : List HostAct), s.host = .csrWrite 0 v :: rest →
    (v.extractLsb' 0 2 = 1#2 → step s = exec .encode { s with host := rest }) ∧
    (v.extractLsb' 0 2 = 2#2 → step s = exec .decode { s with host := rest }))

/-- What a step runs: the instruction PHASE decodes to, or the command the host's CTRL write decodes to. -/
def Obligations.StepRunsTheDecodedInstruction : Prop :=
  (∀ (s : State) (i : Instr), s.host = [] → decodeWord (.phase s.phase.code) = .ok i → step s = exec i s) ∧
  (∀ (s : State) (i : Instr) (rest : List HostAct), s.host = .quiet :: rest →
    decodeWord (.phase s.phase.code) = .ok i → step s = exec i { s with host := rest }) ∧
  (∀ (s : State) (i : Instr) (v : Word) (rest : List HostAct), s.host = .csrWrite 0 v :: rest →
    decodeWord (.ctrl v) = .ok i → step s = exec i { s with host := rest }) ∧
  (∀ s : State, decodeWord (.phase s.phase.code) = .ok s.phase.instr)

/-- Words written out from R108, R110 and vector V35. -/
def Obligations.SpecWordsDecode : Prop :=
  decodeWord (.ctrl 0b00) = .ok .nop ∧ decodeWord (.ctrl 0b01) = .ok .encode ∧ decodeWord (.ctrl 0b10) = .ok .decode ∧
  decodeWord (.ctrl 0xFFFFFFFFFFFFFFFD) = .ok .encode ∧ decodeWord (.phase 0b0000) = .ok .idle ∧
  decodeWord (.phase 0b0001) = .ok .fcount ∧ decodeWord (.phase 0b0100) = .ok .tbuild ∧
  decodeWord (.phase 0b0101) = .ok .cgen ∧ decodeWord (.phase 0b1000) = .ok .pack ∧ decodeWord (.phase 0b1100) = .ok .walk

/-- R108, R110, R113: a word decodes to an instruction exactly if it is an encoding of it, whatever the ignored bits hold. -/
def Obligations.DecodeInvertsEncode : Prop :=
  ∀ (e : Encoded) (i : Instr), decodeWord e = .ok i ↔ ∃ ignored, encodeWith ignored i = e

/-- R111: codes 13 to 15 are rejected, PHASE never reads them, and no CTRL write issues a phase. -/
def Obligations.ReservedPhasesNeverAppear : Prop :=
  (∀ p : BitVec 4, decodeWord (.phase p) = .error (.reservedPhase p) ↔ 13 ≤ p.toNat) ∧
  (∀ s : State, (s.status.extractLsb' 8 4).toNat ≤ 12) ∧
  (∀ (v : Word) (i : Instr), decodeWord (.ctrl v) = .ok i → i.issuer = .host)

/-- R36: the fields of STATUS, its value after reset, and that writes of it are ignored. -/
def Obligations.StatusFields : Prop :=
  State.reset.csr 1 = 0 ∧ ∀ s : State,
    s.csr 1 = s.status ∧ s.status.getLsbD 0 = s.busy ∧ s.status.getLsbD 1 = s.done ∧
    s.status.extractLsb' 2 3 = s.err.code ∧ s.status.extractLsb' 5 3 = 0 ∧ s.status.extractLsb' 8 4 = s.phase.code ∧
    s.status.extractLsb' 12 2 = s.cmdreg.code ∧ s.status.extractLsb' 14 50 = 0 ∧
    (∀ (v : Word) (rest : List HostAct), s.host = .csrWrite 1 v :: rest → step s = .next { s with host := rest })

/-- R34, R35, R37, R38: a CSR read changes nothing but the host's own log; CTRL and absent CSRs read 0, STATUS is exact at any
time, the data CSRs are exact while BUSY = 0; writes of any CSR but CTRL are ignored. -/
def Obligations.CsrAccess : Prop :=
  (∀ (s : State) (n : Nat) (rest : List HostAct), s.host = .csrRead n :: rest →
    ∃ t v, step s = .next t ∧ t = { s with host := rest, reads := (n, v) :: s.reads, fresh := t.fresh } ∧
      (n = 0 ∨ 5 ≤ n → v = 0) ∧ (n = 1 → v = s.status) ∧
      (s.busy = false → n = 2 → v = s.fsize) ∧
      (s.busy = false → n = 3 → v.toNat = s.tsize.toNat) ∧
      (s.busy = false → n = 4 → v = s.symcnt)) ∧
  (∀ (s : State) (n : Nat) (v : Word) (rest : List HostAct), s.host = .csrWrite n v :: rest → n ≠ 0 →
    step s = .next { s with host := rest })

/-- R146, R65, R66: while BUSY = 1 the model gives no meaning to a host that moves a stream; while BUSY = 0 it may. -/
def Obligations.StreamsMoveOnlyWhileIdle : Prop :=
  ∀ (s : State) (rest : List HostAct) (data : List Byte) (passes : List (List Byte)) (answers : List Answer) (pos : Nat),
    (s.busy = true →
      (s.host = .connectIn data passes answers :: rest → step s = .refused .streamMovedWhileBusy) ∧
      (s.host = .connectOut answers :: rest → step s = .refused .streamMovedWhileBusy) ∧
      (s.host = .seekIn pos :: rest → step s = .refused .streamMovedWhileBusy)) ∧
    (s.busy = false →
      (s.host = .connectIn data passes answers :: rest →
        step s = .next { s with host := rest, input := ⟨data, 0, passes, answers⟩ }) ∧
      (s.host = .connectOut answers :: rest → step s = .next { s with host := rest, output := ⟨[], answers⟩ }) ∧
      (s.host = .seekIn pos :: rest → pos ≤ s.input.data.length →
        step s = .next { s with host := rest, input := { s.input with pos := pos } }))

/-! ### Streams and errors (spec/20_memory.md, spec/60_exceptions.md) -/

/-- R62: InReadN(n) gives the next n bytes, fewer exactly when the stream ends early, each read after a test of InAtEnd. -/
def Obligations.ReadNStopsShortAtTheEnd : Prop :=
  ∀ (n : Nat) (s : State), AllOk s.input.answers → s.input.pos ≤ s.input.data.length →
    (n ≤ s.unread.length → inReadN n s = .ok (s.unread.take n) { s with
      input := { s.input with pos := s.input.pos + n, answers := s.input.answers.drop (2 * n) }
      trace := readTrace (s.unread.take n) ++ s.trace }) ∧
    (s.unread.length < n → inReadN n s = .ok s.unread { s with
      input := { s.input with pos := s.input.data.length, answers := s.input.answers.drop (2 * s.unread.length + 1) }
      trace := .atEnd true :: (readTrace s.unread ++ s.trace) })

/-- R252: what a failing stream does to a primitive, and PACK's byte without a code; the failed primitive has no other effect. -/
def Obligations.FailedPrimitiveRaisesIoError : Prop :=
  (∀ (s : State) (rest : List Answer), s.input.answers = .err :: rest →
    let f (p : Prim) : State := raiseError .io
      { s with input := { s.input with answers := rest }, trace := .failed p :: s.trace }
    inAtEnd s = .halt (f .inAtEnd) ∧ inRead s = .halt (f .inRead) ∧ inRewind s = .halt (f .inRewind)) ∧
  (∀ (s : State) (rest : List Answer) (b : Byte), s.output.answers = .err :: rest →
    outWrite b s = .halt (raiseError .io
      { s with output := { s.output with answers := rest }, trace := .failed (.outWrite b) :: s.trace }))

/-- R256: the single step of a raise; nothing else is saved, what the host can read stays as the phase left it, and nothing that
the pseudocode places after the raise is performed. -/
def Obligations.RaiseIsOneStep : Prop :=
  (∀ (α β : Type) (e : ErrKind) (s : State) (after : α → State → Run β),
    (Run.raise e s : Run α).bind after = .halt (raiseError e s)) ∧
  ∀ (e : ErrKind) (s : State),
    let t := raiseError e s
    t.err = e ∧ t.busy = false ∧ t.done = false ∧ t.phase = .idle ∧ t.cmdreg = s.cmdreg ∧ t.fsize = s.fsize ∧
    t.tsize = s.tsize ∧ t.symcnt = s.symcnt ∧ t.input = s.input ∧ t.output = s.output ∧ t.host = s.host ∧
    t.wait = s.wait ∧ t.trace = s.trace ∧ t.reads = s.reads

/-- R302: a primitive that is never answered stops the phase where it stands, and then the block hangs with BUSY unchanged. That
the primitive is not performed and its answer leaves the script is the model's choice, log entry 31. -/
def Obligations.UnansweredPrimitiveHangs : Prop :=
  (∀ (s : State) (rest : List Answer), s.input.answers = .never :: rest →
    let f (p : Prim) : State := { s with input := { s.input with answers := rest }, wait := some p }
    inAtEnd s = .halt (f .inAtEnd) ∧ inRead s = .halt (f .inRead) ∧ inRewind s = .halt (f .inRewind)) ∧
  (∀ (s : State) (rest : List Answer) (b : Byte), s.output.answers = .never :: rest →
    outWrite b s = .halt { s with output := { s.output with answers := rest }, wait := some (.outWrite b) }) ∧
  (∀ (s : State) (p : Prim), s.wait = some p → s.host = [] → step s = .next s)

/-! ### ENCODE's phases (spec/41 to 44) -/

/-- R150: FREQ is the count of every byte value in the unread input, which is then rewound. -/
def Obligations.FcountCountsAndRewinds : Prop :=
  ∀ s : State, s.wait = none → AllOk s.input.answers → s.input.pos ≤ s.input.data.length →
    exec .fcount s = .next { s with
      phase := .keysort
      freq := tabulate 256 fun b => BitVec.ofNat 64 (s.unread.count (BitVec.ofFin b))
      input :=
        { data := s.input.passes.headD s.input.data, pos := 0, passes := s.input.passes.tail,
          answers := s.input.answers.drop (2 * s.unread.length + 2) }
      trace := .rewound :: .atEnd true :: (readTrace s.unread ++ s.trace) }

/-- R190, R191: KEY becomes the 256 composite units in ascending order, the one list that is so. -/
def Obligations.KeysortSortsTheUnits : Prop :=
  decodeWord (.phase 0b0010) = .ok .keysort ∧ ∀ s : State, s.wait = none → tooLong s = false →
    ∃ key : Vector Word 256, exec .keysort s = .next { s with phase := .window, key := key } ∧
      key.toList.Perm (List.ofFn fun b : Fin 256 => unitOf s.freq[b] (BitVec.ofFin b)) ∧
      key.toList.Pairwise (fun u v => u.toNat < v.toNat) ∧
      (∀ other : List Word, other.Perm key.toList → other.Pairwise (fun u v => u.toNat ≤ v.toNat) → other = key.toList)

/-- The model's refusal (log entry 7): beyond 2^56 bytes KEYSORT is unspecified (R152, U1); within, it is not refused. -/
def Obligations.KeysortRefusesLongInput : Prop :=
  (∀ s : State, s.wait = none → 2 ^ 56 ≤ s.input.data.length → exec .keysort s = .refused .inputTooLong) ∧
  (∀ s : State, s.wait = none → s.input.data.length < 2 ^ 56 →
    (∀ b : Fin 256, s.freq[b] = BitVec.ofNat 64 (s.input.data.count (BitVec.ofFin b))) → ∃ t, exec .keysort s = .next t)

/-- R192: z leading zero-frequency entries are skipped, never beyond 254; the window is the rest of KEY; the other entries of
TAB stay. -/
def Obligations.WindowSkipsZerosAndClamps : Prop :=
  decodeWord (.phase 0b0011) = .ok .window ∧ ∀ s : State, s.wait = none →
    ∃ (t : State) (z : Nat), exec .window s = .next t ∧ z ≤ 256 ∧
      (∀ k : Fin 256, k.val < z → unitFreq s.key[k] = 0) ∧
      (∀ k : Fin 256, k.val = z → unitFreq s.key[k] ≠ 0) ∧
      t.wstart.val = min z 254 ∧ t.tsize.toNat = 256 - min z 254 ∧ 2 ≤ t.tsize.toNat ∧ t.tsize.toNat ≤ 256 ∧
      t.tab.toList = s.key.toList.drop (min z 254) ++ s.tab.toList.drop (256 - min z 254) ∧
      t = { s with phase := .tbuild, wstart := t.wstart, tsize := t.tsize, tab := t.tab }

/-- R161: TBUILD builds the tree of the greedy merge, of any table of 2 to 256 entries (R168); what it does not write stays. -/
def Obligations.TbuildBuildsTheMergeTree : Prop :=
  ∀ s : State, s.wait = none → 2 ≤ s.tsize.toNat → s.tsize.toNat ≤ 256 →
    ∃ (t : State) (tree : HTree), exec .tbuild s = .next t ∧
      treeOf (s.tab.toList.take s.tsize.toNat) = some tree ∧ Represents t.node t.root tree ∧
      tree.leaves = s.tsize.toNat ∧
      t.phase = (if s.cmdreg = .encode then .cgen else .walk) ∧
      (∀ k : NodeIx, 2 * s.tsize.toNat - 1 ≤ k.val → t.node[k] = s.node[k]) ∧
      (∀ k : Fin 256, s.tsize.toNat ≤ k.val → t.seq[k] = s.seq[k]) ∧
      t = { s with phase := t.phase, node := t.node, seq := t.seq, root := t.root, i := t.i, j := t.j, m := t.m }

/-- The arena's pattern (R163, with the inference the spec marks there): leaves first, merges after them, the root last. -/
def Obligations.TbuildFillsTheArenaInOrder : Prop :=
  ∀ s t : State, s.wait = none → 2 ≤ s.tsize.toNat → s.tsize.toNat ≤ 256 → exec .tbuild s = .next t →
    t.root.val = 2 * s.tsize.toNat - 2 ∧
    (∀ k : Fin 256, k.val < s.tsize.toNat →
      t.node[nodeIx k.val] = .leaf (unitFreq s.tab[k]) (unitValue s.tab[k])) ∧
    (∀ k : NodeIx, s.tsize.toNat ≤ k.val → k.val ≤ 2 * s.tsize.toNat - 2 →
      ∃ a b : NodeIx, a.val < k.val ∧ b.val < k.val ∧
        t.node[k] = .internal (t.node[a].weight + t.node[b].weight) a b)

/-- R166, R170: the root's weight is the sum of the table's frequencies, without wrap-around. -/
def Obligations.RootWeightIsTheSum : Prop :=
  ∀ (table : List Word) (tree : HTree), table.length ≤ 256 → treeOf table = some tree →
    tree.weight.toNat = (table.map fun u => (unitFreq u).toNat).sum

/-- R166: on a table sorted by frequency every merge takes two least trees and the sequence stays sorted. -/
def Obligations.MergingKeepsTheSequenceSorted : Prop :=
  ∀ (a b : HTree) (rest : List HTree),
    ((a :: b :: rest).map fun t => t.weight.toNat).sum < 2 ^ 64 →
    (a :: b :: rest).Pairwise (fun t u => t.weight.toNat ≤ u.weight.toNat) →
    let m := HTree.node (a.weight + b.weight) a b
    (insertTree m rest).Pairwise (fun t u => t.weight.toNat ≤ u.weight.toNat) ∧
    (insertTree m rest).Perm (m :: rest) ∧
    (∀ u ∈ rest, a.weight.toNat ≤ u.weight.toNat ∧ b.weight.toNat ≤ u.weight.toNat) ∧
    (∃ before after, insertTree m rest = before ++ m :: after ∧
      (∀ u ∈ before, u.weight.toNat < m.weight.toNat) ∧ (∀ u ∈ after, m.weight.toNat ≤ u.weight.toNat))

/-- R167: two tables with the same frequency fields give trees of the same shape. -/
def Obligations.ShapeDependsOnFrequenciesOnly : Prop :=
  ∀ (t1 t2 : List Word) (a b : HTree), t1.map unitFreq = t2.map unitFreq → treeOf t1 = some a → treeOf t2 = some b →
    a.shape = b.shape

/-- R180: CGEN gives every leaf's byte value its path as code, every other byte value none; what it does not write stays. -/
def Obligations.CgenAssignsThePaths : Prop :=
  decodeWord (.phase 0b0101) = .ok .cgen ∧ ∀ (s : State) (tree : HTree), s.wait = none → Represents s.node s.root tree → tree.leaves ≤ 256 →
    ∃ t, exec .cgen s = .next t ∧ HoldsCodes t.code tree ∧ t.cgsp.val = 0 ∧
      t = { s with phase := .hdrw, code := t.code, cgstk := t.cgstk, cgsp := t.cgsp }

/-- R183, R184: exactly the leaves' values have a code, of length 1 to leaves - 1. -/
def Obligations.CodesAreTheLeavesAndBounded : Prop :=
  ∀ tree : HTree, 2 ≤ tree.leaves →
    (∀ b : Byte, (tree.path b).isSome = true ↔ b ∈ tree.values) ∧
    (∀ (b : Byte) (p : List Bool), tree.path b = some p → 1 ≤ p.length ∧ p.length ≤ tree.leaves - 1)

/-- R99: the codes of one tree are prefix-free. -/
def Obligations.CodesArePrefixFree : Prop :=
  ∀ (tree : HTree) (a b : Byte) (p q : List Bool), tree.path a = some p → tree.path b = some q → p <+: q → a = b

/-- R195: the header HDRW writes, and FSIZE; when the output fails at the k-th byte, the k bytes before it stay written. -/
def Obligations.HdrwWritesTheHeader : Prop :=
  decodeWord (.phase 0b0110) = .ok .hdrw ∧ ∀ s : State, s.wait = none →
    let w := s.node[s.root].weight
    let header : List Byte := [0x48, 0x55, 0x46, 0x46, 0x4D, 0x41, 0x4E, 0x00] ++ le64 w ++ le32 s.tsize
    (AllOk s.output.answers → exec .hdrw s = .next { s with
      phase := .tabw
      fsize := w
      output := { data := s.output.data ++ header, answers := s.output.answers.drop 20 }
      trace := header.reverse.map .wrote ++ s.trace }) ∧
    (∀ (k : Nat) (rest : List Answer), k < 20 → s.output.answers = List.replicate k .ok ++ .err :: rest →
      ∃ t, exec .hdrw s = .next t ∧ t.Failed .io ∧ t.output.data = s.output.data ++ header.take k ∧ t.fsize = w ∧
        t.tsize = s.tsize ∧ t.symcnt = s.symcnt ∧ t.cmdreg = s.cmdreg ∧ t.input = s.input)

/-- R198: TABW writes LE64 of each of the TSIZE table entries, in order; when the output fails at the k-th byte, the k bytes
before it stay written. -/
def Obligations.TabwWritesTheTable : Prop :=
  decodeWord (.phase 0b0111) = .ok .tabw ∧ ∀ s : State, s.wait = none → s.tsize.toNat ≤ 256 →
    let bytes := (s.tab.toList.take s.tsize.toNat).flatMap le64
    (AllOk s.output.answers → exec .tabw s = .next { s with
      phase := .pack
      output := { data := s.output.data ++ bytes, answers := s.output.answers.drop (8 * s.tsize.toNat) }
      trace := bytes.reverse.map .wrote ++ s.trace }) ∧
    (∀ (k : Nat) (rest : List Answer), k < 8 * s.tsize.toNat → s.output.answers = List.replicate k .ok ++ .err :: rest →
      ∃ t, exec .tabw s = .next t ∧ t.Failed .io ∧ t.output.data = s.output.data ++ bytes.take k ∧ t.fsize = s.fsize ∧
        t.tsize = s.tsize ∧ t.symcnt = s.symcnt ∧ t.cmdreg = s.cmdreg ∧ t.input = s.input)

/-- R200, R202: PACK writes the whole bytes of the code bits and keeps the rest in ACC and NBITS. -/
def Obligations.PackWritesTheCodeBits : Prop :=
  ∀ s : State, s.Answered → (∀ b ∈ s.unread, (s.code[b.toNat]).valid = true) →
    let bits := s.unread.flatMap fun b => codeBits s.code[b.toNat]
    ∃ events : List Transfer,
      exec .pack s = .next { s with
        phase := .flush
        acc := payloadByte bits (bits.length / 8)
        nbits := BitVec.ofNat 3 (bits.length % 8)
        symcnt := BitVec.ofNat 64 s.unread.length
        input :=
          { s.input with
            pos := s.input.data.length
            answers := s.input.answers.drop (2 * s.unread.length + 1) }
        output := { data := s.output.data ++ packWhole bits, answers := s.output.answers.drop (bits.length / 8) }
        trace := events ++ s.trace } ∧
      readsIn events = s.unread ∧ writesIn events = packWhole bits

/-- R201: the first byte without a code ends the command with IoError; the bytes before it have been packed. -/
def Obligations.PackRejectsAByteWithoutCode : Prop :=
  ∀ (s : State) (before after : List Byte) (b : Byte), s.Answered → s.unread = before ++ b :: after →
    (∀ x ∈ before, (s.code[x.toNat]).valid = true) → (s.code[b.toNat]).valid = false →
    let bits := before.flatMap fun x => codeBits s.code[x.toNat]
    ∃ t, exec .pack s = .next t ∧ t.Failed .io ∧ t.symcnt = BitVec.ofNat 64 before.length ∧
      t.output.data = s.output.data ++ packWhole bits ∧ t.input.pos = s.input.pos + before.length + 1 ∧
      t.fsize = s.fsize ∧ t.tsize = s.tsize ∧ t.cmdreg = s.cmdreg

/-- R203: FLUSH writes the last partial byte, if there is one, clears ACC and NBITS and completes ENCODE; a failing write raises
IoError. What ACC and NBITS are is said of the phase's own lines: the command has ended after them, and R44 leaves both
unspecified from there on. -/
def Obligations.FlushWritesTheLastByte : Prop :=
  decodeWord (.phase 0b1001) = .ok .flush ∧ ∀ s : State, s.wait = none →
    (s.nbits = 0 → flushBody s = .ok () s ∧
      ∃ t, exec .flush s = .next t ∧ t.phase = .idle ∧ t.busy = false ∧ t.done = true ∧ t.err = s.err ∧
        t.output = s.output ∧ t.input = s.input ∧ t.trace = s.trace ∧ t.fsize = s.fsize ∧ t.tsize = s.tsize ∧
        t.symcnt = s.symcnt ∧ t.cmdreg = s.cmdreg ∧ t.host = s.host) ∧
    (s.nbits ≠ 0 → AllOk s.output.answers →
      flushBody s = .ok () { s with
        acc := 0
        nbits := 0
        output := { data := s.output.data ++ [s.acc], answers := s.output.answers.drop 1 }
        trace := .wrote s.acc :: s.trace } ∧
      ∃ t, exec .flush s = .next t ∧ t.phase = .idle ∧ t.busy = false ∧ t.done = true ∧ t.err = s.err ∧
        t.output.data = s.output.data ++ [s.acc] ∧ t.input = s.input ∧ t.trace = .wrote s.acc :: s.trace ∧
        t.fsize = s.fsize ∧ t.tsize = s.tsize ∧ t.symcnt = s.symcnt ∧ t.cmdreg = s.cmdreg ∧ t.host = s.host) ∧
    (∀ rest, s.nbits ≠ 0 → s.output.answers = .err :: rest → ∃ t, exec .flush s = .next t ∧ t.Failed .io ∧
      t.output.data = s.output.data ∧ t.fsize = s.fsize ∧ t.tsize = s.tsize ∧ t.symcnt = s.symcnt)

/-! ### DECODE's phases (spec/45_decode.md) -/

/-- R220: a legal header. -/
def Obligations.HdrrReadsTheHeader : Prop :=
  ∀ s : State, s.wait = none → AllOk s.input.answers → s.input.pos ≤ s.input.data.length → 20 ≤ s.unread.length →
    s.unread.take 8 = [0x48, 0x55, 0x46, 0x46, 0x4D, 0x41, 0x4E, 0x00] →
    ∃ t, exec .hdrr s = .next t ∧ t.hbuf.toList = s.unread.take 20 ∧
      t = { s with
        phase := .tabr
        hbuf := t.hbuf
        fsize := u64le ((s.unread.drop 8).take 8)
        tsize := u32le ((s.unread.drop 16).take 4)
        input := { s.input with pos := s.input.pos + 20, answers := s.input.answers.drop 40 }
        trace := readTrace (s.unread.take 20) ++ s.trace }

/-- R221, R222: a short header or a wrong magic is a FormatError that leaves FSIZE, TSIZE and the output alone. -/
def Obligations.HdrrRejectsShortOrForeignHeaders : Prop :=
  ∀ s : State, s.wait = none → AllOk s.input.answers → s.input.pos ≤ s.input.data.length →
    (s.unread.length < 20 ∨ s.unread.take 8 ≠ [0x48, 0x55, 0x46, 0x46, 0x4D, 0x41, 0x4E, 0x00]) →
    ∃ t, exec .hdrr s = .next t ∧ t.Failed .format ∧ t.fsize = s.fsize ∧ t.tsize = s.tsize ∧ t.symcnt = s.symcnt ∧
      t.cmdreg = s.cmdreg ∧ t.output = s.output ∧ t.input.pos = s.input.pos + min 20 s.unread.length

/-- R223: a legal table. -/
def Obligations.TabrReadsTheTable : Prop :=
  ∀ s : State, s.wait = none → AllOk s.input.answers → s.input.pos ≤ s.input.data.length →
    2 ≤ s.tsize.toNat → s.tsize.toNat ≤ 256 → 8 * s.tsize.toNat ≤ s.unread.length →
    ∃ t, exec .tabr s = .next t ∧
      t.tab.toList =
        ((List.range s.tsize.toNat).map fun k => u64le ((s.unread.drop (8 * k)).take 8)) ++
          s.tab.toList.drop s.tsize.toNat ∧
      t = { s with
        phase := .tbuild
        tab := t.tab
        input :=
          { s.input with
            pos := s.input.pos + 8 * s.tsize.toNat
            answers := s.input.answers.drop (16 * s.tsize.toNat) }
        trace := readTrace (s.unread.take (8 * s.tsize.toNat)) ++ s.trace }

/-- R223, R224: a size out of 2..256, on all 32 bits, is a FormatError before any table byte is read; a short table is one after
the whole input has been read. -/
def Obligations.TabrRejectsBadSizeAndShortTable : Prop :=
  (∀ s : State, s.wait = none → (s.tsize.toNat < 2 ∨ 256 < s.tsize.toNat) →
    ∃ t, exec .tabr s = .next t ∧ t.Failed .format ∧ t.input = s.input ∧ t.output = s.output ∧ t.trace = s.trace ∧
      t.fsize = s.fsize ∧ t.tsize = s.tsize ∧ t.symcnt = s.symcnt ∧ t.cmdreg = s.cmdreg) ∧
  (∀ s : State, s.wait = none → AllOk s.input.answers → s.input.pos ≤ s.input.data.length →
    2 ≤ s.tsize.toNat → s.tsize.toNat ≤ 256 → s.unread.length < 8 * s.tsize.toNat →
    ∃ t, exec .tabr s = .next t ∧ t.Failed .format ∧ t.input.pos = s.input.data.length ∧ t.output = s.output ∧
      t.fsize = s.fsize ∧ t.tsize = s.tsize ∧ t.symcnt = s.symcnt ∧ t.cmdreg = s.cmdreg)

/-- R226, R229: WALK emits exactly FSIZE symbols of the tree walk and completes DECODE; only the payload bytes it needs are
read. -/
def Obligations.WalkEmitsTheSymbols : Prop :=
  ∀ (s : State) (tree : HTree), s.Answered → Represents s.node s.root tree → 2 ≤ tree.leaves →
    let w := walkTree tree tree s.fsize.toNat (bitsOf s.unread)
    w.finished = true →
    ∃ (t : State) (events : List Transfer), exec .walk s = .next t ∧ t.phase = .idle ∧ t.busy = false ∧ t.done = true ∧
      t.err = s.err ∧ t.output.data = s.output.data ++ w.out ∧ w.out.length = s.fsize.toNat ∧ t.symcnt = s.fsize ∧
      t.input.data = s.input.data ∧ t.input.pos = s.input.pos + (w.used + 7) / 8 ∧ t.fsize = s.fsize ∧
      t.tsize = s.tsize ∧ t.cmdreg = s.cmdreg ∧ t.host = s.host ∧ t.trace = events ++ s.trace ∧
      writesIn events = w.out ∧ readsIn events = s.unread.take ((w.used + 7) / 8)

/-- R228, R254: when the input ends first, the command fails with TruncatedPayload; the bytes emitted stay written and SYMCNT
counts them. -/
def Obligations.WalkReportsTruncation : Prop :=
  ∀ (s : State) (tree : HTree), s.Answered → Represents s.node s.root tree → 2 ≤ tree.leaves →
    let w := walkTree tree tree s.fsize.toNat (bitsOf s.unread)
    w.finished = false →
    ∃ t, exec .walk s = .next t ∧ t.Failed .truncated ∧ t.output.data = s.output.data ++ w.out ∧
      w.out.length < s.fsize.toNat ∧ t.symcnt = BitVec.ofNat 64 w.out.length ∧ t.input.pos = s.input.data.length ∧
      t.fsize = s.fsize ∧ t.tsize = s.tsize ∧ t.cmdreg = s.cmdreg

/-! ### Frames -/

/-- The phases without stream primitives leave both streams, the trace, the status and every register alone that their rules do
not name (R145). -/
def Obligations.SilentPhasesFrame : Prop :=
  ∀ s t : State,
    (exec .keysort s = .next t → t = { s with phase := t.phase, key := t.key }) ∧
    (exec .window s = .next t → t = { s with phase := t.phase, wstart := t.wstart, tsize := t.tsize, tab := t.tab }) ∧
    (exec .tbuild s = .next t →
      t = { s with phase := t.phase, node := t.node, seq := t.seq, root := t.root, i := t.i, j := t.j, m := t.m }) ∧
    (exec .cgen s = .next t → t = { s with phase := t.phase, code := t.code, cgstk := t.cgstk, cgsp := t.cgsp })

/-- The writing phases of ENCODE, while the command goes on, change only what R195, R198 and R200 name. -/
def Obligations.WritingPhasesFrame : Prop :=
  ∀ s t : State, t.phase ≠ .idle →
    (exec .hdrw s = .next t →
      t = { s with phase := t.phase, fsize := t.fsize, output := t.output, trace := t.trace, wait := t.wait }) ∧
    (exec .tabw s = .next t → t = { s with phase := t.phase, output := t.output, trace := t.trace, wait := t.wait }) ∧
    (exec .pack s = .next t →
      t = { s with phase := t.phase, acc := t.acc, nbits := t.nbits, symcnt := t.symcnt, input := t.input,
                   output := t.output, trace := t.trace, wait := t.wait }) ∧
    (exec .flush s = .next t → t = { s with output := t.output, trace := t.trace, wait := t.wait })

/-- The reading phases, while the command goes on, change only what R150, R220, R223 and R226 name; FREQ, KEY and CODE are not
used by DECODE (R22, R23, R153). -/
def Obligations.ReadingPhasesFrame : Prop :=
  ∀ s t : State, t.phase ≠ .idle →
    (exec .fcount s = .next t →
      t = { s with phase := t.phase, freq := t.freq, input := t.input, trace := t.trace, wait := t.wait }) ∧
    (exec .hdrr s = .next t →
      t = { s with phase := t.phase, hbuf := t.hbuf, fsize := t.fsize, tsize := t.tsize, input := t.input,
                   trace := t.trace, wait := t.wait }) ∧
    (exec .tabr s = .next t →
      t = { s with phase := t.phase, tab := t.tab, input := t.input, trace := t.trace, wait := t.wait }) ∧
    (exec .walk s = .next t →
      t = { s with cur := t.cur, cache := t.cache, cbits := t.cbits, symcnt := t.symcnt, input := t.input,
                   output := t.output, trace := t.trace, wait := t.wait })

/-- R136, R256: a phase that fails leaves CMDREG, TSIZE, FSIZE and SYMCNT as they are, but for FSIZE in HDRW (R195) and SYMCNT in
PACK and WALK (R200, R226), which keep what the phase wrote. -/
def Obligations.FailureLeavesTheReadableRegisters : Prop :=
  ∀ (s t : State) (e : ErrKind), Inv s → s.busy = true → s.host = [] → step s = .next t → t.Failed e →
    t.cmdreg = s.cmdreg ∧ t.tsize = s.tsize ∧ (s.phase ≠ .hdrw → t.fsize = s.fsize) ∧
    (s.phase ≠ .pack → s.phase ≠ .walk → t.symcnt = s.symcnt) ∧ t.wait = none ∧ t.host = [] ∧ t.reads = s.reads

/-! ### The whole machine -/

/-- R20, R33, R134, R135, R160, R171, R202: the invariant is kept by every step, the host's among them. -/
def Obligations.StepKeepsTheInvariant : Prop := ∀ s t : State, Inv s → step s = .next t → Inv t

/-- In a state of the invariant no step faults, whatever the streams answer and the host does: R45, R169, R184, R227. -/
def Obligations.NoStepFaults : Prop := ∀ (s : State) (f : Fault), Inv s → step s ≠ .fault f

/-- R135, R136, R144, R251: what the sequencer's step can do to a running command: hang, go to the phase the table gives,
complete from the last phase, or fail with an error that the phase can raise. -/
def Obligations.PhaseOutcome : Prop :=
  ∀ s t : State, Inv s → s.busy = true → s.host = [] → step s = .next t →
    (t.wait ≠ none ∧ t.phase = s.phase ∧ t.busy = true) ∨
    (t.wait = none ∧ follows s.phase s.cmdreg = some t.phase ∧ t.busy = true) ∨
    (isLast s.phase = true ∧ t.Completed) ∨
    (∃ e, canRaise s.phase e = true ∧ t.Failed e)

/-- R64, R258: HUFFCORE never takes back a byte it has written; only the host exchanges the output stream. -/
def Obligations.OutputIsAppendOnly : Prop :=
  ∀ s t : State, step s = .next t → (∀ answers rest, s.host ≠ .connectOut answers :: rest) →
    ∃ more, t.output.data = s.output.data ++ more

/-- R61: HUFFCORE never writes the input stream, and only FCOUNT moves its cursor back. -/
def Obligations.InputIsOnlyRead : Prop :=
  ∀ (i : Instr) (s t : State), exec i s = .next t →
    (s.input.passes = [] → t.input.data = s.input.data) ∧ (i ≠ .fcount → s.input.pos ≤ t.input.pos ∧ t.input.data = s.input.data)

/-- R64, R259: before the header and the table have been written, and in DECODE before all checks have passed, nothing is
written, not even on an error. -/
def Obligations.NothingWrittenBeforeTheChecks : Prop :=
  ∀ (i : Instr) (s t : State), i ∈ [Instr.fcount, .keysort, .window, .tbuild, .cgen, .hdrr, .tabr] → exec i s = .next t →
    t.output = s.output

/-- R33, R37, R258: while no command runs, the outcome and the data registers stay, until a command is accepted or rst. -/
def Obligations.OutcomeStaysUntilAccepted : Prop :=
  ∀ s t : State, Inv s → s.busy = false → step s = .next t → (∀ rest, s.host ≠ .rst :: rest) →
    t.fsize = s.fsize ∧ t.tsize = s.tsize ∧ t.symcnt = s.symcnt ∧
    ((t.busy = false ∧ t.done = s.done ∧ t.err = s.err ∧ t.cmdreg = s.cmdreg ∧ t.phase = .idle) ∨
     (t.busy = true ∧ t.done = false ∧ t.err = .none ∧
       ((t.cmdreg = .encode ∧ t.phase = .fcount) ∨ (t.cmdreg = .decode ∧ t.phase = .hdrr))))

/-! ### The container (spec/30_encoding.md) and whole commands (spec/40_commands.md) -/

/-- R11, R67: the byte orders are inverse to each other. -/
def Obligations.LittleEndianInverse : Prop :=
  (∀ v : Word, (le64 v).length = 8 ∧ u64le (le64 v) = v) ∧ (∀ v : Half, (le32 v).length = 4 ∧ u32le (le32 v) = v) ∧
  (∀ bs : List Byte, bs.length = 8 → le64 (u64le bs) = bs) ∧ (∀ bs : List Byte, bs.length = 4 → le32 (u32le bs) = bs)

/-- R93: assembly, disassembly, the order of composite units, and their bytes on the wire. -/
def Obligations.CompositeUnitFields : Prop :=
  (∀ (f : Word) (v : Byte), f.toNat < 2 ^ 56 →
    (unitOf f v).toNat = f.toNat * 256 + v.toNat ∧ unitValue (unitOf f v) = v ∧ unitFreq (unitOf f v) = f) ∧
  (∀ u : Word, unitOf (unitFreq u) (unitValue u) = u ∧ (unitFreq u).toNat < 2 ^ 56) ∧
  (∀ u v : Word, u.toNat < v.toNat ↔
    ((unitFreq u).toNat < (unitFreq v).toNat ∨ (unitFreq u = unitFreq v ∧ (unitValue u).toNat < (unitValue v).toNat))) ∧
  (∀ u : Word, le64 u = unitValue u :: leBytes 7 (unitFreq u).toNat)

/-- What HDRW wrote, HDRR reads back (R90, R195, R220). -/
def Obligations.HeaderRoundTrip : Prop :=
  ∀ s s' d : State, s.wait = none → AllOk s.output.answers → s.output.data = [] → exec .hdrw s = .next s' →
    d.wait = none → AllOk d.input.answers → d.input.pos = 0 → s'.output.data <+: d.input.data →
    ∃ d', exec .hdrr d = .next d' ∧ d'.phase = .tabr ∧ d'.fsize = s'.fsize ∧ d'.tsize = s'.tsize

/-- R96, R97: the bits of the packed payload are the code bits, then fewer than 8 zeros. -/
def Obligations.PayloadBitsRoundTrip : Prop :=
  ∀ bits : List Bool, (packBits bits).length = (bits.length + 7) / 8 ∧
    bitsOf (packBits bits) = bits ++ List.replicate (8 * ((bits.length + 7) / 8) - bits.length) false

/-- R98, R102, R142: what every container written by ENCODE looks like. -/
def Obligations.ContainerShape : Prop :=
  ∀ input : List Byte, input.length < 2 ^ 56 →
    let c := encodeFn input
    let n := (encodeTable input).length
    2 ≤ n ∧ n ≤ 256 ∧ c.take 8 = magic ∧ (u64le ((c.drop 8).take 8)).toNat = input.length ∧
    (u32le ((c.drop 16).take 4)).toNat = n ∧ containerTable c n = encodeTable input ∧
    (encodeTable input).Pairwise (fun u v => u.toNat < v.toNat) ∧
    ((encodeTable input).map fun u => (unitFreq u).toNat).sum = input.length ∧
    (∀ b ∈ input, b ∈ (encodeTable input).map unitValue) ∧
    c.length = 20 + 8 * n + ((payloadBits ((treeOf (encodeTable input)).getD (.leaf 0 0)) input).length + 7) / 8

/-- R139: the command ENCODE, run by the phases, writes Encode(S); the premises are R65's stable input and R302's fairness. -/
def Obligations.EncodeCommandWritesEncode : Prop :=
  ∀ (s : State) (v : Word), Inv s → s.busy = false → s.host = [.csrWrite 0 v] → v.extractLsb' 0 2 = 1#2 → s.Answered →
    s.input.pos = 0 → s.input.passes = [] → s.input.data.length < 2 ^ 56 →
    ∃ t, steps 10 s = .next t ∧ t.Completed ∧
      t.output.data = s.output.data ++ encodeFn s.input.data ∧ t.input.data = s.input.data ∧
      t.input.pos = s.input.data.length ∧ t.fsize.toNat = s.input.data.length ∧ t.symcnt = t.fsize ∧
      t.tsize.toNat = (encodeTable s.input.data).length ∧ t.cmdreg = .encode

/-- R140: the command DECODE, run by the phases, gives what Decode(C) says: the output and the bytes consumed, or the error and
the bytes already written. -/
def Obligations.DecodeCommandComputesDecode : Prop :=
  ∀ (s : State) (v : Word), Inv s → s.busy = false → s.host = [.csrWrite 0 v] → v.extractLsb' 0 2 = 2#2 → s.Answered →
    s.input.pos = 0 →
    ∃ t, steps 5 s = .next t ∧ t.cmdreg = .decode ∧
      match decodeFn s.input.data with
      | .finished out consumed =>
        t.Completed ∧ t.output.data = s.output.data ++ out ∧ t.input.pos = consumed ∧ t.symcnt = t.fsize
      | .failed e out => t.Failed e ∧ t.output.data = s.output.data ++ out

/-- R141: "for all finite byte sequences `S` ... `decode(encode(S)) == S`", and the whole container is consumed. -/
def Obligations.ContainerRoundTrip : Prop :=
  ∀ input : List Byte, input.length < 2 ^ 56 →
    decodeFn (encodeFn input) = .finished input (encodeFn input).length

/-- R228: "Removing the last payload byte of a container written by ENCODE always raises TruncatedPayload when FSIZE > 0". -/
def Obligations.TruncatedContainerFails : Prop :=
  ∀ input : List Byte, input ≠ [] → input.length < 2 ^ 56 →
    ∃ out, decodeFn (encodeFn input).dropLast = .failed .truncated out ∧ out <+: input ∧ out ≠ input
end

