-- ==== Sys2Proof/Laws/Operands.lean ====
section
/-!
SUPPORT. Byte orders, composite units, the sort and the bits of a payload.
-/

namespace Sys2Proof.Machine

/-! ### Byte order -/

@[simp] theorem leBytes_length : ∀ (k n : Nat), (leBytes k n).length = k
  | 0, _ => rfl
  | k + 1, n => by simp [leBytes, leBytes_length k]

theorem leNat_leBytes : ∀ (k n : Nat), leNat (leBytes k n) = n % 256 ^ k
  | 0, n => by simp [leBytes, leNat, Nat.mod_one]
  | k + 1, n => by
    simp only [leBytes, leNat, leNat_leBytes k, BitVec.toNat_ofNat]
    rw [Nat.pow_succ' (m := 256), Nat.mod_mul (a := 256) (b := 256 ^ k)]

theorem leNat_lt : ∀ bs : List Byte, leNat bs < 256 ^ bs.length
  | [] => by simp [leNat]
  | b :: bs => by
    have := leNat_lt bs
    have hb := b.isLt
    simp only [leNat, List.length_cons, Nat.pow_succ']
    omega

theorem leBytes_leNat : ∀ bs : List Byte, leBytes bs.length (leNat bs) = bs
  | [] => rfl
  | b :: bs => by
    have hb := b.isLt
    have h1 : (b.toNat + 256 * leNat bs) / 256 = leNat bs := by omega
    simp only [List.length_cons, leNat, leBytes, h1, leBytes_leNat bs]
    congr 1
    apply BitVec.eq_of_toNat_eq
    simp
    omega

@[simp] theorem le64_length (v : Word) : (le64 v).length = 8 := by simp [le64]
@[simp] theorem le32_length (v : Half) : (le32 v).length = 4 := by simp [le32]

theorem u64le_of_le64 (v : Word) : u64le (le64 v) = v := by
  apply BitVec.eq_of_toNat_eq
  have := v.isLt
  simp only [u64le, le64, leNat_leBytes, BitVec.toNat_ofNat]
  omega

theorem u32le_of_le32 (v : Half) : u32le (le32 v) = v := by
  apply BitVec.eq_of_toNat_eq
  have := v.isLt
  simp only [u32le, le32, leNat_leBytes, BitVec.toNat_ofNat]
  omega

theorem le64_of_u64le {bs : List Byte} (h : bs.length = 8) : le64 (u64le bs) = bs := by
  have hl := leNat_lt bs
  rw [h] at hl
  have : (u64le bs).toNat = leNat bs := by simp only [u64le, BitVec.toNat_ofNat]; omega
  rw [le64, this, ← h, leBytes_leNat]

theorem le32_of_u32le {bs : List Byte} (h : bs.length = 4) : le32 (u32le bs) = bs := by
  have hl := leNat_lt bs
  rw [h] at hl
  have : (u32le bs).toNat = leNat bs := by simp only [u32le, BitVec.toNat_ofNat]; omega
  rw [le32, this, ← h, leBytes_leNat]

@[simp] theorem magic_length : magic.length = 8 := rfl

/-! ### Composite units -/

theorem unitFreq_toNat (u : Word) : (unitFreq u).toNat = u.toNat / 256 := by
  simp [unitFreq, Nat.shiftRight_eq_div_pow]

theorem unitValue_toNat (u : Word) : (unitValue u).toNat = u.toNat % 256 := by simp [unitValue]

theorem unitFreq_lt (u : Word) : (unitFreq u).toNat < 2 ^ 56 := by
  have := u.isLt
  rw [unitFreq_toNat]
  omega

theorem unitOf_toNat (f : Word) (v : Byte) : (unitOf f v).toNat = f.toNat % 2 ^ 56 * 256 + v.toNat := by
  have hv := v.isLt
  have hf := f.isLt
  have h1 : (f <<< 8).toNat = f.toNat % 2 ^ 56 * 2 ^ 8 := by
    simp only [BitVec.toNat_shiftLeft, Nat.shiftLeft_eq]
    omega
  have h2 : (v.setWidth 64 : Word).toNat = v.toNat := by simp; omega
  unfold unitOf
  rw [BitVec.toNat_or, h1, h2, Nat.mul_comm, ← Nat.two_pow_add_eq_or_of_lt (by omega : v.toNat < 2 ^ 8)]
  omega

/-! ### The sort -/

theorem insertUnit_perm (u : Word) : ∀ l : List Word, (insertUnit u l).Perm (u :: l)
  | [] => .refl _
  | v :: vs => by
    unfold insertUnit
    split
    · exact .refl _
    · exact ((insertUnit_perm u vs).cons v).trans (.swap u v vs)

theorem sortUnits_perm : ∀ l : List Word, (sortUnits l).Perm l
  | [] => .refl _
  | u :: us => (insertUnit_perm u _).trans ((sortUnits_perm us).cons u)

@[simp] theorem sortUnits_length (l : List Word) : (sortUnits l).length = l.length := (sortUnits_perm l).length_eq

theorem insertUnit_sorted (u : Word) : ∀ l : List Word, l.Pairwise (fun a b => a.toNat ≤ b.toNat) →
    (insertUnit u l).Pairwise (fun a b => a.toNat ≤ b.toNat)
  | [], _ => by simp [insertUnit]
  | v :: vs, h => by
    unfold insertUnit
    rw [List.pairwise_cons] at h
    split
    · rename_i huv
      refine List.pairwise_cons.mpr ⟨fun w hw => ?_, List.pairwise_cons.mpr h⟩
      rcases List.mem_cons.mp hw with rfl | hw
      · exact huv
      · exact Nat.le_trans huv (h.1 w hw)
    · rename_i huv
      refine List.pairwise_cons.mpr ⟨fun w hw => ?_, insertUnit_sorted u vs h.2⟩
      rcases List.mem_cons.mp ((insertUnit_perm u vs).mem_iff.mp hw) with rfl | hw
      · omega
      · exact h.1 w hw

theorem sortUnits_sorted : ∀ l : List Word, (sortUnits l).Pairwise (fun a b => a.toNat ≤ b.toNat)
  | [] => .nil
  | u :: us => insertUnit_sorted u _ (sortUnits_sorted us)

/-- Two ascending arrangements of one list are the same list (R191). -/
theorem sorted_unique {l m : List Word} (hp : l.Perm m) (hl : l.Pairwise (fun a b => a.toNat ≤ b.toNat))
    (hm : m.Pairwise (fun a b => a.toNat ≤ b.toNat)) : l = m :=
  hp.eq_of_pairwise (fun _ _ _ _ h1 h2 => BitVec.eq_of_toNat_eq (Nat.le_antisymm h1 h2)) hl hm

theorem sorted_strict {l : List Word} (hn : l.Nodup) (hl : l.Pairwise (fun a b => a.toNat ≤ b.toNat)) :
    l.Pairwise (fun a b => a.toNat < b.toNat) := by
  refine (hn.and hl).imp ?_
  rintro a b ⟨hne, hle⟩
  rcases Nat.lt_or_eq_of_le hle with h | h
  · exact h
  · exact absurd (BitVec.eq_of_toNat_eq h) hne

/-! ### Tables and indices -/

@[simp] theorem tabulate_toList {α : Type} (n : Nat) (f : Fin n → α) : (tabulate n f).toList = List.ofFn f := by
  simp [tabulate, Vector.toList]

@[simp] theorem tabulate_getElem {α : Type} (n : Nat) (f : Fin n → α) (k : Nat) (h : k < n) :
    (tabulate n f)[k] = f ⟨k, h⟩ := by
  simp [tabulate]

@[simp] theorem ix256_val {k : Nat} (h : k < 256) : (ix256 k).val = k := Nat.mod_eq_of_lt h
@[simp] theorem nodeIx_val {k : Nat} (h : k < 511) : (nodeIx k).val = k := Nat.mod_eq_of_lt h

end Sys2Proof.Machine
end

