-- ==== Sys2Proof/Laws/Payload.lean ====
section
/-!
SUPPORT. The bits of a payload: bytes made of bits, one more bit, codes as positions.
-/

namespace Sys2Proof.Machine

/-! ### A byte and its bits -/

theorem oneBit_getLsbD (b : Bool) : ∀ n k : Fin 8, ((if b then (1 : Byte) else 0) <<< n.val).getLsbD k.val = (b && decide (k = n)) := by
  cases b <;> decide

theorem byteOf_getLsbD (bits : List Bool) (k : Nat) (hk : k < 8) : (byteOf bits).getLsbD k = bits.getD (7 - k) false := by
  have h : ∀ (b : Bool) (n : Nat), n < 8 → ((if b then (1 : Byte) else 0) <<< n).getLsbD k = (b && decide (k = n)) := by
    intro b n hn
    have := oneBit_getLsbD b ⟨n, hn⟩ ⟨k, hk⟩
    simpa [Fin.ext_iff] using this
  have hr : List.range 8 = [0, 1, 2, 3, 4, 5, 6, 7] := rfl
  simp only [byteOf, hr, List.foldl, BitVec.getLsbD_or, h _ _ (by omega : 7 - 0 < 8), h _ _ (by omega : 7 - 1 < 8),
    h _ _ (by omega : 7 - 2 < 8), h _ _ (by omega : 7 - 3 < 8), h _ _ (by omega : 7 - 4 < 8), h _ _ (by omega : 7 - 5 < 8),
    h _ _ (by omega : 7 - 6 < 8), h _ _ (by omega : 7 - 7 < 8)]
  interval_cases k <;> simp

theorem byte_ext {a b : Byte} (h : ∀ k < 8, a.getLsbD k = b.getLsbD k) : a = b :=
  BitVec.eq_of_getLsbD_eq fun i hi => h i hi

/-- Only the first eight bits matter. -/
theorem byteOf_take (bits : List Bool) : byteOf (bits.take 8) = byteOf bits := by
  refine byte_ext fun k hk => ?_
  rw [byteOf_getLsbD _ k hk, byteOf_getLsbD _ k hk]
  simp [List.getD_eq_getElem?_getD, (by omega : 7 - k < 8)]

@[simp] theorem byteOf_nil : byteOf [] = 0 := by decide

/-- The bits of one byte, most significant first. -/
def byteBits (b : Byte) : List Bool := (List.range 8).map fun q => b.getLsbD (7 - q)

theorem bitsOf_cons (b : Byte) (bs : List Byte) : bitsOf (b :: bs) = byteBits b ++ bitsOf bs := by simp [bitsOf, byteBits]

@[simp] theorem bitsOf_nil : bitsOf [] = [] := rfl

@[simp] theorem byteBits_length (b : Byte) : (byteBits b).length = 8 := by simp [byteBits]

@[simp] theorem bitsOf_length : ∀ bs : List Byte, (bitsOf bs).length = 8 * bs.length
  | [] => rfl
  | b :: bs => by rw [bitsOf_cons, List.length_append, byteBits_length, bitsOf_length bs, List.length_cons]; omega

theorem bitsOf_append (as bs : List Byte) : bitsOf (as ++ bs) = bitsOf as ++ bitsOf bs := by simp [bitsOf]

/-- The bits of a byte made of bits: those bits, then zeros. -/
theorem byteBits_byteOf (bits : List Bool) : byteBits (byteOf bits) = bits.take 8 ++ List.replicate (8 - bits.length) false := by
  apply List.ext_getElem?
  intro i
  by_cases hi : i < 8
  · have h1 : (byteBits (byteOf bits))[i]? = some (bits.getD i false) := by
      have e : 7 - (7 - i) = i := by omega
      simp [byteBits, hi, byteOf_getLsbD bits (7 - i) (by omega), e]
    rw [h1]
    by_cases hb : i < bits.length
    · rw [List.getElem?_append_left (by simp; omega)]
      simp [hi, hb]
    · rw [List.getElem?_append_right (by simp; omega)]
      have : bits[i]? = none := by simp; omega
      simp [List.getElem?_replicate, List.getD_eq_getElem?_getD, this]
      omega
  · rw [List.getElem?_eq_none (by simp; omega), List.getElem?_eq_none (by simp; omega)]

/-! ### The packed payload -/

theorem payloadByte_succ (bits : List Bool) (p : Nat) : payloadByte bits (p + 1) = payloadByte (bits.drop 8) p := by
  simp [payloadByte, Nat.mul_add, Nat.add_comm]

theorem packBits_nil : packBits [] = [] := by simp [packBits]

theorem packBits_cons {bits : List Bool} (h : bits ≠ []) : packBits bits = byteOf bits :: packBits (bits.drop 8) := by
  have hl := List.length_pos_iff.mpr h
  have e : (bits.length + 7) / 8 = ((bits.drop 8).length + 7) / 8 + 1 := by simp; omega
  simp only [packBits, e, List.range_succ_eq_map, List.map_cons, List.map_map]
  congr 1
  apply List.map_congr_left
  intro p _
  simp [payloadByte_succ]

@[simp] theorem packBits_length (bits : List Bool) : (packBits bits).length = (bits.length + 7) / 8 := by simp [packBits]

theorem bitsOf_packBits (bits : List Bool) :
    bitsOf (packBits bits) = bits ++ List.replicate (8 * ((bits.length + 7) / 8) - bits.length) false := by
  by_cases h : bits = []
  · subst h; simp [packBits_nil]
  · have ih := bitsOf_packBits (bits.drop 8)
    have hl := List.length_pos_iff.mpr h
    rw [packBits_cons h, bitsOf_cons, ih, byteBits_byteOf]
    by_cases h8 : 8 ≤ bits.length
    · have e1 : 8 - bits.length = 0 := by omega
      have e2 : 8 * (((bits.drop 8).length + 7) / 8) - (bits.drop 8).length = 8 * ((bits.length + 7) / 8) - bits.length := by
        simp; omega
      rw [e1, e2, List.replicate_zero, List.append_nil, ← List.append_assoc, List.take_append_drop]
    · have e0 : bits.drop 8 = [] := List.drop_eq_nil_of_le (by omega)
      have e1 : bits.take 8 = bits := List.take_of_length_le (by omega)
      have e2 : 8 * ((bits.length + 7) / 8) - bits.length = 8 - bits.length := by omega
      rw [e0, e1, e2]; simp
termination_by bits.length
decreasing_by
  have := List.length_pos_iff.mpr h
  simp; omega

/-- One more bit goes to the next free place of the byte in the making (R200). -/
theorem payloadByte_append (bits : List Bool) (b : Bool) :
    payloadByte (bits ++ [b]) (bits.length / 8) =
      payloadByte bits (bits.length / 8) ||| accBit b (BitVec.ofNat 3 (bits.length % 8)) := by
  have hl : (bits.drop (8 * (bits.length / 8))).length = bits.length % 8 := by simp; omega
  have hd : (bits ++ [b]).drop (8 * (bits.length / 8)) = bits.drop (8 * (bits.length / 8)) ++ [b] :=
    List.drop_append_of_le_length (by omega)
  have hn : (BitVec.ofNat 3 (bits.length % 8)).toNat = bits.length % 8 := by simp
  simp only [payloadByte, hd, accBit, hn]
  generalize bits.drop (8 * (bits.length / 8)) = r at hl
  rw [← hl]
  have hr : r.length < 8 := by omega
  refine byte_ext fun k hk => ?_
  have h1 := oneBit_getLsbD b ⟨7 - r.length, by omega⟩ ⟨k, hk⟩
  simp only [Fin.mk.injEq] at h1
  rw [BitVec.getLsbD_or, h1, byteOf_getLsbD _ k hk, byteOf_getLsbD _ k hk]
  simp only [List.getD_eq_getElem?_getD]
  rcases Nat.lt_trichotomy (7 - k) r.length with h | h | h
  · rw [List.getElem?_append_left h]
    have : ¬ k = 7 - r.length := by omega
    simp [this]
  · have e : k = 7 - r.length := by omega
    rw [List.getElem?_append_right (by omega), List.getElem?_eq_none (l := r) (by omega)]
    have e2 : 7 - k - r.length = 0 := by omega
    rw [e2]
    simp [e]
  · rw [List.getElem?_eq_none (by simp; omega), List.getElem?_eq_none (l := r) (by omega)]
    have : ¬ k = 7 - r.length := by omega
    simp [this]

theorem payloadByte_prefix (bits more : List Bool) (p : Nat) (h : 8 * p + 8 ≤ bits.length) :
    payloadByte (bits ++ more) p = payloadByte bits p := by
  unfold payloadByte
  rw [List.drop_append_of_le_length (by omega), ← byteOf_take, List.take_append_of_le_length (by simp; omega), byteOf_take]

/-- One more bit and the whole bytes (R200). -/
theorem packWhole_append (bits : List Bool) (b : Bool) :
    packWhole (bits ++ [b]) =
      if bits.length % 8 = 7 then packWhole bits ++ [payloadByte (bits ++ [b]) (bits.length / 8)] else packWhole bits := by
  have hmap : (List.range (bits.length / 8)).map (payloadByte (bits ++ [b])) = packWhole bits := by
    apply List.map_congr_left
    intro p hp
    rw [List.mem_range] at hp
    exact payloadByte_prefix bits [b] p (by omega)
  split
  · have e : (bits ++ [b]).length / 8 = bits.length / 8 + 1 := by simp; omega
    rw [packWhole, e, List.range_succ, List.map_append, hmap]
    rfl
  · have e : (bits ++ [b]).length / 8 = bits.length / 8 := by simp; omega
    rw [packWhole, e, hmap]

theorem payloadByte_end (bits : List Bool) (h : bits.length % 8 = 0) : payloadByte bits (bits.length / 8) = 0 := by
  have : bits.drop (8 * (bits.length / 8)) = [] := List.drop_eq_nil_of_le (by omega)
  simp [payloadByte, this]

/-- The whole bytes and, if there is one, the padded last byte are the payload (R203, R204). -/
theorem packBits_eq (bits : List Bool) :
    packBits bits = packWhole bits ++ if bits.length % 8 = 0 then [] else [payloadByte bits (bits.length / 8)] := by
  split
  · have e : (bits.length + 7) / 8 = bits.length / 8 := by omega
    simp [packBits, packWhole, e]
  · have e : (bits.length + 7) / 8 = bits.length / 8 + 1 := by omega
    simp [packBits, packWhole, e, List.range_succ]

/-! ### Codes as positions -/

/-- The low t bits of a position, most significant first (R181). -/
def pathBits (t : Nat) (p : Path) : List Bool := (List.range t).map fun q => pathBit p (t - 1 - q)

theorem codeBits_eq (c : CodeEntry) : codeBits c = pathBits c.len.toNat c.pos := rfl

@[simp] theorem pathBits_length (t : Nat) (p : Path) : (pathBits t p).length = t := by simp [pathBits]

theorem pathBits_succ (t : Nat) (p : Path) : pathBits (t + 1) p = pathBit p t :: pathBits t p := by
  simp only [pathBits, List.range_succ_eq_map, List.map_cons, List.map_map]
  congr 1
  apply List.map_congr_left
  intro q hq
  simp only [Function.comp, Nat.succ_eq_add_one]
  congr 1
  omega

theorem pathStep_bit (p : Path) (bit : Bool) (k : Nat) (hk : k < 255) :
    pathBit (pathStep p bit) k = if k = 0 then bit else pathBit p (k - 1) := by
  unfold pathBit pathStep
  rw [BitVec.getLsbD_or, BitVec.getLsbD_shiftLeft]
  cases bit <;> by_cases h0 : k = 0 <;> simp [hk, h0,]

/-- One edge further down is one bit more at the end of the code (R181). -/
theorem pathBits_step (t : Nat) (p : Path) (bit : Bool) (ht : t < 255) :
    pathBits (t + 1) (pathStep p bit) = pathBits t p ++ [bit] := by
  simp only [pathBits, List.range_succ, List.map_append, List.map_cons, List.map_nil]
  congr 1
  · apply List.map_congr_left
    intro q hq
    rw [List.mem_range] at hq
    rw [pathStep_bit p bit _ (by omega), if_neg (by omega)]
    congr 1
    omega
  · rw [pathStep_bit p bit _ (by omega)]
    simp

theorem pathStep_lt (p : Path) (bit : Bool) (t : Nat) (ht : t < 255) (hp : p.toNat < 2 ^ t) :
    (pathStep p bit).toNat < 2 ^ (t + 1) := by
  have h255 : 2 ^ (t + 1) ≤ 2 ^ 255 := Nat.pow_le_pow_right (by omega) (by omega)
  have hs : (p <<< 1).toNat = 2 * p.toNat := by
    rw [BitVec.toNat_shiftLeft, Nat.shiftLeft_eq, Nat.mod_eq_of_lt]
    · omega
    · rw [Nat.pow_succ] at h255; omega
  unfold pathStep
  rw [BitVec.toNat_or, hs]
  refine Nat.or_lt_two_pow (by rw [Nat.pow_succ]; omega) ?_
  have h1 : 1 < 2 ^ (t + 1) := Nat.one_lt_two_pow (by omega)
  cases bit <;> simp

end Sys2Proof.Machine
end

