-- ==== Sys2Proof/Laws/State.lean ====
section
/-!
SUPPORT. One lemma per field and shared update of the state, true by rfl, so that no proof unfolds a record update.
-/

namespace Sys2Proof.Machine

@[simp] theorem goPhase_phase (p : Phase) (s : State) : (goPhase p s).phase = p := rfl
@[simp] theorem goPhase_busy (p : Phase) (s : State) : (goPhase p s).busy = s.busy := rfl
@[simp] theorem goPhase_done (p : Phase) (s : State) : (goPhase p s).done = s.done := rfl
@[simp] theorem goPhase_err (p : Phase) (s : State) : (goPhase p s).err = s.err := rfl
@[simp] theorem goPhase_cmdreg (p : Phase) (s : State) : (goPhase p s).cmdreg = s.cmdreg := rfl
@[simp] theorem goPhase_fsize (p : Phase) (s : State) : (goPhase p s).fsize = s.fsize := rfl
@[simp] theorem goPhase_tsize (p : Phase) (s : State) : (goPhase p s).tsize = s.tsize := rfl
@[simp] theorem goPhase_symcnt (p : Phase) (s : State) : (goPhase p s).symcnt = s.symcnt := rfl
@[simp] theorem goPhase_wstart (p : Phase) (s : State) : (goPhase p s).wstart = s.wstart := rfl
@[simp] theorem goPhase_root (p : Phase) (s : State) : (goPhase p s).root = s.root := rfl
@[simp] theorem goPhase_i (p : Phase) (s : State) : (goPhase p s).i = s.i := rfl
@[simp] theorem goPhase_j (p : Phase) (s : State) : (goPhase p s).j = s.j := rfl
@[simp] theorem goPhase_m (p : Phase) (s : State) : (goPhase p s).m = s.m := rfl
@[simp] theorem goPhase_cur (p : Phase) (s : State) : (goPhase p s).cur = s.cur := rfl
@[simp] theorem goPhase_acc (p : Phase) (s : State) : (goPhase p s).acc = s.acc := rfl
@[simp] theorem goPhase_nbits (p : Phase) (s : State) : (goPhase p s).nbits = s.nbits := rfl
@[simp] theorem goPhase_cache (p : Phase) (s : State) : (goPhase p s).cache = s.cache := rfl
@[simp] theorem goPhase_cbits (p : Phase) (s : State) : (goPhase p s).cbits = s.cbits := rfl
@[simp] theorem goPhase_freq (p : Phase) (s : State) : (goPhase p s).freq = s.freq := rfl
@[simp] theorem goPhase_key (p : Phase) (s : State) : (goPhase p s).key = s.key := rfl
@[simp] theorem goPhase_tab (p : Phase) (s : State) : (goPhase p s).tab = s.tab := rfl
@[simp] theorem goPhase_node (p : Phase) (s : State) : (goPhase p s).node = s.node := rfl
@[simp] theorem goPhase_seq (p : Phase) (s : State) : (goPhase p s).seq = s.seq := rfl
@[simp] theorem goPhase_code (p : Phase) (s : State) : (goPhase p s).code = s.code := rfl
@[simp] theorem goPhase_hbuf (p : Phase) (s : State) : (goPhase p s).hbuf = s.hbuf := rfl
@[simp] theorem goPhase_cgstk (p : Phase) (s : State) : (goPhase p s).cgstk = s.cgstk := rfl
@[simp] theorem goPhase_cgsp (p : Phase) (s : State) : (goPhase p s).cgsp = s.cgsp := rfl
@[simp] theorem goPhase_input (p : Phase) (s : State) : (goPhase p s).input = s.input := rfl
@[simp] theorem goPhase_output (p : Phase) (s : State) : (goPhase p s).output = s.output := rfl
@[simp] theorem goPhase_host (p : Phase) (s : State) : (goPhase p s).host = s.host := rfl
@[simp] theorem goPhase_wait (p : Phase) (s : State) : (goPhase p s).wait = s.wait := rfl
@[simp] theorem goPhase_trace (p : Phase) (s : State) : (goPhase p s).trace = s.trace := rfl
@[simp] theorem goPhase_reads (p : Phase) (s : State) : (goPhase p s).reads = s.reads := rfl
@[simp] theorem goPhase_fresh (p : Phase) (s : State) : (goPhase p s).fresh = s.fresh := rfl

@[simp] theorem log_phase (e : Transfer) (s : State) : (State.log e s).phase = s.phase := rfl
@[simp] theorem log_busy (e : Transfer) (s : State) : (State.log e s).busy = s.busy := rfl
@[simp] theorem log_done (e : Transfer) (s : State) : (State.log e s).done = s.done := rfl
@[simp] theorem log_err (e : Transfer) (s : State) : (State.log e s).err = s.err := rfl
@[simp] theorem log_cmdreg (e : Transfer) (s : State) : (State.log e s).cmdreg = s.cmdreg := rfl
@[simp] theorem log_fsize (e : Transfer) (s : State) : (State.log e s).fsize = s.fsize := rfl
@[simp] theorem log_tsize (e : Transfer) (s : State) : (State.log e s).tsize = s.tsize := rfl
@[simp] theorem log_symcnt (e : Transfer) (s : State) : (State.log e s).symcnt = s.symcnt := rfl
@[simp] theorem log_wstart (e : Transfer) (s : State) : (State.log e s).wstart = s.wstart := rfl
@[simp] theorem log_root (e : Transfer) (s : State) : (State.log e s).root = s.root := rfl
@[simp] theorem log_i (e : Transfer) (s : State) : (State.log e s).i = s.i := rfl
@[simp] theorem log_j (e : Transfer) (s : State) : (State.log e s).j = s.j := rfl
@[simp] theorem log_m (e : Transfer) (s : State) : (State.log e s).m = s.m := rfl
@[simp] theorem log_cur (e : Transfer) (s : State) : (State.log e s).cur = s.cur := rfl
@[simp] theorem log_acc (e : Transfer) (s : State) : (State.log e s).acc = s.acc := rfl
@[simp] theorem log_nbits (e : Transfer) (s : State) : (State.log e s).nbits = s.nbits := rfl
@[simp] theorem log_cache (e : Transfer) (s : State) : (State.log e s).cache = s.cache := rfl
@[simp] theorem log_cbits (e : Transfer) (s : State) : (State.log e s).cbits = s.cbits := rfl
@[simp] theorem log_freq (e : Transfer) (s : State) : (State.log e s).freq = s.freq := rfl
@[simp] theorem log_key (e : Transfer) (s : State) : (State.log e s).key = s.key := rfl
@[simp] theorem log_tab (e : Transfer) (s : State) : (State.log e s).tab = s.tab := rfl
@[simp] theorem log_node (e : Transfer) (s : State) : (State.log e s).node = s.node := rfl
@[simp] theorem log_seq (e : Transfer) (s : State) : (State.log e s).seq = s.seq := rfl
@[simp] theorem log_code (e : Transfer) (s : State) : (State.log e s).code = s.code := rfl
@[simp] theorem log_hbuf (e : Transfer) (s : State) : (State.log e s).hbuf = s.hbuf := rfl
@[simp] theorem log_cgstk (e : Transfer) (s : State) : (State.log e s).cgstk = s.cgstk := rfl
@[simp] theorem log_cgsp (e : Transfer) (s : State) : (State.log e s).cgsp = s.cgsp := rfl
@[simp] theorem log_input (e : Transfer) (s : State) : (State.log e s).input = s.input := rfl
@[simp] theorem log_output (e : Transfer) (s : State) : (State.log e s).output = s.output := rfl
@[simp] theorem log_host (e : Transfer) (s : State) : (State.log e s).host = s.host := rfl
@[simp] theorem log_wait (e : Transfer) (s : State) : (State.log e s).wait = s.wait := rfl
@[simp] theorem log_trace (e : Transfer) (s : State) : (State.log e s).trace = e :: s.trace := rfl
@[simp] theorem log_reads (e : Transfer) (s : State) : (State.log e s).reads = s.reads := rfl
@[simp] theorem log_fresh (e : Transfer) (s : State) : (State.log e s).fresh = s.fresh := rfl

@[simp] theorem release_phase (s : State) : (release s).phase = s.phase := rfl
@[simp] theorem release_busy (s : State) : (release s).busy = s.busy := rfl
@[simp] theorem release_done (s : State) : (release s).done = s.done := rfl
@[simp] theorem release_err (s : State) : (release s).err = s.err := rfl
@[simp] theorem release_cmdreg (s : State) : (release s).cmdreg = s.cmdreg := rfl
@[simp] theorem release_fsize (s : State) : (release s).fsize = s.fsize := rfl
@[simp] theorem release_tsize (s : State) : (release s).tsize = s.tsize := rfl
@[simp] theorem release_symcnt (s : State) : (release s).symcnt = s.symcnt := rfl
@[simp] theorem release_wstart (s : State) : (release s).wstart = (Config.leftover s.fresh).wstart := rfl
@[simp] theorem release_root (s : State) : (release s).root = (Config.leftover s.fresh).root := rfl
@[simp] theorem release_i (s : State) : (release s).i = (Config.leftover s.fresh).i := rfl
@[simp] theorem release_j (s : State) : (release s).j = (Config.leftover s.fresh).j := rfl
@[simp] theorem release_m (s : State) : (release s).m = (Config.leftover s.fresh).m := rfl
@[simp] theorem release_cur (s : State) : (release s).cur = (Config.leftover s.fresh).cur := rfl
@[simp] theorem release_acc (s : State) : (release s).acc = (Config.leftover s.fresh).acc := rfl
@[simp] theorem release_nbits (s : State) : (release s).nbits = (Config.leftover s.fresh).nbits := rfl
@[simp] theorem release_cache (s : State) : (release s).cache = (Config.leftover s.fresh).cache := rfl
@[simp] theorem release_cbits (s : State) : (release s).cbits = (Config.leftover s.fresh).cbits := rfl
@[simp] theorem release_freq (s : State) : (release s).freq = (Config.leftover s.fresh).freq := rfl
@[simp] theorem release_key (s : State) : (release s).key = (Config.leftover s.fresh).key := rfl
@[simp] theorem release_tab (s : State) : (release s).tab = (Config.leftover s.fresh).tab := rfl
@[simp] theorem release_node (s : State) : (release s).node = (Config.leftover s.fresh).node := rfl
@[simp] theorem release_seq (s : State) : (release s).seq = (Config.leftover s.fresh).seq := rfl
@[simp] theorem release_code (s : State) : (release s).code = (Config.leftover s.fresh).code := rfl
@[simp] theorem release_hbuf (s : State) : (release s).hbuf = (Config.leftover s.fresh).hbuf := rfl
@[simp] theorem release_cgstk (s : State) : (release s).cgstk = (Config.leftover s.fresh).cgstk := rfl
@[simp] theorem release_cgsp (s : State) : (release s).cgsp = (Config.leftover s.fresh).cgsp := rfl
@[simp] theorem release_input (s : State) : (release s).input = s.input := rfl
@[simp] theorem release_output (s : State) : (release s).output = s.output := rfl
@[simp] theorem release_host (s : State) : (release s).host = s.host := rfl
@[simp] theorem release_wait (s : State) : (release s).wait = s.wait := rfl
@[simp] theorem release_trace (s : State) : (release s).trace = s.trace := rfl
@[simp] theorem release_reads (s : State) : (release s).reads = s.reads := rfl
@[simp] theorem release_fresh (s : State) : (release s).fresh = s.fresh + 1 := rfl

@[simp] theorem raiseError_phase (e : ErrKind) (s : State) : (raiseError e s).phase = .idle := rfl
@[simp] theorem raiseError_busy (e : ErrKind) (s : State) : (raiseError e s).busy = false := rfl
@[simp] theorem raiseError_done (e : ErrKind) (s : State) : (raiseError e s).done = false := rfl
@[simp] theorem raiseError_err (e : ErrKind) (s : State) : (raiseError e s).err = e := rfl
@[simp] theorem raiseError_cmdreg (e : ErrKind) (s : State) : (raiseError e s).cmdreg = s.cmdreg := rfl
@[simp] theorem raiseError_fsize (e : ErrKind) (s : State) : (raiseError e s).fsize = s.fsize := rfl
@[simp] theorem raiseError_tsize (e : ErrKind) (s : State) : (raiseError e s).tsize = s.tsize := rfl
@[simp] theorem raiseError_symcnt (e : ErrKind) (s : State) : (raiseError e s).symcnt = s.symcnt := rfl
@[simp] theorem raiseError_wstart (e : ErrKind) (s : State) : (raiseError e s).wstart = (Config.leftover s.fresh).wstart := rfl
@[simp] theorem raiseError_root (e : ErrKind) (s : State) : (raiseError e s).root = (Config.leftover s.fresh).root := rfl
@[simp] theorem raiseError_i (e : ErrKind) (s : State) : (raiseError e s).i = (Config.leftover s.fresh).i := rfl
@[simp] theorem raiseError_j (e : ErrKind) (s : State) : (raiseError e s).j = (Config.leftover s.fresh).j := rfl
@[simp] theorem raiseError_m (e : ErrKind) (s : State) : (raiseError e s).m = (Config.leftover s.fresh).m := rfl
@[simp] theorem raiseError_cur (e : ErrKind) (s : State) : (raiseError e s).cur = (Config.leftover s.fresh).cur := rfl
@[simp] theorem raiseError_acc (e : ErrKind) (s : State) : (raiseError e s).acc = (Config.leftover s.fresh).acc := rfl
@[simp] theorem raiseError_nbits (e : ErrKind) (s : State) : (raiseError e s).nbits = (Config.leftover s.fresh).nbits := rfl
@[simp] theorem raiseError_cache (e : ErrKind) (s : State) : (raiseError e s).cache = (Config.leftover s.fresh).cache := rfl
@[simp] theorem raiseError_cbits (e : ErrKind) (s : State) : (raiseError e s).cbits = (Config.leftover s.fresh).cbits := rfl
@[simp] theorem raiseError_freq (e : ErrKind) (s : State) : (raiseError e s).freq = (Config.leftover s.fresh).freq := rfl
@[simp] theorem raiseError_key (e : ErrKind) (s : State) : (raiseError e s).key = (Config.leftover s.fresh).key := rfl
@[simp] theorem raiseError_tab (e : ErrKind) (s : State) : (raiseError e s).tab = (Config.leftover s.fresh).tab := rfl
@[simp] theorem raiseError_node (e : ErrKind) (s : State) : (raiseError e s).node = (Config.leftover s.fresh).node := rfl
@[simp] theorem raiseError_seq (e : ErrKind) (s : State) : (raiseError e s).seq = (Config.leftover s.fresh).seq := rfl
@[simp] theorem raiseError_code (e : ErrKind) (s : State) : (raiseError e s).code = (Config.leftover s.fresh).code := rfl
@[simp] theorem raiseError_hbuf (e : ErrKind) (s : State) : (raiseError e s).hbuf = (Config.leftover s.fresh).hbuf := rfl
@[simp] theorem raiseError_cgstk (e : ErrKind) (s : State) : (raiseError e s).cgstk = (Config.leftover s.fresh).cgstk := rfl
@[simp] theorem raiseError_cgsp (e : ErrKind) (s : State) : (raiseError e s).cgsp = (Config.leftover s.fresh).cgsp := rfl
@[simp] theorem raiseError_input (e : ErrKind) (s : State) : (raiseError e s).input = s.input := rfl
@[simp] theorem raiseError_output (e : ErrKind) (s : State) : (raiseError e s).output = s.output := rfl
@[simp] theorem raiseError_host (e : ErrKind) (s : State) : (raiseError e s).host = s.host := rfl
@[simp] theorem raiseError_wait (e : ErrKind) (s : State) : (raiseError e s).wait = s.wait := rfl
@[simp] theorem raiseError_trace (e : ErrKind) (s : State) : (raiseError e s).trace = s.trace := rfl
@[simp] theorem raiseError_reads (e : ErrKind) (s : State) : (raiseError e s).reads = s.reads := rfl
@[simp] theorem raiseError_fresh (e : ErrKind) (s : State) : (raiseError e s).fresh = s.fresh + 1 := rfl

@[simp] theorem completeCommand_phase (s : State) : (completeCommand s).phase = .idle := rfl
@[simp] theorem completeCommand_busy (s : State) : (completeCommand s).busy = false := rfl
@[simp] theorem completeCommand_done (s : State) : (completeCommand s).done = true := rfl
@[simp] theorem completeCommand_err (s : State) : (completeCommand s).err = s.err := rfl
@[simp] theorem completeCommand_cmdreg (s : State) : (completeCommand s).cmdreg = s.cmdreg := rfl
@[simp] theorem completeCommand_fsize (s : State) : (completeCommand s).fsize = s.fsize := rfl
@[simp] theorem completeCommand_tsize (s : State) : (completeCommand s).tsize = s.tsize := rfl
@[simp] theorem completeCommand_symcnt (s : State) : (completeCommand s).symcnt = s.symcnt := rfl
@[simp] theorem completeCommand_wstart (s : State) : (completeCommand s).wstart = (Config.leftover s.fresh).wstart := rfl
@[simp] theorem completeCommand_root (s : State) : (completeCommand s).root = (Config.leftover s.fresh).root := rfl
@[simp] theorem completeCommand_i (s : State) : (completeCommand s).i = (Config.leftover s.fresh).i := rfl
@[simp] theorem completeCommand_j (s : State) : (completeCommand s).j = (Config.leftover s.fresh).j := rfl
@[simp] theorem completeCommand_m (s : State) : (completeCommand s).m = (Config.leftover s.fresh).m := rfl
@[simp] theorem completeCommand_cur (s : State) : (completeCommand s).cur = (Config.leftover s.fresh).cur := rfl
@[simp] theorem completeCommand_acc (s : State) : (completeCommand s).acc = (Config.leftover s.fresh).acc := rfl
@[simp] theorem completeCommand_nbits (s : State) : (completeCommand s).nbits = (Config.leftover s.fresh).nbits := rfl
@[simp] theorem completeCommand_cache (s : State) : (completeCommand s).cache = (Config.leftover s.fresh).cache := rfl
@[simp] theorem completeCommand_cbits (s : State) : (completeCommand s).cbits = (Config.leftover s.fresh).cbits := rfl
@[simp] theorem completeCommand_freq (s : State) : (completeCommand s).freq = (Config.leftover s.fresh).freq := rfl
@[simp] theorem completeCommand_key (s : State) : (completeCommand s).key = (Config.leftover s.fresh).key := rfl
@[simp] theorem completeCommand_tab (s : State) : (completeCommand s).tab = (Config.leftover s.fresh).tab := rfl
@[simp] theorem completeCommand_node (s : State) : (completeCommand s).node = (Config.leftover s.fresh).node := rfl
@[simp] theorem completeCommand_seq (s : State) : (completeCommand s).seq = (Config.leftover s.fresh).seq := rfl
@[simp] theorem completeCommand_code (s : State) : (completeCommand s).code = (Config.leftover s.fresh).code := rfl
@[simp] theorem completeCommand_hbuf (s : State) : (completeCommand s).hbuf = (Config.leftover s.fresh).hbuf := rfl
@[simp] theorem completeCommand_cgstk (s : State) : (completeCommand s).cgstk = (Config.leftover s.fresh).cgstk := rfl
@[simp] theorem completeCommand_cgsp (s : State) : (completeCommand s).cgsp = (Config.leftover s.fresh).cgsp := rfl
@[simp] theorem completeCommand_input (s : State) : (completeCommand s).input = s.input := rfl
@[simp] theorem completeCommand_output (s : State) : (completeCommand s).output = s.output := rfl
@[simp] theorem completeCommand_host (s : State) : (completeCommand s).host = s.host := rfl
@[simp] theorem completeCommand_wait (s : State) : (completeCommand s).wait = s.wait := rfl
@[simp] theorem completeCommand_trace (s : State) : (completeCommand s).trace = s.trace := rfl
@[simp] theorem completeCommand_reads (s : State) : (completeCommand s).reads = s.reads := rfl
@[simp] theorem completeCommand_fresh (s : State) : (completeCommand s).fresh = s.fresh + 1 := rfl

@[simp] theorem resetBlock_phase (s : State) : (resetBlock s).phase = .idle := rfl
@[simp] theorem resetBlock_busy (s : State) : (resetBlock s).busy = false := rfl
@[simp] theorem resetBlock_done (s : State) : (resetBlock s).done = false := rfl
@[simp] theorem resetBlock_err (s : State) : (resetBlock s).err = .none := rfl
@[simp] theorem resetBlock_cmdreg (s : State) : (resetBlock s).cmdreg = .none := rfl
@[simp] theorem resetBlock_fsize (s : State) : (resetBlock s).fsize = 0 := rfl
@[simp] theorem resetBlock_tsize (s : State) : (resetBlock s).tsize = 0 := rfl
@[simp] theorem resetBlock_symcnt (s : State) : (resetBlock s).symcnt = 0 := rfl
@[simp] theorem resetBlock_wstart (s : State) : (resetBlock s).wstart = (Config.leftover s.fresh).wstart := rfl
@[simp] theorem resetBlock_root (s : State) : (resetBlock s).root = (Config.leftover s.fresh).root := rfl
@[simp] theorem resetBlock_i (s : State) : (resetBlock s).i = (Config.leftover s.fresh).i := rfl
@[simp] theorem resetBlock_j (s : State) : (resetBlock s).j = (Config.leftover s.fresh).j := rfl
@[simp] theorem resetBlock_m (s : State) : (resetBlock s).m = (Config.leftover s.fresh).m := rfl
@[simp] theorem resetBlock_cur (s : State) : (resetBlock s).cur = (Config.leftover s.fresh).cur := rfl
@[simp] theorem resetBlock_acc (s : State) : (resetBlock s).acc = 0 := rfl
@[simp] theorem resetBlock_nbits (s : State) : (resetBlock s).nbits = 0 := rfl
@[simp] theorem resetBlock_cache (s : State) : (resetBlock s).cache = 0 := rfl
@[simp] theorem resetBlock_cbits (s : State) : (resetBlock s).cbits = 0 := rfl
@[simp] theorem resetBlock_freq (s : State) : (resetBlock s).freq = (Config.leftover s.fresh).freq := rfl
@[simp] theorem resetBlock_key (s : State) : (resetBlock s).key = (Config.leftover s.fresh).key := rfl
@[simp] theorem resetBlock_tab (s : State) : (resetBlock s).tab = (Config.leftover s.fresh).tab := rfl
@[simp] theorem resetBlock_node (s : State) : (resetBlock s).node = (Config.leftover s.fresh).node := rfl
@[simp] theorem resetBlock_seq (s : State) : (resetBlock s).seq = (Config.leftover s.fresh).seq := rfl
@[simp] theorem resetBlock_code (s : State) : (resetBlock s).code = (Config.leftover s.fresh).code := rfl
@[simp] theorem resetBlock_hbuf (s : State) : (resetBlock s).hbuf = (Config.leftover s.fresh).hbuf := rfl
@[simp] theorem resetBlock_cgstk (s : State) : (resetBlock s).cgstk = (Config.leftover s.fresh).cgstk := rfl
@[simp] theorem resetBlock_cgsp (s : State) : (resetBlock s).cgsp = (Config.leftover s.fresh).cgsp := rfl
@[simp] theorem resetBlock_input (s : State) : (resetBlock s).input = s.input := rfl
@[simp] theorem resetBlock_output (s : State) : (resetBlock s).output = s.output := rfl
@[simp] theorem resetBlock_host (s : State) : (resetBlock s).host = s.host := rfl
@[simp] theorem resetBlock_wait (s : State) : (resetBlock s).wait = none := rfl
@[simp] theorem resetBlock_trace (s : State) : (resetBlock s).trace = s.trace := rfl
@[simp] theorem resetBlock_reads (s : State) : (resetBlock s).reads = s.reads := rfl
@[simp] theorem resetBlock_fresh (s : State) : (resetBlock s).fresh = s.fresh + 1 := rfl

theorem acceptCommand_busy (c : CmdReg) (p : Phase) (s : State) (h : s.busy = true) : acceptCommand c p s = s := by
  simp [acceptCommand, h]

theorem acceptCommand_idle (c : CmdReg) (p : Phase) (s : State) (h : s.busy = false) :
    acceptCommand c p s = { s with cmdreg := c, busy := true, done := false, err := .none, phase := p } := by
  simp [acceptCommand, h]

end Sys2Proof.Machine
end

