-- ==== Sys2Proof/Laws/Run.lean ====
section
/-!
SUPPORT. What a piece of a phase can do, said once: a triple of postconditions for going on, stopping and faulting, with one rule
for sequencing, one for each loop, and one for a whole phase.
-/

namespace Sys2Proof.Machine

variable {α β : Type}

/-- r goes on only in ways Q allows, stops only in states H allows, and faults only as F allows. -/
def Run.Sat (r : Run α) (Q : α → State → Prop) (H : State → Prop) (F : Fault → Prop) : Prop :=
  match r with
  | .ok a s => Q a s
  | .halt s => H s
  | .fault f => F f

@[simp] theorem Run.sat_ok (a : α) (s : State) (Q H F) : (Run.ok a s).Sat Q H F ↔ Q a s := Iff.rfl
@[simp] theorem Run.sat_halt (s : State) (Q : α → State → Prop) (H F) : (Run.halt s).Sat Q H F ↔ H s := Iff.rfl
@[simp] theorem Run.sat_fault (f : Fault) (Q : α → State → Prop) (H F) : (Run.fault f).Sat Q H F ↔ F f := Iff.rfl
@[simp] theorem Run.sat_raise (e : ErrKind) (s : State) (Q : α → State → Prop) (H F) :
    (Run.raise e s).Sat Q H F ↔ H (raiseError e s) := Iff.rfl

@[simp] theorem Run.bind_ok (a : α) (s : State) (k : α → State → Run β) : (Run.ok a s).bind k = k a s := rfl
@[simp] theorem Run.bind_halt (s : State) (k : α → State → Run β) : (Run.halt s : Run α).bind k = .halt s := rfl
@[simp] theorem Run.bind_fault (f : Fault) (k : α → State → Run β) : (Run.fault f : Run α).bind k = .fault f := rfl
@[simp] theorem Run.bind_raise (e : ErrKind) (s : State) (k : α → State → Run β) :
    (Run.raise e s : Run α).bind k = .raise e s := rfl

theorem Run.Sat.mono {r : Run α} {Q Q' : α → State → Prop} {H H' : State → Prop} {F F' : Fault → Prop}
    (h : r.Sat Q H F) (hQ : ∀ a s, Q a s → Q' a s) (hH : ∀ s, H s → H' s) (hF : ∀ f, F f → F' f) : r.Sat Q' H' F' := by
  cases r with
  | ok a s => exact hQ a s h
  | halt s => exact hH s h
  | fault f => exact hF f h

/-- Sequencing. -/
theorem Run.Sat.bind {r : Run α} {k : α → State → Run β} {Q : α → State → Prop} {Q' : β → State → Prop}
    {H : State → Prop} {F : Fault → Prop} (h : r.Sat Q H F) (hk : ∀ a s, Q a s → (k a s).Sat Q' H F) :
    (r.bind k).Sat Q' H F := by
  cases r with
  | ok a s => exact hk a s h
  | halt s => exact h
  | fault f => exact h

/-- A counted loop, with an invariant indexed by what is left to do. -/
theorem Run.each_sat {body : α → State → Run Unit} {H : State → Prop} {F : Fault → Prop} (I : List α → State → Prop)
    (hb : ∀ a as s, I (a :: as) s → (body a s).Sat (fun _ t => I as t) H F) :
    ∀ (as : List α) (s : State), I as s → (Run.each as body s).Sat (fun _ t => I [] t) H F
  | [], _, h => h
  | a :: as, s, h => Run.Sat.bind (hb a as s h) fun _ t ht => Run.each_sat I hb as t ht

/-- A while loop, with an invariant; the fault at the end of the bound is allowed. -/
theorem Run.loop_sat {body : State → Run Bool} {Q : State → Prop} {H : State → Prop} {F : Fault → Prop} (I : State → Prop)
    (hf : F .loopBound)
    (hb : ∀ s, I s → (body s).Sat (fun again t => if again = true then I t else Q t) H F) :
    ∀ (n : Nat) (s : State), I s → (Run.loop n body s).Sat (fun _ t => Q t) H F
  | 0, _, _ => hf
  | n + 1, s, h => by
    have := hb s h
    unfold Run.loop
    cases hr : body s with
    | ok again t =>
      rw [hr] at this
      cases again with
      | true => exact Run.loop_sat I hf hb n t (by simpa using this)
      | false => simpa using this
    | halt t => rw [hr] at this; exact this
    | fault f => rw [hr] at this; exact this

/-- A while loop that ends within its bound: the measure is below the bound and every further round lowers it. -/
theorem Run.loop_sat_bounded {body : State → Run Bool} {Q : State → Prop} {H : State → Prop} {F : Fault → Prop}
    (I : State → Prop) (μ : State → Nat)
    (hb : ∀ s, I s → (body s).Sat (fun again t => if again = true then I t ∧ μ t < μ s else Q t) H F) :
    ∀ (n : Nat) (s : State), I s → μ s < n → (Run.loop n body s).Sat (fun _ t => Q t) H F
  | 0, _, _, h => absurd h (Nat.not_lt_zero _)
  | n + 1, s, h, hn => by
    have := hb s h
    unfold Run.loop
    cases hr : body s with
    | ok again t =>
      rw [hr] at this
      cases again with
      | true =>
        have h2 : I t ∧ μ t < μ s := by simpa using this
        exact Run.loop_sat_bounded I μ hb n t h2.1 (by omega)
      | false => simpa using this
    | halt t => rw [hr] at this; exact this
    | fault f => rw [hr] at this; exact this

/-- What a whole phase can do. -/
theorem runPhase_cases {body : State → Run Unit} {fin : State → State} {s t : State} (h : runPhase body fin s = .next t) :
    (∃ p, s.wait = some p ∧ t = s) ∨ (s.wait = none ∧ (body s).Sat (fun _ u => t = fin u) (fun u => t = u) (fun _ => False)) := by
  unfold runPhase at h
  cases hw : s.wait with
  | some p => rw [hw] at h; simp at h; exact .inl ⟨p, rfl, h.symm⟩
  | none =>
    rw [hw] at h
    refine .inr ⟨rfl, ?_⟩
    cases hb : body s with
    | ok a u => rw [hb] at h; simpa using h.symm
    | halt u => rw [hb] at h; simpa using h.symm
    | fault f => rw [hb] at h; simp at h

/-- A phase that the body's postconditions describe. -/
theorem runPhase_next {body : State → Run Unit} {fin : State → State} {s t : State} {Q H : State → Prop} {F : Fault → Prop}
    (hs : (body s).Sat (fun _ u => Q u) H F) (hw : s.wait = none) (h : runPhase body fin s = .next t) :
    (∃ u, Q u ∧ t = fin u) ∨ H t := by
  rcases runPhase_cases h with ⟨p, hp, -⟩ | ⟨-, hc⟩
  · simp [hw] at hp
  · cases hb : body s with
    | ok a u => rw [hb] at hs hc; exact .inl ⟨u, hs, hc⟩
    | halt u => rw [hb] at hs hc; simp at hc; subst hc; exact .inr hs
    | fault f => rw [hb] at hc; exact hc.elim

theorem runPhase_ok {body : State → Run Unit} {fin : State → State} {s t : State} (hw : s.wait = none)
    (hb : body s = .ok () t) : runPhase body fin s = .next (fin t) := by simp [runPhase, hw, hb]

theorem runPhase_halt {body : State → Run Unit} {fin : State → State} {s t : State} (hw : s.wait = none)
    (hb : body s = .halt t) : runPhase body fin s = .next t := by simp [runPhase, hw, hb]

theorem runPhase_raise {body : State → Run Unit} {fin : State → State} {s u : State} {e : ErrKind} (hw : s.wait = none)
    (hb : body s = .raise e u) : runPhase body fin s = .next (raiseError e u) := runPhase_halt hw hb

theorem runPhase_waiting {body : State → Run Unit} {fin : State → State} {s : State} {p : Prim} (hw : s.wait = some p) :
    runPhase body fin s = .next s := by simp [runPhase, hw]

/-- A phase faults only where its body does. -/
theorem runPhase_fault {body : State → Run Unit} {fin : State → State} {s : State} {f : Fault} {Q : Unit → State → Prop}
    {H : State → Prop} (hs : s.wait = none → (body s).Sat Q H (fun _ => False)) : runPhase body fin s ≠ .fault f := by
  unfold runPhase
  cases hw : s.wait with
  | some p => simp
  | none =>
    have := hs hw
    cases hb : body s with
    | ok a u => simp
    | halt u => simp
    | fault f => rw [hb] at this; exact this.elim

/-! ### Several steps -/

theorem steps_zero (s : State) : steps 0 s = .next s := rfl

theorem steps_succ {s t : State} {k : Nat} (h : step s = .next t) : steps (k + 1) s = steps k t := by
  have e : Sys2Proof.core.step s = .next t := h
  have h2 := Host.Core.run.eq_2 Sys2Proof.core s k
  rw [e] at h2
  exact h2

/-- The sequencer's turn runs the instruction of PHASE. -/
theorem step_phase {s : State} (h : s.host = []) : step s = exec s.phase.instr s := by
  simp only [step, h, runSequencer]
  cases s.phase <;> rfl

end Sys2Proof.Machine
end

