-- ==== Sys2Proof/Laws/Trees.lean ====
section
/-!
SUPPORT. Trees, their codes, the merge that builds them and the walk that reads them.
-/

namespace Sys2Proof.Machine

/-! ### Trees -/

theorem HTree.leaves_pos : ∀ t : HTree, 1 ≤ t.leaves
  | .leaf _ _ => Nat.le_refl _
  | .node _ l r => by have := l.leaves_pos; simp only [HTree.leaves]; omega

theorem HTree.depth_lt : ∀ t : HTree, t.depth + 1 ≤ t.leaves
  | .leaf _ _ => Nat.le_refl _
  | .node _ l r => by
    have h1 := l.depth_lt
    have h2 := r.depth_lt
    have h3 := l.leaves_pos
    have h4 := r.leaves_pos
    simp only [HTree.depth, HTree.leaves]
    omega

theorem HTree.values_length : ∀ t : HTree, t.values.length = t.leaves
  | .leaf _ _ => rfl
  | .node _ l r => by simp [HTree.values, HTree.leaves, l.values_length, r.values_length]

theorem HTree.path_isSome : ∀ (t : HTree) (b : Byte), (t.path b).isSome = true ↔ b ∈ t.values
  | .leaf _ v, b => by
    simp only [HTree.path, HTree.values, List.mem_singleton]
    by_cases h : v = b
    · simp [h]
    · simp [h, Ne.symm h]
  | .node _ l r, b => by
    have hl := l.path_isSome b
    have hr := r.path_isSome b
    simp only [HTree.path, HTree.values, List.mem_append]
    cases hp : r.path b with
    | some p => simp [hp] at hr; simp [hr]
    | none => simp [hp] at hr; simp [hr, hl]

theorem HTree.path_length : ∀ (t : HTree) (b : Byte) (p : List Bool), t.path b = some p → p.length ≤ t.depth
  | .leaf _ v, b, p, h => by
    simp only [HTree.path] at h
    split at h
    · cases h; simp
    · cases h
  | .node _ l r, b, p, h => by
    simp only [HTree.path] at h
    cases hp : r.path b with
    | some q =>
      simp only [hp, Option.some.injEq] at h
      have := r.path_length b q hp
      subst h
      simp only [HTree.depth, List.length_cons]
      omega
    | none =>
      simp only [hp, Option.map_eq_some_iff] at h
      obtain ⟨q, hq, rfl⟩ := h
      have := l.path_length b q hq
      simp only [HTree.depth, List.length_cons]
      omega

theorem HTree.path_ne_nil : ∀ (t : HTree) (b : Byte) (p : List Bool), 2 ≤ t.leaves → t.path b = some p → p ≠ []
  | .leaf _ _, _, _, h, _ => by simp [HTree.leaves] at h
  | .node _ l r, b, p, _, h => by
    simp only [HTree.path] at h
    cases hp : r.path b with
    | some q => simp only [hp, Option.some.injEq] at h; subst h; simp
    | none =>
      simp only [hp, Option.map_eq_some_iff] at h
      obtain ⟨q, hq, rfl⟩ := h
      simp

theorem HTree.path_prefix : ∀ (t : HTree) (a b : Byte) (p q : List Bool),
    t.path a = some p → t.path b = some q → p <+: q → a = b
  | .leaf _ v, a, b, p, q, hp, hq, _ => by
    simp only [HTree.path] at hp hq
    split at hp
    · split at hq
      · simp_all
      · cases hq
    · cases hp
  | .node _ l r, a, b, p, q, hp, hq, hpre => by
    simp only [HTree.path] at hp hq
    cases ha : r.path a with
    | some p' =>
      simp only [ha, Option.some.injEq] at hp
      subst hp
      cases hb : r.path b with
      | some q' =>
        simp only [hb, Option.some.injEq] at hq
        subst hq
        exact r.path_prefix a b p' q' ha hb (List.cons_prefix_cons.mp hpre).2
      | none =>
        simp only [hb, Option.map_eq_some_iff] at hq
        obtain ⟨q', -, rfl⟩ := hq
        exact absurd (List.cons_prefix_cons.mp hpre).1 (by simp)
    | none =>
      simp only [ha, Option.map_eq_some_iff] at hp
      obtain ⟨p', hp', rfl⟩ := hp
      cases hb : r.path b with
      | some q' =>
        simp only [hb, Option.some.injEq] at hq
        subst hq
        exact absurd (List.cons_prefix_cons.mp hpre).1 (by simp)
      | none =>
        simp only [hb, Option.map_eq_some_iff] at hq
        obtain ⟨q', hq', rfl⟩ := hq
        exact l.path_prefix a b p' q' hp' hq' (List.cons_prefix_cons.mp hpre).2

/-! ### The merge -/

theorem insertTree_perm (t : HTree) : ∀ ts : List HTree, (insertTree t ts).Perm (t :: ts)
  | [] => .refl _
  | u :: us => by
    unfold insertTree
    split
    · exact ((insertTree_perm t us).cons u).trans (.swap t u us)
    · exact .refl _

/-- Where the merged tree goes (R165). -/
theorem insertTree_split (t : HTree) : ∀ ts : List HTree, ∃ before after, ts = before ++ after ∧
    insertTree t ts = before ++ t :: after ∧ (∀ u ∈ before, u.weight.toNat < t.weight.toNat) ∧
    (∀ u, after.head? = some u → t.weight.toNat ≤ u.weight.toNat)
  | [] => ⟨[], [], rfl, rfl, by simp, by simp⟩
  | u :: us => by
    unfold insertTree
    split
    · rename_i h
      obtain ⟨x, y, h1, h2, h3, h4⟩ := insertTree_split t us
      refine ⟨u :: x, y, by simp [h1], by simp [h2], ?_, h4⟩
      intro v hv
      rcases List.mem_cons.mp hv with rfl | hv
      · exact h
      · exact h3 v hv
    · rename_i h
      exact ⟨[], u :: us, rfl, rfl, by simp, by simp; omega⟩

theorem mergeTrees_spec : ∀ (n : Nat) (ts : List HTree), ts.length = n + 1 →
    ∃ t, mergeTrees n ts = [t] ∧ t.leaves = (ts.map HTree.leaves).sum ∧ t.values.Perm (ts.flatMap HTree.values) ∧
      t.weight = (ts.map HTree.weight).sum
  | 0, ts, h => by
    obtain ⟨t, rfl⟩ := List.length_eq_one_iff.mp h
    exact ⟨t, by simp [mergeTrees], by simp, by simp, by simp⟩
  | n + 1, ts, h => by
    match ts, h with
    | a :: b :: rest, h =>
      have hp := insertTree_perm (.node (a.weight + b.weight) a b) rest
      obtain ⟨t, h1, h2, h3, h4⟩ := mergeTrees_spec n (insertTree (.node (a.weight + b.weight) a b) rest)
        (by rw [hp.length_eq]; simpa using h)
      refine ⟨t, by simpa [mergeTrees] using h1, ?_, ?_, ?_⟩
      · rw [h2, (hp.map HTree.leaves).sum_eq]
        simp [HTree.leaves, Nat.add_assoc]
      · refine h3.trans ((hp.flatMap_right HTree.values).trans ?_)
        simp [HTree.values]
      · rw [h4, (hp.map HTree.weight).sum_eq]
        simp [HTree.weight, BitVec.add_assoc]

theorem HTree.shape_weight (t : HTree) : t.shape.weight = t.weight := by cases t <;> rfl

theorem insertTree_shape (t : HTree) : ∀ ts : List HTree,
    insertTree t.shape (ts.map HTree.shape) = (insertTree t ts).map HTree.shape
  | [] => rfl
  | u :: us => by
    simp only [List.map_cons, insertTree, HTree.shape_weight]
    split
    · simp [insertTree_shape t us]
    · simp

theorem mergeTrees_shape : ∀ (n : Nat) (ts : List HTree),
    mergeTrees n (ts.map HTree.shape) = (mergeTrees n ts).map HTree.shape
  | 0, ts => by cases ts <;> simp [mergeTrees]
  | n + 1, [] => by simp [mergeTrees]
  | n + 1, [a] => by simp [mergeTrees]
  | n + 1, a :: b :: rest => by
    have := insertTree_shape (.node (a.weight + b.weight) a b) rest
    simp only [HTree.shape] at this
    simp only [List.map_cons, mergeTrees, HTree.shape_weight, this]
    exact mergeTrees_shape n _

theorem leafOf_values : ∀ table : List Word, (table.map leafOf).flatMap HTree.values = table.map unitValue
  | [] => rfl
  | u :: us => by simp [leafOf_values us, leafOf, HTree.values]

/-- The tree of a table of at least one unit. -/
theorem treeOf_spec {table : List Word} (h : table ≠ []) :
    ∃ t, treeOf table = some t ∧ mergeTrees (table.length - 1) (table.map leafOf) = [t] ∧ t.leaves = table.length ∧
      t.values.Perm (table.map unitValue) ∧ t.weight = (table.map unitFreq).sum := by
  have hl : (table.map leafOf).length = table.length - 1 + 1 := by
    have := List.length_pos_iff.mpr h
    simp; omega
  obtain ⟨t, h1, h2, h3, h4⟩ := mergeTrees_spec _ _ hl
  refine ⟨t, by simp [treeOf, h1], h1, ?_, ?_, ?_⟩
  · rw [h2, List.map_map]
    have : (HTree.leaves ∘ leafOf) = fun _ => 1 := rfl
    simp [this]
  · have : (table.map leafOf).flatMap HTree.values = table.map unitValue := leafOf_values table
    rwa [this] at h3
  · rw [h4, List.map_map]; rfl

/-! ### The walk -/

theorem walkTree_path (root : HTree) (need : Nat) (rest : List Bool) : ∀ (t : HTree) (b : Byte) (p : List Bool), t.path b = some p →
    p ≠ [] → walkTree root t (need + 1) (p ++ rest) =
      ⟨b :: (walkTree root root need rest).out, (walkTree root root need rest).used + p.length,
        (walkTree root root need rest).finished⟩
  | .leaf _ v, b, p, h, hne => by
    simp only [HTree.path] at h
    split at h
    · cases h; simp at hne
    · cases h
  | .node w l r, b, p, h, hne => by
    simp only [HTree.path] at h
    have key : ∀ (c : HTree) (bit : Bool) (q : List Bool), (HTree.node w l r).child bit = some c → c.path b = some q →
        walkTree root (.node w l r) (need + 1) (bit :: q ++ rest) =
          ⟨b :: (walkTree root root need rest).out, (walkTree root root need rest).used + (bit :: q).length,
            (walkTree root root need rest).finished⟩ ∨ q ≠ [] := by
      intro c bit q hc hq
      by_cases hqn : q = []
      · left
        subst hqn
        cases c with
        | leaf w' v' =>
          simp only [HTree.path] at hq
          split at hq
          · rename_i hv; subst hv
            simp [walkTree, hc]
          · cases hq
        | node w' l' r' => exact absurd rfl (HTree.path_ne_nil (.node w' l' r') b [] (by
            have := l'.leaves_pos; have := r'.leaves_pos; simp only [HTree.leaves]; omega) hq)
      · exact .inr hqn
    cases hp : r.path b with
    | some q =>
      simp only [hp, Option.some.injEq] at h
      subst h
      rcases key r true q rfl hp with hk | hk
      · exact hk
      · have ih := walkTree_path root need rest r b q hp hk
        cases r with
        | leaf w' v' =>
          simp only [HTree.path] at hp
          split at hp
          · cases hp; simp at hk
          · cases hp
        | node w' l' r' =>
          simp [walkTree, HTree.child, ih, Nat.add_assoc]
    | none =>
      simp only [hp, Option.map_eq_some_iff] at h
      obtain ⟨q, hq, rfl⟩ := h
      rcases key l false q rfl hq with hk | hk
      · exact hk
      · have ih := walkTree_path root need rest l b q hq hk
        cases l with
        | leaf w' v' =>
          simp only [HTree.path] at hq
          split at hq
          · cases hq; simp at hk
          · cases hq
        | node w' l' r' =>
          simp [walkTree, HTree.child, ih, Nat.add_assoc]

/-- Walking over the code bits of a byte string gives the string back (R141). -/
theorem walkTree_payload (t : HTree) (ht : 2 ≤ t.leaves) (rest : List Bool) : ∀ input : List Byte, (∀ b ∈ input, b ∈ t.values) →
    walkTree t t input.length (payloadBits t input ++ rest) = ⟨input, (payloadBits t input).length, true⟩
  | [], _ => by simp [walkTree, payloadBits]
  | b :: bs, h => by
    have hb : (t.path b).isSome = true := (t.path_isSome b).mpr (h b (by simp))
    obtain ⟨p, hp⟩ := Option.isSome_iff_exists.mp hb
    have hne := t.path_ne_nil b p ht hp
    have ih := walkTree_payload t ht rest bs fun x hx => h x (by simp [hx])
    have e : payloadBits t (b :: bs) = p ++ payloadBits t bs := by simp [payloadBits, hp]
    rw [e, List.append_assoc, List.length_cons, walkTree_path t bs.length _ t b p hp hne, ih]
    simp [Nat.add_comm]

/-- A walk cut short before its last bit does not finish, and what it gave is a proper part. -/
theorem walkTree_cut (root : HTree) (cs : List Bool) : ∀ (bs : List Bool) (cur : HTree) (need : Nat),
    (walkTree root cur need (bs ++ cs)).finished = true → bs.length < (walkTree root cur need (bs ++ cs)).used →
    (walkTree root cur need bs).finished = false ∧ (walkTree root cur need bs).out <+: (walkTree root cur need (bs ++ cs)).out ∧
      (walkTree root cur need bs).out ≠ (walkTree root cur need (bs ++ cs)).out
  | bs, cur, 0, _, h => by simp [walkTree] at h
  | [], cur, need + 1, hf, hu => by
    have hne : (walkTree root cur (need + 1) ([] ++ cs)).out ≠ [] := by
      simp only [List.nil_append] at hf ⊢
      clear hu
      induction cs generalizing cur with
      | nil => simp [walkTree] at hf
      | cons c cs ih =>
        match hc : cur.child c with
        | none => simp [walkTree, hc] at hf
        | some (.leaf _ v) => simp [walkTree, hc]
        | some (.node w x y) => simp [walkTree, hc] at hf ⊢; exact ih _ hf
    refine ⟨by simp [walkTree], by simp [walkTree], ?_⟩
    simp only [walkTree]
    exact fun h => hne h.symm
  | b :: bs, cur, need + 1, hf, hu => by
    match hc : cur.child b with
    | none => simp [walkTree, hc] at hf
    | some (.leaf _ v) =>
      simp only [List.cons_append, walkTree, hc, List.length_cons] at hf hu ⊢
      obtain ⟨h1, h2, h3⟩ := walkTree_cut root cs bs root need hf (by omega)
      exact ⟨h1, by simpa using h2, by simpa using h3⟩
    | some (.node w x y) =>
      simp only [List.cons_append, walkTree, hc, List.length_cons] at hf hu ⊢
      exact walkTree_cut root cs bs _ (need + 1) hf (by omega)

/-- A walk gives at most the wanted number of symbols, exactly that number if it finishes. -/
theorem walkTree_out (root : HTree) : ∀ (bs : List Bool) (cur : HTree) (need : Nat),
    ((walkTree root cur need bs).finished = true → (walkTree root cur need bs).out.length = need) ∧
    ((walkTree root cur need bs).finished = false → (walkTree root cur need bs).out.length < need) ∧
    (walkTree root cur need bs).used ≤ bs.length
  | bs, cur, 0 => by simp [walkTree]
  | [], cur, need + 1 => by simp [walkTree]
  | b :: bs, cur, need + 1 => by
    match hc : cur.child b with
    | none => simp [walkTree, hc]
    | some (.leaf _ v) =>
      obtain ⟨h1, h2, h3⟩ := walkTree_out root bs root need
      simp only [walkTree, hc, List.length_cons]
      exact ⟨fun h => by rw [h1 h], fun h => by have := h2 h; omega, by omega⟩
    | some (.node w x y) =>
      obtain ⟨h1, h2, h3⟩ := walkTree_out root bs (.node w x y) (need + 1)
      simp only [walkTree, hc, List.length_cons]
      exact ⟨h1, h2, by omega⟩

end Sys2Proof.Machine
end

