-- ==== Sys2Proof/Laws/CodeGenerator.lean ====
section
/-!
SUPPORT. CGEN's traversal (R180 to R184) on a NODE memory that holds a tree: its length, its stack and the codes it assigns.
-/

namespace Sys2Proof.Machine

/-- The codes of a subtree entered at this level and position, left to right (R180 to R182). -/
def assignCodes : HTree → BitVec 8 → Path → Vector CodeEntry 256 → Vector CodeEntry 256
  | .leaf _ v, level, pos, code => code.set v.toNat ⟨true, level, pos⟩
  | .node _ l r, level, pos, code =>
    assignCodes r (level + 1) (pathStep pos true) (assignCodes l (level + 1) (pathStep pos false) code)

theorem pushNode_ok {s : State} (k : NodeIx) (level : BitVec 8) (pos : Path) (h : s.cgsp.val < 256) :
    pushNode k level pos s = .ok ()
      { s with cgstk := s.cgstk.set s.cgsp.val ⟨k, level, pos⟩, cgsp := ⟨s.cgsp.val + 1, by omega⟩ } := by
  simp [pushNode, h]

/-- One subtree, from the round that pops its root to the round that has popped its last leaf. -/
theorem visit_tree : ∀ (tree : HTree) (k : NodeIx) (level : BitVec 8) (pos : Path) (c : Nat) (s : State) (fuel : Nat)
    (hc : c < 256), s.cgsp.val = c + 1 → s.cgstk[c] = ⟨k, level, pos⟩ → Represents s.node k tree →
    c + tree.depth + 1 ≤ 256 →
    ∃ stk : Vector StackEntry 256, Run.loop (2 * tree.leaves - 1 + fuel) visitNode s =
        Run.loop fuel visitNode
          { s with code := assignCodes tree level pos s.code, cgstk := stk, cgsp := ⟨c, by omega⟩ } ∧
      ∀ i (hi : i < c), stk[i] = s.cgstk[i]
  | .leaf w v, k, level, pos, c, s, fuel, hc, h1, h2, h3, _ => by
    refine ⟨s.cgstk, ?_, fun _ _ => rfl⟩
    have e : 2 * (HTree.leaf w v).leaves - 1 + fuel = fuel + 1 := by simp only [HTree.leaves]; omega
    have hk : s.node[k] = .leaf w v := h3
    have hv : visitNode s = .ok true
        { s with code := s.code.set v.toNat ⟨true, level, pos⟩, cgsp := ⟨c, by omega⟩ } := by
      unfold visitNode
      rw [dif_neg (by omega)]
      simp only [h1, Nat.add_sub_cancel, h2, hk]
    rw [e, Run.loop, hv]
    rfl
  | .node w l r, k, level, pos, c, s, fuel, hc, h1, h2, ⟨a, b, hk, hl, hr⟩, hd => by
    have hdl : c + 1 + l.depth + 1 ≤ 256 := by simp only [HTree.depth] at hd; omega
    have hdr : c + r.depth + 1 ≤ 256 := by simp only [HTree.depth] at hd; omega
    have hl1 := l.leaves_pos
    have hr1 := r.leaves_pos
    obtain ⟨stk1, e1, k1⟩ := visit_tree l a (level + 1) (pathStep pos false) (c + 1)
      { s with
        cgstk := (s.cgstk.set c ⟨b, level + 1, pathStep pos true⟩).set (c + 1) ⟨a, level + 1, pathStep pos false⟩
        cgsp := ⟨c + 2, by omega⟩ } (2 * r.leaves - 1 + fuel) (by omega) rfl (by simp) hl hdl
    obtain ⟨stk2, e2, k2⟩ := visit_tree r b (level + 1) (pathStep pos true) c
      { s with
        code := assignCodes l (level + 1) (pathStep pos false) s.code
        cgstk := stk1
        cgsp := ⟨c + 1, by omega⟩ } fuel hc rfl (by rw [k1 c (by omega)]; simp) hr hdr
    refine ⟨stk2, ?_, fun i hi => ?_⟩
    · have e : 2 * (HTree.node w l r).leaves - 1 + fuel = 2 * l.leaves - 1 + (2 * r.leaves - 1 + fuel) + 1 := by
        simp only [HTree.leaves]; omega
      have hv : visitNode s = .ok true { s with
          cgstk := (s.cgstk.set c ⟨b, level + 1, pathStep pos true⟩).set (c + 1) ⟨a, level + 1, pathStep pos false⟩
          cgsp := ⟨c + 2, by omega⟩ } := by
        unfold visitNode
        rw [dif_neg (by omega)]
        simp only [h1, Nat.add_sub_cancel, h2, hk]
        rw [pushNode_ok (s := { s with cgsp := ⟨c, by omega⟩ }) _ _ _ hc, Run.bind_ok,
          pushNode_ok (s := { s with cgsp := ⟨c + 1, by omega⟩,
                                     cgstk := s.cgstk.set c ⟨b, level + 1, pathStep pos true⟩ }) _ _ _
            (by show c + 1 < 256; omega), Run.bind_ok]
      rw [e, Run.loop, hv]
      exact e1.trans e2
    · rw [k2 i hi, k1 i (by omega)]
      show ((s.cgstk.set c _).set (c + 1) _)[i] = _
      rw [Vector.getElem_set_ne _ _ (by omega), Vector.getElem_set_ne _ _ (by omega)]

/-- The code that the traversal gives a byte value: that of its path. -/
theorem assignCodes_get : ∀ (tree : HTree) (level : BitVec 8) (pos : Path) (code : Vector CodeEntry 256) (b : Byte),
    (assignCodes tree level pos code)[b.toNat] =
      match tree.path b with
      | some p => ⟨true, level + BitVec.ofNat 8 p.length, p.foldl pathStep pos⟩
      | none => code[b.toNat]
  | .leaf w v, level, pos, code, b => by
    simp only [assignCodes, HTree.path, Vector.getElem_set]
    by_cases h : v = b
    · subst h; simp
    · have : v.toNat ≠ b.toNat := fun h2 => h (BitVec.eq_of_toNat_eq h2)
      simp [h, this]
  | .node w l r, level, pos, code, b => by
    have step : ∀ n : Nat, level + 1 + BitVec.ofNat 8 n = level + BitVec.ofNat 8 (n + 1) := by
      intro n
      rw [BitVec.ofNat_add, show BitVec.ofNat 8 1 = 1 from rfl]
      ac_rfl
    simp only [assignCodes, HTree.path, assignCodes_get r, assignCodes_get l]
    cases hr : r.path b with
    | some p => simp; exact step _
    | none =>
      cases hl : l.path b with
      | some p => simp; exact step _
      | none => simp

/-- The position of a path: its bits are the path's. -/
theorem pathBits_foldl : ∀ (p : List Bool) (n : Nat) (pos : Path), n + p.length ≤ 255 → pos.toNat < 2 ^ n →
    pathBits (n + p.length) (p.foldl pathStep pos) = pathBits n pos ++ p ∧ (p.foldl pathStep pos).toNat < 2 ^ (n + p.length)
  | [], n, pos, _, h => by simp [h]
  | b :: bs, n, pos, hl, h => by
    simp only [List.length_cons] at hl
    obtain ⟨h1, h2⟩ := pathBits_foldl bs (n + 1) (pathStep pos b) (by omega) (pathStep_lt pos b n (by omega) h)
    have e : n + (b :: bs).length = n + 1 + bs.length := by simp only [List.length_cons]; omega
    rw [e, List.foldl_cons]
    refine ⟨?_, h2⟩
    rw [h1, pathBits_step n pos b (by omega)]
    simp

/-- After the valid bits are cleared, the traversal leaves the codes of the tree (R180, R183). -/
theorem assignCodes_holds (tree : HTree) (code : Vector CodeEntry 256) (h : tree.leaves ≤ 256)
    (hcode : ∀ b : Byte, (code[b.toNat]).valid = false) : HoldsCodes (assignCodes tree 0 0 code) tree := by
  intro b
  rw [assignCodes_get]
  cases hp : tree.path b with
  | none => exact hcode b
  | some p =>
    have hl := tree.path_length b p hp
    have hd := tree.depth_lt
    have hlen : ((0 : BitVec 8) + BitVec.ofNat 8 p.length).toNat = p.length := by simp; omega
    obtain ⟨h1, h2⟩ := pathBits_foldl p 0 0 (by omega) (by simp)
    rw [Nat.zero_add] at h1 h2
    have e0 : pathBits 0 (0 : Path) = [] := rfl
    refine ⟨rfl, hlen, ?_, h2⟩
    rw [codeBits_eq]
    simp only [hlen]
    rw [h1, e0, List.nil_append]

/-- CGEN's effect (R180): the codes of the tree, an empty stack, all else untouched. -/
theorem cgenBody_ok {s : State} {tree : HTree} (h : Represents s.node s.root tree) (hl : tree.leaves ≤ 256) :
    ∃ (code : Vector CodeEntry 256) (stk : Vector StackEntry 256),
      cgenBody s = .ok () { s with code := code, cgstk := stk, cgsp := 0 } ∧ HoldsCodes code tree := by
  have hd := tree.depth_lt
  have hp := tree.leaves_pos
  obtain ⟨stk, h1, -⟩ := visit_tree tree s.root 0 0 0
    { s with
      code := s.code.map fun c => { c with valid := false }
      cgstk := s.cgstk.set 0 ⟨s.root, 0, 0⟩
      cgsp := ⟨1, by omega⟩ } (513 - 2 * tree.leaves) (by omega) rfl (by simp) h (by omega)
  have e : 2 * tree.leaves - 1 + (513 - 2 * tree.leaves) = 512 := by omega
  rw [e] at h1
  refine ⟨assignCodes tree 0 0 (s.code.map fun c => { c with valid := false }), stk, ?_,
    assignCodes_holds tree _ hl fun b => by simp⟩
  unfold cgenBody
  rw [pushNode_ok (s := { s with code := s.code.map fun c => { c with valid := false }, cgsp := 0 }) _ _ _
    (by show (0 : Nat) < 256; omega), Run.bind_ok]
  refine Eq.trans h1 ?_
  obtain ⟨f, hf⟩ : ∃ f, 513 - 2 * tree.leaves = f + 1 := ⟨512 - 2 * tree.leaves, by omega⟩
  rw [hf, Run.loop]
  rfl

end Sys2Proof.Machine
end

