-- ==== Sys2Proof/Laws/Streams.lean ====
section
/-!
SUPPORT. The stream primitives: exactly what they do while the streams answer, and all they can do whatever the streams do.
-/

namespace Sys2Proof.Machine

/-! ### Answers and the unread input -/

theorem AllOk.nil : AllOk [] := by intro a ha; simp at ha

theorem AllOk.drop {l : List Answer} (h : AllOk l) (n : Nat) : AllOk (l.drop n) := fun a ha => h a (List.mem_of_mem_drop ha)

theorem unread_length (s : State) : s.unread.length = s.input.data.length - s.input.pos := by simp [State.unread]

theorem unread_cons {s : State} {b : Byte} {rest : List Byte} (h : s.unread = b :: rest) :
    s.input.pos < s.input.data.length ∧ s.input.data[s.input.pos]? = some b ∧
      s.input.data.drop (s.input.pos + 1) = rest := by
  have hlen : s.input.pos < s.input.data.length := by
    have := congrArg List.length h
    simp [State.unread] at this
    omega
  have h2 : s.input.data.drop s.input.pos = s.input.data[s.input.pos] :: s.input.data.drop (s.input.pos + 1) :=
    List.drop_eq_getElem_cons hlen
  unfold State.unread at h
  rw [h2] at h
  injection h with h3 h4
  exact ⟨hlen, by simp [List.getElem?_eq_getElem hlen, h3], h4⟩

theorem unread_nil {s : State} (h : s.unread = []) (hp : s.input.pos ≤ s.input.data.length) :
    s.input.pos = s.input.data.length := by
  have := congrArg List.length h
  simp [State.unread] at this
  omega

/-! ### While the streams answer -/

theorem askIn_ok {p : Prim} {s : State} (h : AllOk s.input.answers) :
    askIn p s = .ok () { s with input := { s.input with answers := s.input.answers.drop 1 } } := by
  unfold askIn
  match ha : s.input.answers with
  | [] =>
    have hd : s.input.answers = List.drop 1 [] := ha
    rw [← hd]
  | .ok :: rest => simp
  | .err :: rest => exact absurd (h .err (by simp [ha])) (by simp)
  | .never :: rest => exact absurd (h .never (by simp [ha])) (by simp)

theorem askOut_ok {p : Prim} {s : State} (h : AllOk s.output.answers) :
    askOut p s = .ok () { s with output := { s.output with answers := s.output.answers.drop 1 } } := by
  unfold askOut
  match ha : s.output.answers with
  | [] =>
    have hd : s.output.answers = List.drop 1 [] := ha
    rw [← hd]
  | .ok :: rest => simp
  | .err :: rest => exact absurd (h .err (by simp [ha])) (by simp)
  | .never :: rest => exact absurd (h .never (by simp [ha])) (by simp)

theorem inAtEnd_ok {s : State} (h : AllOk s.input.answers) :
    inAtEnd s = .ok (decide (s.input.pos = s.input.data.length)) { s with
      input := { s.input with answers := s.input.answers.drop 1 }
      trace := .atEnd (decide (s.input.pos = s.input.data.length)) :: s.trace } := by
  simp [inAtEnd, askIn_ok h, State.log]

theorem inRewind_ok {s : State} (h : AllOk s.input.answers) :
    inRewind s = .ok () { s with
      input :=
        { data := s.input.passes.headD s.input.data, pos := 0, passes := s.input.passes.tail,
          answers := s.input.answers.drop 1 }
      trace := .rewound :: s.trace } := by
  simp [inRewind, askIn_ok h, State.log]

theorem outWrite_ok {s : State} (b : Byte) (h : AllOk s.output.answers) :
    outWrite b s = .ok () { s with
      output := { data := s.output.data ++ [b], answers := s.output.answers.drop 1 }
      trace := .wrote b :: s.trace } := by
  simp [outWrite, askOut_ok h, State.log]

/-- A byte is there: it is tested for, then read. -/
theorem inNext_some {s : State} {b : Byte} {rest : List Byte} (h : AllOk s.input.answers) (hu : s.unread = b :: rest) :
    inNext s = .ok (some b) { s with
      input := { s.input with pos := s.input.pos + 1, answers := s.input.answers.drop 2 }
      trace := .read b :: .atEnd false :: s.trace } := by
  obtain ⟨hlt, hget, -⟩ := unread_cons hu
  have hne : s.input.pos ≠ s.input.data.length := by omega
  have h1 : AllOk (s.input.answers.drop 1) := h.drop 1
  simp only [inNext, inAtEnd_ok h, Run.bind_ok, hne, decide_false, Bool.false_eq_true, if_false, inRead]
  rw [askIn_ok (by simpa using h1)]
  simp [State.log, hget]

/-- The input is at its end: only the test is made. -/
theorem inNext_none {s : State} (h : AllOk s.input.answers) (hu : s.input.pos = s.input.data.length) :
    inNext s = .ok none { s with
      input := { s.input with answers := s.input.answers.drop 1 }
      trace := .atEnd true :: s.trace } := by
  simp [inNext, inAtEnd_ok h, hu]

@[simp] theorem readTrace_nil : readTrace [] = [] := rfl

theorem readTrace_cons (b : Byte) (bs : List Byte) : readTrace (b :: bs) = readTrace bs ++ [.read b, .atEnd false] := by
  simp [readTrace]

theorem inReadN_ok : ∀ (n : Nat) (s : State), AllOk s.input.answers → n ≤ s.unread.length →
    inReadN n s = .ok (s.unread.take n) { s with
      input := { s.input with pos := s.input.pos + n, answers := s.input.answers.drop (2 * n) }
      trace := readTrace (s.unread.take n) ++ s.trace }
  | 0, s, _, _ => by simp [inReadN]
  | n + 1, s, h, hn => by
    match hu : s.unread with
    | [] => rw [hu] at hn; simp at hn
    | b :: rest =>
      obtain ⟨-, -, hrest⟩ := unread_cons hu
      rw [hu] at hn
      simp only [inReadN, inNext_some h hu, Run.bind_ok]
      rw [inReadN_ok n _ (by simpa using h.drop 2) (by simp [State.unread, hrest]; simpa using hn)]
      simp [State.unread, hrest, readTrace_cons, Nat.add_assoc, Nat.add_comm 1 n, Nat.mul_add, Nat.add_comm 2]

theorem inReadN_short : ∀ (n : Nat) (s : State), AllOk s.input.answers → s.input.pos ≤ s.input.data.length →
    s.unread.length < n →
    inReadN n s = .ok s.unread { s with
      input := { s.input with pos := s.input.data.length, answers := s.input.answers.drop (2 * s.unread.length + 1) }
      trace := .atEnd true :: (readTrace s.unread ++ s.trace) }
  | 0, s, _, _, hn => by simp at hn
  | n + 1, s, h, hp, hn => by
    match hu : s.unread with
    | [] =>
      have := unread_nil hu hp
      simp only [inReadN, inNext_none h this, Run.bind_ok]
      simp [← this]
    | b :: rest =>
      obtain ⟨hlt, -, hrest⟩ := unread_cons hu
      rw [hu] at hn
      simp only [inReadN, inNext_some h hu, Run.bind_ok]
      rw [inReadN_short n _ (by simpa using h.drop 2) (by simpa using hlt) (by simp [State.unread, hrest]; simpa using hn)]
      have e : 2 + (2 * rest.length + 1) = 2 * (rest.length + 1) + 1 := by omega
      simp [State.unread, hrest, readTrace_cons, e]

theorem writeBytes_ok : ∀ (bs : List Byte) (s : State), AllOk s.output.answers →
    writeBytes bs s = .ok () { s with
      output := { data := s.output.data ++ bs, answers := s.output.answers.drop bs.length }
      trace := bs.reverse.map .wrote ++ s.trace }
  | [], s, _ => by simp [writeBytes, Run.each]
  | b :: bs, s, h => by
    have ih := writeBytes_ok bs { s with
      output := { data := s.output.data ++ [b], answers := s.output.answers.drop 1 }
      trace := .wrote b :: s.trace } (h.drop 1)
    simp only [writeBytes, Run.each, outWrite_ok b h, Run.bind_ok] at ih ⊢
    rw [ih]
    simp only [List.append_assoc, List.singleton_append, List.drop_drop, List.length_cons, Nat.add_comm bs.length,
      List.reverse_cons, List.map_append, List.map_cons, List.map_nil]

/-- The output fails at the k-th byte: the k bytes before it are written (R259). -/
theorem writeBytes_fail : ∀ (bs : List Byte) (k : Nat) (rest : List Answer) (s : State), k < bs.length →
    s.output.answers = List.replicate k .ok ++ .err :: rest →
    ∃ trace, writeBytes bs s = .raise .io { s with
      output := { data := s.output.data ++ bs.take k, answers := rest }, trace := trace }
  | [], k, _, _, hk, _ => by simp at hk
  | b :: bs, 0, rest, s, _, ha => by
    have ha' : s.output.answers = .err :: rest := by simpa using ha
    refine ⟨.failed (.outWrite b) :: s.trace, ?_⟩
    simp only [writeBytes, Run.each, outWrite, askOut, ha', Run.bind_raise]
    simp [State.log]
  | b :: bs, k + 1, rest, s, hk, ha => by
    have ha' : s.output.answers = .ok :: (List.replicate k .ok ++ .err :: rest) := by simpa [List.replicate_succ] using ha
    obtain ⟨trace, ih⟩ := writeBytes_fail bs k rest { s with
      output := { data := s.output.data ++ [b], answers := List.replicate k .ok ++ .err :: rest }
      trace := .wrote b :: s.trace } (by simpa using hk) rfl
    refine ⟨trace, ?_⟩
    have e : outWrite b s = .ok () { s with
        output := { data := s.output.data ++ [b], answers := List.replicate k .ok ++ .err :: rest }
        trace := .wrote b :: s.trace } := by
      simp [outWrite, askOut, ha', State.log]
    simp only [writeBytes, Run.each, e, Run.bind_ok] at ih ⊢
    rw [ih]
    simp

/-! ### Whatever the streams do -/

/-- The block stops at u: an unanswered primitive, or the raise of an error that E allows. -/
def StopsAt (E : ErrKind → Prop) (u t : State) : Prop :=
  (∃ p, t = { u with wait := some p }) ∨ (∃ e, E e ∧ t = raiseError e u)

/-- What the input side can have done between s and t. -/
structure InMoved (s t : State) : Prop where
  eq : t = { s with input := { s.input with pos := t.input.pos, answers := t.input.answers }, trace := t.trace }
  mono : s.input.pos ≤ t.input.pos
  bound : s.input.pos ≤ s.input.data.length → t.input.pos ≤ s.input.data.length

theorem InMoved.refl (s : State) : InMoved s s := ⟨rfl, Nat.le_refl _, id⟩

theorem InMoved.trans {s t u : State} (h1 : InMoved s t) (h2 : InMoved t u) : InMoved s u := by
  obtain ⟨e1, m1, b1⟩ := h1
  obtain ⟨e2, m2, b2⟩ := h2
  have hd : t.input.data = s.input.data := by rw [e1]
  refine ⟨?_, Nat.le_trans m1 m2, fun h => ?_⟩
  · rw [e2, e1]
  · rw [hd] at b2; exact b2 (b1 h)

/-- What the output side can have done between s and t. -/
structure OutMoved (s t : State) : Prop where
  eq : t = { s with output := t.output, trace := t.trace }
  more : ∃ bs, t.output.data = s.output.data ++ bs

theorem OutMoved.refl (s : State) : OutMoved s s := ⟨rfl, [], by simp⟩

theorem OutMoved.trans {s t u : State} (h1 : OutMoved s t) (h2 : OutMoved t u) : OutMoved s u := by
  obtain ⟨e1, b1, m1⟩ := h1
  obtain ⟨e2, b2, m2⟩ := h2
  exact ⟨by rw [e2, e1], b1 ++ b2, by rw [m2, m1, List.append_assoc]⟩

theorem askIn_sat (p : Prim) (s : State) :
    (askIn p s).Sat (fun _ t => InMoved s t ∧ t.input.pos = s.input.pos)
      (fun t => ∃ u, InMoved s u ∧ StopsAt (· = .io) u t) (fun _ => False) := by
  unfold askIn
  match ha : s.input.answers with
  | [] => exact ⟨.refl s, rfl⟩
  | .ok :: rest => exact ⟨⟨rfl, Nat.le_refl _, id⟩, rfl⟩
  | .err :: rest =>
    exact ⟨State.log (.failed p) { s with input := { s.input with answers := rest } }, ⟨rfl, Nat.le_refl _, id⟩,
      .inr ⟨.io, rfl, rfl⟩⟩
  | .never :: rest =>
    exact ⟨{ s with input := { s.input with answers := rest } }, ⟨rfl, Nat.le_refl _, id⟩, .inl ⟨p, rfl⟩⟩

theorem askOut_sat (p : Prim) (s : State) :
    (askOut p s).Sat (fun _ t => OutMoved s t) (fun t => ∃ u, OutMoved s u ∧ StopsAt (· = .io) u t) (fun _ => False) := by
  unfold askOut
  match ha : s.output.answers with
  | [] => exact .refl s
  | .ok :: rest => exact ⟨rfl, [], by simp⟩
  | .err :: rest =>
    exact ⟨State.log (.failed p) { s with output := { s.output with answers := rest } }, ⟨rfl, [], by simp⟩,
      .inr ⟨.io, rfl, rfl⟩⟩
  | .never :: rest =>
    exact ⟨{ s with output := { s.output with answers := rest } }, ⟨rfl, [], by simp⟩, .inl ⟨p, rfl⟩⟩

theorem outWrite_sat (b : Byte) (s : State) :
    (outWrite b s).Sat (fun _ t => OutMoved s t) (fun t => ∃ u, OutMoved s u ∧ StopsAt (· = .io) u t) (fun _ => False) :=
  (askOut_sat _ s).bind fun _ t ht => by
    simp only [Run.sat_ok]
    exact ht.trans ⟨rfl, [b], by simp [State.log]⟩

theorem inNext_sat (s : State) :
    (inNext s).Sat
      (fun b t => InMoved s t ∧ (b = none → s.input.pos = s.input.data.length) ∧
        (∀ x, b = some x → s.input.pos < s.input.data.length ∧ t.input.pos = s.input.pos + 1 ∧
          s.input.data[s.input.pos]? = some x))
      (fun t => ∃ u, InMoved s u ∧ StopsAt (· = .io) u t)
      (fun _ => s.input.data.length < s.input.pos) := by
  refine Run.Sat.bind (Q := fun e t => InMoved s t ∧ t.input.pos = s.input.pos ∧
    e = decide (s.input.pos = s.input.data.length)) ?_ ?_
  · refine Run.Sat.bind ((askIn_sat .inAtEnd s).mono (fun _ _ h => h) (fun _ h => h) (fun _ h => h.elim)) ?_
    rintro - t ⟨hm, hp⟩
    simp only [Run.sat_ok]
    have hd : t.input.data = s.input.data := by rw [hm.eq]
    exact ⟨hm.trans ⟨rfl, Nat.le_refl _, id⟩, hp, by simp [hp, hd]⟩
  · rintro e t ⟨hm, hp, he⟩
    by_cases hend : s.input.pos = s.input.data.length
    · simp [he, hend, hm]
    · simp only [he, hend, decide_false, Bool.false_eq_true, if_false]
      have hd : t.input.data = s.input.data := by rw [hm.eq]
      refine Run.Sat.bind (Q := fun b u => InMoved s u ∧ s.input.pos < s.input.data.length ∧
        u.input.pos = s.input.pos + 1 ∧ s.input.data[s.input.pos]? = some b) ?_ ?_
      · refine Run.Sat.bind ((askIn_sat .inRead t).mono (fun _ _ h => h)
          (fun v ⟨u, hu, hs⟩ => ⟨u, hm.trans hu, hs⟩) (fun _ h => h.elim)) ?_
        rintro - u ⟨hu, hpu⟩
        have hdu : u.input.data = s.input.data := by rw [hu.eq]; exact hd
        match hg : u.input.data[u.input.pos]? with
        | none =>
          simp only [Run.sat_fault]
          rw [List.getElem?_eq_none_iff] at hg
          rw [hdu, hpu, hp] at hg
          omega
        | some b =>
          simp only [Run.sat_ok]
          have hlt : s.input.pos < s.input.data.length := by
            have := List.getElem?_eq_some_iff.mp hg
            obtain ⟨h1, -⟩ := this
            rw [hdu, hpu, hp] at h1
            exact h1
          rw [hdu, hpu, hp] at hg
          refine ⟨(hm.trans hu).trans ⟨rfl, by simp [State.log], fun _ => by simp [State.log]; rw [hdu, hpu, hp]; omega⟩,
            hlt, by simp [State.log, hpu, hp], hg⟩
      · rintro b u ⟨h1, h2, h3, h4⟩
        simp only [Run.sat_ok]
        exact ⟨h1, by simp, by rintro x ⟨⟩; exact ⟨h2, h3, h4⟩⟩

theorem inReadN_sat : ∀ (n : Nat) (s : State),
    (inReadN n s).Sat (fun bs t => InMoved s t ∧ bs.length ≤ n)
      (fun t => ∃ u, InMoved s u ∧ StopsAt (· = .io) u t) (fun _ => s.input.data.length < s.input.pos)
  | 0, s => ⟨.refl s, Nat.le_refl _⟩
  | n + 1, s => by
    refine (inNext_sat s).bind ?_
    rintro b t ⟨hm, -, hsome⟩
    match b with
    | none => exact ⟨hm, by simp⟩
    | some b =>
      obtain ⟨hlt, hpos, -⟩ := hsome b rfl
      have hd : t.input.data = s.input.data := by rw [hm.eq]
      refine Run.Sat.bind ((inReadN_sat n t).mono (fun _ _ h => h) (fun v ⟨u, hu, hs⟩ => ⟨u, hm.trans hu, hs⟩) ?_) ?_
      · intro f hf; rw [hd, hpos] at hf; omega
      · rintro bs u ⟨hu, hl⟩
        exact ⟨hm.trans hu, by simp; omega⟩

theorem writeBytes_sat (bs : List Byte) (s : State) :
    (writeBytes bs s).Sat (fun _ t => OutMoved s t) (fun t => ∃ u, OutMoved s u ∧ StopsAt (· = .io) u t) (fun _ => False) := by
  refine Run.each_sat (fun _ t => OutMoved s t) ?_ bs s (.refl s)
  intro b _ t ht
  exact (outWrite_sat b t).mono (fun _ _ h => ht.trans h) (fun v ⟨u, hu, hs⟩ => ⟨u, ht.trans hu, hs⟩) fun _ h => h

end Sys2Proof.Machine
end

