-- ==== Sys2Proof/Laws/EncodeSide.lean ====
section
/-!
SUPPORT. The loops of FCOUNT and PACK, run to their end while the streams answer.
-/

namespace Sys2Proof.Machine

/-! ### FCOUNT -/

theorem countUp_get (f : Vector Word 256) (x b : Byte) :
    (countUp f x)[b.toNat] = if x = b then f[b.toNat] + 1 else f[b.toNat] := by
  unfold countUp
  rw [Vector.getElem_set]
  by_cases h : x = b
  · subst h; simp
  · have : x.toNat ≠ b.toNat := fun h2 => h (BitVec.eq_of_toNat_eq h2)
    simp [h, this]

/-- Counting a list of bytes adds to each counter the number of its occurrences, modulo 2^64 (R150, R151). -/
theorem countUp_fold : ∀ (bs : List Byte) (f : Vector Word 256) (b : Byte),
    (bs.foldl countUp f)[b.toNat] = f[b.toNat] + BitVec.ofNat 64 (bs.count b)
  | [], f, b => by simp
  | x :: xs, f, b => by
    rw [List.foldl_cons, countUp_fold xs, countUp_get, List.count_cons]
    by_cases h : x = b
    · subst h
      simp only [if_true, beq_self_eq_true, BitVec.ofNat_add, BitVec.ofNat_eq_ofNat]
      ac_rfl
    · simp [h]

theorem countLoop_ok : ∀ (u : List Byte) (s : State) (n : Nat), s.unread = u → AllOk s.input.answers →
    s.input.pos ≤ s.input.data.length → u.length < n →
    Run.loop n countByte s = .ok () { s with
      freq := u.foldl countUp s.freq
      input := { s.input with pos := s.input.data.length, answers := s.input.answers.drop (2 * u.length + 1) }
      trace := .atEnd true :: (readTrace u ++ s.trace) }
  | _, _, 0, _, _, _, h => by simp at h
  | [], s, n + 1, hu, ha, hp, _ => by
    have := unread_nil hu hp
    simp only [Run.loop, countByte, inNext_none ha this, Run.bind_ok]
    simp [← this]
  | b :: bs, s, n + 1, hu, ha, hp, hn => by
    obtain ⟨hlt, -, hrest⟩ := unread_cons hu
    simp only [Run.loop, countByte, inNext_some ha hu, Run.bind_ok]
    rw [countLoop_ok bs _ n (by simpa [State.unread] using hrest) (by simpa using ha.drop 2) (by simpa using hlt)
      (by simpa using hn)]
    have e : 2 + (2 * bs.length + 1) = 2 * (bs.length + 1) + 1 := by omega
    simp [readTrace_cons, e]

/-! ### PACK -/

/-- ACC, NBITS and the output hold these code bits (R202), the output starting from `out`. -/
structure Packed (out : List Byte) (bits : List Bool) (s : State) : Prop where
  acc : s.acc = payloadByte bits (bits.length / 8)
  nbits : s.nbits = BitVec.ofNat 3 (bits.length % 8)
  out : s.output.data = out ++ packWhole bits

theorem nbits_seven (n : Nat) : BitVec.ofNat 3 (n % 8) = 7 ↔ n % 8 = 7 := by
  constructor
  · intro h
    have := congrArg BitVec.toNat h
    simpa using this
  · intro h; rw [h]; rfl

/-- One code bit while the output answers (R200). -/
theorem packBit_ok {out : List Byte} {bits : List Bool} {s : State} (b : Bool) (hp : Packed out bits s)
    (ha : AllOk s.output.answers) :
    ∃ events, packBit b s = .ok () { s with
        acc := payloadByte (bits ++ [b]) ((bits ++ [b]).length / 8)
        nbits := BitVec.ofNat 3 ((bits ++ [b]).length % 8)
        output :=
          { data := out ++ packWhole (bits ++ [b])
            answers := s.output.answers.drop ((bits ++ [b]).length / 8 - bits.length / 8) }
        trace := events ++ s.trace } ∧
      readsIn events = [] ∧ packWhole (bits ++ [b]) = packWhole bits ++ writesIn events := by
  obtain ⟨h1, h2, h3⟩ := hp
  have hacc := payloadByte_append bits b
  unfold packBit
  by_cases h7 : bits.length % 8 = 7
  · have hn : s.nbits = 7 := by rw [h2]; exact (nbits_seven _).mpr h7
    have el : (bits ++ [b]).length / 8 = bits.length / 8 + 1 := by simp; omega
    have em : (bits ++ [b]).length % 8 = 0 := by simp; omega
    have hz : payloadByte (bits ++ [b]) ((bits ++ [b]).length / 8) = 0 := payloadByte_end _ em
    have hw := packWhole_append bits b
    rw [if_pos h7] at hw
    refine ⟨[.wrote (payloadByte (bits ++ [b]) (bits.length / 8))], ?_, rfl, by rw [hw]; rfl⟩
    rw [if_pos hn, outWrite_ok (s := { s with acc := s.acc ||| accBit b s.nbits, nbits := s.nbits + 1 }) _ ha, Run.bind_ok]
    rw [hz, em, el, hw, hacc, ← h1, ← h2, h3]
    simp
  · have hn : ¬ s.nbits = 7 := by rw [h2]; exact fun h => h7 ((nbits_seven _).mp h)
    have el : (bits ++ [b]).length / 8 = bits.length / 8 := by simp; omega
    have em : (bits ++ [b]).length % 8 = bits.length % 8 + 1 := by simp; omega
    have hw := packWhole_append bits b
    rw [if_neg h7] at hw
    refine ⟨[], ?_, rfl, by rw [hw]; simp [writesIn]⟩
    rw [if_neg hn, el, em, hw, hacc, ← h1, ← h3, ← h2]
    have e3 : s.nbits + 1 = BitVec.ofNat 3 (bits.length % 8 + 1) := by rw [h2]; simp [BitVec.ofNat_add]
    rw [e3]
    simp

theorem readsIn_append (a b : List Transfer) : readsIn (a ++ b) = readsIn b ++ readsIn a := by simp [readsIn]
theorem writesIn_append (a b : List Transfer) : writesIn (a ++ b) = writesIn b ++ writesIn a := by simp [writesIn]
@[simp] theorem readsIn_nil : readsIn [] = [] := rfl
@[simp] theorem writesIn_nil : writesIn [] = [] := rfl

theorem pathBits_whole_le (bits more : List Bool) : bits.length / 8 ≤ (bits ++ more).length / 8 := by
  simp; omega

/-- One code while the output answers (R200). -/
theorem packCode_ok : ∀ (t : Nat) (p : Path) (out : List Byte) (bits : List Bool) (s : State), Packed out bits s →
    AllOk s.output.answers →
    ∃ events, packCode t p s = .ok () { s with
        acc := payloadByte (bits ++ pathBits t p) ((bits ++ pathBits t p).length / 8)
        nbits := BitVec.ofNat 3 ((bits ++ pathBits t p).length % 8)
        output :=
          { data := out ++ packWhole (bits ++ pathBits t p)
            answers := s.output.answers.drop ((bits ++ pathBits t p).length / 8 - bits.length / 8) }
        trace := events ++ s.trace } ∧
      readsIn events = [] ∧ packWhole (bits ++ pathBits t p) = packWhole bits ++ writesIn events
  | 0, p, out, bits, s, hp, _ => by
    refine ⟨[], ?_, rfl, by simp [pathBits]⟩
    have : pathBits 0 p = [] := rfl
    obtain ⟨h1, h2, h3⟩ := hp
    simp only [packCode, this, List.append_nil, ← h1, ← h2, ← h3, Nat.sub_self, List.drop_zero, List.nil_append]
  | t + 1, p, out, bits, s, hp, ha => by
    obtain ⟨ev, h1, h2, h3⟩ := packBit_ok (pathBit p t) hp ha
    obtain ⟨ev', h4, h5, h6⟩ := packCode_ok t p out (bits ++ [pathBit p t]) { s with
        acc := payloadByte (bits ++ [pathBit p t]) ((bits ++ [pathBit p t]).length / 8)
        nbits := BitVec.ofNat 3 ((bits ++ [pathBit p t]).length % 8)
        output :=
          { data := out ++ packWhole (bits ++ [pathBit p t])
            answers := s.output.answers.drop ((bits ++ [pathBit p t]).length / 8 - bits.length / 8) }
        trace := ev ++ s.trace } ⟨rfl, rfl, rfl⟩ (by simpa using ha.drop _)
    have e : bits ++ pathBits (t + 1) p = (bits ++ [pathBit p t]) ++ pathBits t p := by rw [pathBits_succ]; simp
    refine ⟨ev' ++ ev, ?_, by rw [readsIn_append, h2, h5]; rfl, by rw [e, h6, h3, writesIn_append, List.append_assoc]⟩
    have hl1 := pathBits_whole_le bits [pathBit p t]
    have hl2 := pathBits_whole_le (bits ++ [pathBit p t]) (pathBits t p)
    simp only [packCode, h1, Run.bind_ok]
    rw [h4, e]
    simp only [List.drop_drop, List.append_assoc] at *
    congr 3
    congr 1
    omega

theorem Packed.start (s : State) (h1 : s.acc = 0) (h2 : s.nbits = 0) : Packed s.output.data [] s := by
  refine ⟨?_, ?_, ?_⟩
  · rw [h1]; rfl
  · rw [h2]; rfl
  · simp [packWhole]

/-- PACK's loop over bytes that have codes (R200, R202). -/
theorem packLoop_ok : ∀ (u : List Byte) (out : List Byte) (bits : List Bool) (s : State) (rest : List Byte) (n : Nat),
    s.unread = u ++ rest → Packed out bits s → AllOk s.input.answers → AllOk s.output.answers →
    s.input.pos ≤ s.input.data.length → (∀ b ∈ u, (s.code[b.toNat]).valid = true) → u.length < n →
    ∃ events, Run.loop n packByte s = Run.loop (n - u.length) packByte { s with
        acc := payloadByte (bits ++ u.flatMap fun b => codeBits s.code[b.toNat])
          ((bits ++ u.flatMap fun b => codeBits s.code[b.toNat]).length / 8)
        nbits := BitVec.ofNat 3 ((bits ++ u.flatMap fun b => codeBits s.code[b.toNat]).length % 8)
        symcnt := s.symcnt + BitVec.ofNat 64 u.length
        input := { s.input with pos := s.input.pos + u.length, answers := s.input.answers.drop (2 * u.length) }
        output :=
          { data := out ++ packWhole (bits ++ u.flatMap fun b => codeBits s.code[b.toNat])
            answers := s.output.answers.drop
              ((bits ++ u.flatMap fun b => codeBits s.code[b.toNat]).length / 8 - bits.length / 8) }
        trace := events ++ s.trace } ∧
      readsIn events = u ∧
      packWhole (bits ++ u.flatMap fun b => codeBits s.code[b.toNat]) = packWhole bits ++ writesIn events
  | [], out, bits, s, rest, n, _, hp, _, _, _, _, _ => by
    obtain ⟨h1, h2, h3⟩ := hp
    refine ⟨[], ?_, rfl, by simp⟩
    simp only [List.flatMap_nil, List.append_nil, ← h1, ← h2, ← h3, List.length_nil, Nat.sub_self, Nat.mul_zero,
      List.drop_zero, Nat.add_zero, Nat.sub_zero, List.nil_append]
    simp
  | b :: bs, out, bits, s, rest, 0, _, _, _, _, _, _, hn => by simp at hn
  | b :: bs, out, bits, s, rest, n + 1, hu, hp, hi, ho, hc, hv, hn => by
    have hu' : s.unread = b :: (bs ++ rest) := by rw [hu]; rfl
    obtain ⟨hlt, -, hrest⟩ := unread_cons hu'
    have hvb : (s.code[b.toNat]).valid = true := hv b (by simp)
    obtain ⟨ev, h1, h2, h3⟩ := packCode_ok (s.code[b.toNat]).len.toNat (s.code[b.toNat]).pos out bits { s with
      input := { s.input with pos := s.input.pos + 1, answers := s.input.answers.drop 2 }
      trace := .read b :: .atEnd false :: s.trace } ⟨hp.acc, hp.nbits, hp.out⟩ ho
    rw [← codeBits_eq] at h1 h3
    obtain ⟨ev', h4, h5, h6⟩ := packLoop_ok bs out (bits ++ codeBits s.code[b.toNat]) { s with
        acc := payloadByte (bits ++ codeBits s.code[b.toNat]) ((bits ++ codeBits s.code[b.toNat]).length / 8)
        nbits := BitVec.ofNat 3 ((bits ++ codeBits s.code[b.toNat]).length % 8)
        symcnt := s.symcnt + 1
        input := { s.input with pos := s.input.pos + 1, answers := s.input.answers.drop 2 }
        output :=
          { data := out ++ packWhole (bits ++ codeBits s.code[b.toNat])
            answers := s.output.answers.drop ((bits ++ codeBits s.code[b.toNat]).length / 8 - bits.length / 8) }
        trace := ev ++ (.read b :: .atEnd false :: s.trace) } rest n (by simpa [State.unread] using hrest) ⟨rfl, rfl, rfl⟩
        (by simpa using hi.drop 2) (by simpa using ho.drop _) (by simpa using hlt)
        (fun x hx => hv x (by simp [hx])) (by simpa using hn)
    have e : bits ++ (b :: bs).flatMap (fun b => codeBits s.code[b.toNat]) =
        bits ++ codeBits s.code[b.toNat] ++ bs.flatMap (fun b => codeBits s.code[b.toNat]) := by simp
    refine ⟨ev' ++ (ev ++ [.read b, .atEnd false]), ?_, ?_, ?_⟩
    · simp only [Run.loop, packByte, inNext_some hi hu', Run.bind_ok, hvb, Bool.true_eq_false, if_false]
      rw [h1]
      simp only [Run.bind_ok]
      rw [h4, e]
      have hl1 := pathBits_whole_le bits (codeBits s.code[b.toNat])
      have hl2 := pathBits_whole_le (bits ++ codeBits s.code[b.toNat]) (bs.flatMap fun b => codeBits s.code[b.toNat])
      have e1 : n + 1 - (b :: bs).length = n - bs.length := by simp
      have e2 : s.symcnt + 1 + BitVec.ofNat 64 bs.length = s.symcnt + BitVec.ofNat 64 (b :: bs).length := by
        simp only [List.length_cons, BitVec.ofNat_add]
        ac_rfl
      have e3 : s.input.pos + 1 + bs.length = s.input.pos + (b :: bs).length := by simp; omega
      rw [e1, e2, e3]
      simp only [List.drop_drop, List.append_assoc, List.cons_append, List.nil_append, List.length_cons] at *
      have e4 : 2 + 2 * bs.length = 2 * (bs.length + 1) := by omega
      rw [e4]
      congr 3
      congr 1
      omega
    · rw [readsIn_append, readsIn_append, h2, h5]; simp [readsIn]
    · rw [e, h6, h3, writesIn_append, writesIn_append]; simp [writesIn]

end Sys2Proof.Machine
end

