-- ==== Sys2Proof/Laws/TreeBuilder.lean ====
section
/-!
SUPPORT. TBUILD's loops (R161) hold, at every iteration, the list of trees that the merge of lists holds.
-/

namespace Sys2Proof.Machine

/-! ### Trees in an arena -/

/-- The tree stands at k in the arena, and every index of it is below the bound. -/
def RepBelow (node : Vector Node 511) (bound : Nat) : NodeIx → HTree → Prop
  | k, .leaf w v => k.val < bound ∧ node[k] = .leaf w v
  | k, .node w l r => k.val < bound ∧ ∃ a b, node[k] = .internal w a b ∧ RepBelow node bound a l ∧ RepBelow node bound b r

theorem RepBelow.represents {node : Vector Node 511} {bound : Nat} : ∀ {k : NodeIx} {t : HTree}, RepBelow node bound k t →
    Represents node k t
  | _, .leaf _ _, h => h.2
  | _, .node _ _ _, ⟨_, a, b, h, hl, hr⟩ => ⟨a, b, h, hl.represents, hr.represents⟩

theorem RepBelow.lt {node : Vector Node 511} {bound : Nat} {k : NodeIx} {t : HTree} (h : RepBelow node bound k t) :
    k.val < bound := by
  cases t with
  | leaf w v => exact h.1
  | node w l r => exact h.1

theorem RepBelow.weight {node : Vector Node 511} {bound : Nat} {k : NodeIx} {t : HTree} (h : RepBelow node bound k t) :
    node[k].weight = t.weight := by
  cases t with
  | leaf w v => rw [h.2]; rfl
  | node w l r => obtain ⟨_, a, b, h, -, -⟩ := h; rw [h]; rfl

theorem RepBelow.mono {node node' : Vector Node 511} {bound bound' : Nat} (hb : bound ≤ bound')
    (hn : ∀ k : NodeIx, k.val < bound → node'[k] = node[k]) : ∀ {k : NodeIx} {t : HTree}, RepBelow node bound k t →
    RepBelow node' bound' k t
  | k, .leaf _ _, h => ⟨Nat.lt_of_lt_of_le h.1 hb, by rw [hn k h.1, h.2]⟩
  | k, .node _ _ _, ⟨h1, a, b, h2, hl, hr⟩ =>
    ⟨Nat.lt_of_lt_of_le h1 hb, a, b, by rw [hn k h1, h2], hl.mono hb hn, hr.mono hb hn⟩

theorem Represents.weight {node : Vector Node 511} {k : NodeIx} {t : HTree} (h : Represents node k t) :
    node[k].weight = t.weight := by
  cases t with
  | leaf w v => rw [show node[k] = .leaf w v from h]; rfl
  | node w l r => obtain ⟨a, b, h, -, -⟩ := h; rw [h]; rfl

/-! ### The working sequence as a list -/

/-- Entries j to j + k - 1 of SEQ. -/
def slice (seq : Vector NodeIx 256) (j k : Nat) : List NodeIx := (List.range' j k).map fun p => seq[ix256 p]

theorem slice_cons (seq : Vector NodeIx 256) (j k : Nat) : slice seq j (k + 1) = seq[ix256 j] :: slice seq (j + 1) k := by
  simp [slice, List.range'_succ]

theorem slice_congr {seq seq' : Vector NodeIx 256} {j k : Nat}
    (h : ∀ p, j ≤ p → p < j + k → seq'[ix256 p] = seq[ix256 p]) : slice seq' j k = slice seq j k := by
  apply List.map_congr_left
  intro p hp
  rw [List.mem_range'_1] at hp
  exact h p hp.1 hp.2

theorem seq_set_get (seq : Vector NodeIx 256) (x : NodeIx) {j p : Nat} (hj : j < 256) (hp : p < 256) :
    (seq.set (ix256 j).val x)[ix256 p] = if j = p then x else seq[ix256 p] := by
  simp only [Fin.getElem_fin, Vector.getElem_set, ix256_val hj, ix256_val hp]

theorem node_set_get (node : Vector Node 511) (x : Node) {j : Nat} (k : NodeIx) (hj : j < 511) :
    (node.set (nodeIx j).val x)[k] = if j = k.val then x else node[k] := by
  simp only [Fin.getElem_fin, Vector.getElem_set, nodeIx_val hj]

/-- The insertion of an index among indices, by weight (R165). -/
def insertIx (node : Vector Node 511) (w : Word) (m : NodeIx) : List NodeIx → List NodeIx
  | [] => [m]
  | k :: ks => if node[k].weight.toNat < w.toNat then k :: insertIx node w m ks else m :: k :: ks

/-- What the scan and the write after it do to SEQ (R161, R165). -/
theorem scan_spec (node : Vector Node 511) (n : Nat) (w : Word) (m : NodeIx) (hn : n ≤ 256) :
    ∀ (fuel j : Nat) (seq : Vector NodeIx 256) (r : Nat × Vector NodeIx 256), j < n → n - (j + 1) ≤ fuel →
      scan node n w fuel j seq = r →
      j ≤ r.1 ∧ r.1 < n ∧
      slice (r.2.set (ix256 r.1).val m) j (n - j) = insertIx node w m (slice seq (j + 1) (n - (j + 1))) ∧
      (∀ p < 256, p < j ∨ n ≤ p → (r.2.set (ix256 r.1).val m)[ix256 p] = seq[ix256 p]) := by
  have base : ∀ (j : Nat) (seq : Vector NodeIx 256), j < n →
      (n = j + 1 ∨ ¬ node[seq[ix256 (j + 1)]].weight.toNat < w.toNat) →
      slice (seq.set (ix256 j).val m) j (n - j) = insertIx node w m (slice seq (j + 1) (n - (j + 1))) ∧
      (∀ p < 256, p < j ∨ n ≤ p → (seq.set (ix256 j).val m)[ix256 p] = seq[ix256 p]) := by
    intro j seq hj hc
    have e : n - j = (n - (j + 1)) + 1 := by omega
    constructor
    · have e2 : slice (seq.set (ix256 j).val m) (j + 1) (n - (j + 1)) = slice seq (j + 1) (n - (j + 1)) :=
        slice_congr fun p h1 h2 => by rw [seq_set_get seq m (by omega) (by omega), if_neg (by omega)]
      rw [e, slice_cons, e2, seq_set_get seq m (by omega) (by omega), if_pos rfl]
      rcases hc with hc | hc
      · have : n - (j + 1) = 0 := by omega
        rw [this]; rfl
      · by_cases h0 : n - (j + 1) = 0
        · rw [h0]; rfl
        · obtain ⟨q, hq⟩ : ∃ q, n - (j + 1) = q + 1 := ⟨n - (j + 1) - 1, by omega⟩
          rw [hq, slice_cons, insertIx, if_neg hc]
    · intro p hp h
      rw [seq_set_get seq m (by omega) hp, if_neg (by omega)]
  intro fuel
  induction fuel with
  | zero =>
    intro j seq r hj hf hr
    obtain ⟨h1, h2⟩ := base j seq hj (.inl (by omega))
    subst hr
    exact ⟨Nat.le_refl _, hj, h1, h2⟩
  | succ fuel ih =>
    intro j seq r hj hf hr
    unfold scan at hr
    by_cases hc : j + 1 < n ∧ node[seq[ix256 (j + 1)]].weight.toNat < w.toNat
    · rw [if_pos hc] at hr
      obtain ⟨h1, h2, h3, h4⟩ := ih (j + 1) (seq.set (ix256 j).val seq[ix256 (j + 1)]) r hc.1 (by omega) hr
      refine ⟨by omega, h2, ?_, ?_⟩
      · have e : n - j = (n - (j + 1)) + 1 := by omega
        have e2 : n - (j + 1) = (n - (j + 1 + 1)) + 1 := by omega
        have e3 : slice (seq.set (ix256 j).val seq[ix256 (j + 1)]) (j + 1 + 1) (n - (j + 1 + 1)) =
            slice seq (j + 1 + 1) (n - (j + 1 + 1)) :=
          slice_congr fun p h1 h2 => by rw [seq_set_get seq _ (by omega) (by omega), if_neg (by omega)]
        rw [e, slice_cons, h3, h4 j (by omega) (.inl (by omega)), seq_set_get seq _ (by omega) (by omega), if_pos rfl, e3]
        conv_rhs => rw [e2, slice_cons]
        rw [insertIx, if_pos hc.2]
      · intro p hp h
        rw [h4 p hp (by omega), seq_set_get seq _ (by omega) hp, if_neg (by omega)]
    · rw [if_neg hc] at hr
      obtain ⟨h1, h2⟩ := base j seq hj (by
        by_cases hj1 : j + 1 < n
        · exact .inr fun h => hc ⟨hj1, h⟩
        · exact .inl (by omega))
      subst hr
      exact ⟨Nat.le_refl _, hj, h1, h2⟩

/-- Inserting an index that stands for a tree inserts the tree. -/
theorem insertIx_rep {node : Vector Node 511} {bound : Nat} {m : NodeIx} {t : HTree} (hm : RepBelow node bound m t) :
    ∀ {ks : List NodeIx} {ts : List HTree}, List.Forall₂ (RepBelow node bound) ks ts →
      List.Forall₂ (RepBelow node bound) (insertIx node t.weight m ks) (insertTree t ts)
  | _, _, .nil => .cons hm .nil
  | k :: ks, u :: us, .cons h hs => by
    unfold insertIx insertTree
    rw [h.weight]
    split
    · exact .cons h (insertIx_rep hm hs)
    · exact .cons hm (.cons h hs)

/-! ### The leaves -/

/-- What buildLeaf has done after k rounds. -/
structure LeavesBuilt (s0 : State) (k : Nat) (s : State) : Prop where
  eq : s = { s0 with node := s.node, seq := s.seq }
  node_lt : ∀ i : NodeIx, i.val < k → s.node[i] = .leaf (unitFreq s0.tab[ix256 i.val]) (unitValue s0.tab[ix256 i.val])
  node_ge : ∀ i : NodeIx, k ≤ i.val → s.node[i] = s0.node[i]
  seq_lt : ∀ p, p < k → s.seq[ix256 p] = nodeIx p
  seq_ge : ∀ p < 256, k ≤ p → s.seq[ix256 p] = s0.seq[ix256 p]

theorem leaves_eq {s0 s : State} (h : s = { s0 with node := s.node, seq := s.seq }) (nd : Vector Node 511)
    (sq : Vector NodeIx 256) : { s with node := nd, seq := sq } = { s0 with node := nd, seq := sq } := by
  rw [h]

theorem leaves_built (s0 : State) : ∀ k ≤ 256, LeavesBuilt s0 k ((List.range k).foldl buildLeaf s0)
  | 0, _ => ⟨rfl, fun _ h => absurd h (by omega), fun _ _ => rfl, fun _ h => absurd h (by omega), fun _ _ _ => rfl⟩
  | k + 1, hk => by
    obtain ⟨h1, h2, h3, h4, h5⟩ := leaves_built s0 k (by omega)
    rw [List.range_succ, List.foldl_append]
    generalize (List.range k).foldl buildLeaf s0 = s at h1 h2 h3 h4 h5
    have htab : s.tab = s0.tab := by rw [h1]
    simp only [List.foldl_cons, List.foldl_nil, buildLeaf, htab]
    refine ⟨?_, ?_, ?_, ?_, ?_⟩
    · have e := leaves_eq h1 (s.node.set (nodeIx k).val (.leaf (unitFreq s0.tab[ix256 k]) (unitValue s0.tab[ix256 k])))
        (s.seq.set (ix256 k).val (nodeIx k))
      simpa only [htab] using e
    · intro i hi
      show (s.node.set _ _)[i] = _
      rw [node_set_get s.node _ i (by omega)]
      split
      · rename_i he; rw [he]
      · exact h2 i (by omega)
    · intro i hi
      show (s.node.set _ _)[i] = _
      rw [node_set_get s.node _ i (by omega), if_neg (by omega)]
      exact h3 i (by omega)
    · intro p hp
      show (s.seq.set _ _)[ix256 p] = _
      rw [seq_set_get s.seq _ (by omega) (by omega)]
      split
      · rename_i he; rw [he]
      · exact h4 p (by omega)
    · intro p hp1 hp2
      show (s.seq.set _ _)[ix256 p] = _
      rw [seq_set_get s.seq _ (by omega) hp1, if_neg (by omega)]
      exact h5 p hp1 (by omega)

/-! ### The merges -/

/-- What holds after k merges of a table of n entries, started at s0 with the leaf trees ts0 (R163, R166). -/
structure Merged (s0 : State) (n : Nat) (ts0 : List HTree) (k : Nat) (s : State) : Prop where
  eq : s = { s0 with node := s.node, seq := s.seq, i := s.i, j := s.j, m := s.m }
  live : ∃ ts, List.Forall₂ (RepBelow s.node (n + k)) (slice s.seq k (n - k)) ts ∧
    mergeTrees (n - 1 - k) ts = mergeTrees (n - 1) ts0
  node_leaf : ∀ i : NodeIx, i.val < n → s.node[i] = s0.node[i]
  node_ge : ∀ i : NodeIx, n + k ≤ i.val → s.node[i] = s0.node[i]
  node_merge : ∀ i : NodeIx, n ≤ i.val → i.val < n + k → ∃ a b : NodeIx, a.val < i.val ∧ b.val < i.val ∧
    s.node[i] = .internal (s.node[a].weight + s.node[b].weight) a b
  seq_ge : ∀ p < 256, n ≤ p → s.seq[ix256 p] = s0.seq[ix256 p]
  last : 1 ≤ k → k = n - 1 → s.seq[ix256 (n - 1)] = nodeIx (2 * n - 2)

theorem merged_eq {s0 s : State} (h : s = { s0 with node := s.node, seq := s.seq, i := s.i, j := s.j, m := s.m })
    (nd : Vector Node 511) (sq : Vector NodeIx 256) (i j : Fin 256) (m : NodeIx) :
    { s with node := nd, seq := sq, i := i, j := j, m := m } =
      { s0 with node := nd, seq := sq, i := i, j := j, m := m } := by
  rw [h]

theorem built_eq {s s1 s2 : State} (h1 : s1 = { s with node := s1.node, seq := s1.seq })
    (h2 : s2 = { s1 with node := s2.node, seq := s2.seq, i := s2.i, j := s2.j, m := s2.m })
    (nd : Vector Node 511) (sq : Vector NodeIx 256) (r : NodeIx) (i j : Fin 256) (m : NodeIx) :
    { s2 with node := nd, seq := sq, root := r, i := i, j := j, m := m } =
      { s with node := nd, seq := sq, root := r, i := i, j := j, m := m } := by
  rw [h2, h1]

theorem merge_step {s0 s : State} {n : Nat} {ts0 : List HTree} {k : Nat} (hn : n ≤ 256) (hk : k + 1 < n)
    (h : Merged s0 n ts0 k s) : Merged s0 n ts0 (k + 1) (mergeStep n s k) := by
  obtain ⟨h1, ⟨ts, h2, h3⟩, h4, h5, h6, h7, -⟩ := h
  have e1 : n - k = (n - (k + 1 + 1)) + 1 + 1 := by omega
  rw [e1, slice_cons, slice_cons] at h2
  match ts, h2 with
  | ta :: tb :: rest, .cons ha (.cons hb hrest) =>
    have hnode : ∀ i : NodeIx, i.val < n + k → (s.node.set (nodeIx (n + k)).val
        (.internal (s.node[s.seq[ix256 k]].weight + s.node[s.seq[ix256 (k + 1)]].weight) s.seq[ix256 k] s.seq[ix256 (k + 1)]))[i]
          = s.node[i] := by
      intro i hi
      rw [node_set_get s.node _ i (by omega), if_neg (by omega)]
    have hmval : (nodeIx (n + k)).val = n + k := nodeIx_val (by omega)
    set node' := s.node.set (nodeIx (n + k)).val
        (.internal (s.node[s.seq[ix256 k]].weight + s.node[s.seq[ix256 (k + 1)]].weight) s.seq[ix256 k] s.seq[ix256 (k + 1)])
      with hnode'
    set w := s.node[s.seq[ix256 k]].weight + s.node[s.seq[ix256 (k + 1)]].weight with hw
    have hm : RepBelow node' (n + (k + 1)) (nodeIx (n + k)) (.node (ta.weight + tb.weight) ta tb) := by
      refine ⟨by omega, s.seq[ix256 k], s.seq[ix256 (k + 1)], ?_, ha.mono (by omega) hnode, hb.mono (by omega) hnode⟩
      rw [hnode', node_set_get s.node _ _ (by omega), if_pos hmval.symm, hw, ha.weight, hb.weight]
    have hwt : w = (HTree.node (ta.weight + tb.weight) ta tb).weight := by rw [hw, ha.weight, hb.weight]; rfl
    have hrest' : List.Forall₂ (RepBelow node' (n + (k + 1))) (slice s.seq (k + 1 + 1) (n - (k + 1 + 1))) rest :=
      hrest.imp fun _ _ hr => hr.mono (by omega) hnode
    obtain ⟨r, hr⟩ : ∃ r, scan node' n w n (k + 1) s.seq = r := ⟨_, rfl⟩
    obtain ⟨g1, g2, g3, g4⟩ := scan_spec node' n w (nodeIx (n + k)) hn n (k + 1) s.seq r hk (by omega) hr
    have hmerge : mergeStep n s k = { s with
        node := node', seq := r.2.set (ix256 r.1).val (nodeIx (n + k)), i := ix256 k, j := ix256 r.1,
        m := nodeIx (n + k) } := by
      rw [← hr]; rfl
    rw [hmerge]
    refine ⟨?_, ⟨insertTree (.node (ta.weight + tb.weight) ta tb) rest, ?_, ?_⟩, ?_, ?_, ?_, ?_, ?_⟩
    · exact merged_eq h1 _ _ _ _ _
    · show List.Forall₂ (RepBelow node' (n + (k + 1))) (slice _ (k + 1) (n - (k + 1))) _
      rw [g3, hwt]
      exact insertIx_rep hm hrest'
    · rw [← h3]
      have e2 : n - 1 - k = (n - 1 - (k + 1)) + 1 := by omega
      rw [e2, mergeTrees]
    · intro i hi
      show node'[i] = _
      rw [hnode i (by omega)]
      exact h4 i hi
    · intro i hi
      show node'[i] = _
      rw [hnode', node_set_get s.node _ i (by omega), if_neg (by omega)]
      exact h5 i (by omega)
    · intro i hi1 hi2
      show ∃ a b : NodeIx, a.val < i.val ∧ b.val < i.val ∧ node'[i] = .internal (node'[a].weight + node'[b].weight) a b
      by_cases he : i.val = n + k
      · refine ⟨s.seq[ix256 k], s.seq[ix256 (k + 1)], by rw [he]; exact ha.lt, by rw [he]; exact hb.lt, ?_⟩
        rw [hnode _ ha.lt, hnode _ hb.lt, hnode', node_set_get s.node _ i (by omega), if_pos he.symm]
      · obtain ⟨a, b, ha', hb', hi⟩ := h6 i hi1 (by omega)
        exact ⟨a, b, ha', hb', by rw [hnode i (by omega), hnode a (by omega), hnode b (by omega), hi]⟩
    · intro p hp1 hp2
      show (Vector.set _ _ _)[ix256 p] = _
      rw [g4 p hp1 (.inr hp2)]
      exact h7 p hp1 hp2
    · intro _ hlast
      show (Vector.set _ _ _)[ix256 (n - 1)] = _
      rw [seq_set_get _ _ (by omega) (by omega), if_pos (by omega)]
      congr 1
      omega

theorem merges_done {s0 : State} {n : Nat} {ts0 : List HTree} (hn : n ≤ 256) (h0 : Merged s0 n ts0 0 s0) :
    ∀ k, k < n → Merged s0 n ts0 k ((List.range k).foldl (mergeStep n) s0)
  | 0, _ => h0
  | k + 1, hk => by
    have ih := merges_done hn h0 k (by omega)
    rw [List.range_succ, List.foldl_append]
    exact merge_step hn hk ih

/-- TBUILD's effect (R161): the tree of the table, in the arena's pattern; all else untouched. -/
structure TreeBuilt (s : State) (n : Nat) (t : State) : Prop where
  eq : t = { s with node := t.node, seq := t.seq, root := t.root, i := t.i, j := t.j, m := t.m }
  tree : ∃ tree, treeOf (s.tab.toList.take n) = some tree ∧ Represents t.node t.root tree ∧ tree.leaves = n
  root : t.root.val = 2 * n - 2
  node_leaf : ∀ k : Fin 256, k.val < n → t.node[nodeIx k.val] = .leaf (unitFreq s.tab[k]) (unitValue s.tab[k])
  node_merge : ∀ k : NodeIx, n ≤ k.val → k.val ≤ 2 * n - 2 → ∃ a b : NodeIx, a.val < k.val ∧ b.val < k.val ∧
    t.node[k] = .internal (t.node[a].weight + t.node[b].weight) a b
  node_ge : ∀ k : NodeIx, 2 * n - 1 ≤ k.val → t.node[k] = s.node[k]
  seq_ge : ∀ k : Fin 256, n ≤ k.val → t.seq[k] = s.seq[k]

theorem buildTree_spec (s : State) (n : Nat) (h2 : 2 ≤ n) (hn : n ≤ 256) : TreeBuilt s n (buildTree n s) := by
  have hl := leaves_built s n hn
  set s1 := (List.range n).foldl buildLeaf s with hs1
  obtain ⟨l1, l2, l3, l4, l5⟩ := hl
  have htake : (s.tab.toList.take n).map leafOf = (List.range n).map fun p => leafOf s.tab[ix256 p] := by
    apply List.ext_getElem
    · simp; omega
    · intro i h1 h2
      simp at h1 h2
      simp [ix256_val (by omega : i < 256)]
  have hfor : List.Forall₂ (RepBelow s1.node (n + 0)) (slice s1.seq 0 (n - 0)) ((s.tab.toList.take n).map leafOf) := by
    rw [htake, List.forall₂_iff_get]
    refine ⟨by simp [slice], fun i h1 h2 => ?_⟩
    simp [slice] at h1 h2
    simp only [slice, List.get_eq_getElem, List.getElem_map, List.getElem_range', List.getElem_range, Nat.zero_add, Nat.one_mul]
    rw [l4 i h2]
    have hv : (nodeIx i).val = i := nodeIx_val (by omega)
    refine ⟨by rw [hv]; omega, ?_⟩
    rw [l2 (nodeIx i) (by rw [hv]; exact h2)]
    simp only [hv]
  have h0 : Merged s1 n ((s.tab.toList.take n).map leafOf) 0 s1 :=
    ⟨rfl, ⟨_, hfor, rfl⟩, fun _ _ => rfl, fun _ _ => rfl, fun _ h1 h2 => absurd h2 (by omega), fun _ _ _ => rfl,
      fun h => absurd h (by omega)⟩
  obtain ⟨m1, ⟨ts, m2, m3⟩, m4, m5, m6, m7, m8⟩ := merges_done hn h0 (n - 1) (by omega)
  set s2 := (List.range (n - 1)).foldl (mergeStep n) s1 with hs2
  have hb : buildTree n s = { s2 with root := s2.seq[ix256 (n - 1)] } := rfl
  have hroot := m8 (by omega) rfl
  have hlen : (s.tab.toList.take n).length = n := by simp; omega
  obtain ⟨tree, t1, t2, t3, -, -⟩ := treeOf_spec (table := s.tab.toList.take n) (by intro h; rw [h] at hlen; simp at hlen; omega)
  rw [hlen] at t2 t3
  have e1 : n - 1 - (n - 1) = 0 := by omega
  have e2 : n - (n - 1) = 0 + 1 := by omega
  rw [e2, slice_cons] at m2
  rw [e1, t2] at m3
  have hrep : RepBelow s2.node (n + (n - 1)) s2.seq[ix256 (n - 1)] tree := by
    match ts, m2 with
    | t :: [], .cons h _ =>
      simp [mergeTrees] at m3
      rw [← m3]; exact h
    | t :: _ :: _, .cons _ h => exact absurd h (by simp [slice])
  refine ⟨?_, ⟨tree, t1, ?_, t3⟩, ?_, ?_, ?_, ?_, ?_⟩
  · exact built_eq l1 m1 _ _ _ _ _ _
  · exact hrep.represents
  · show (s2.seq[ix256 (n - 1)]).val = _
    rw [hroot, nodeIx_val (by omega)]
  · intro k hk
    show s2.node[nodeIx k.val] = _
    have hv : (nodeIx k.val).val = k.val := nodeIx_val (by omega)
    have hix : ix256 k.val = k := Fin.ext (ix256_val k.isLt)
    rw [m4 _ (by omega), l2 _ (by omega)]
    simp only [hv, hix]
  · intro k hk1 hk2
    exact m6 k hk1 (by omega)
  · intro k hk
    show s2.node[k] = _
    rw [m5 k (by omega), l3 k (by omega)]
  · intro k hk
    show s2.seq[k] = _
    have hix : ix256 k.val = k := Fin.ext (ix256_val k.isLt)
    have a := m7 k.val k.isLt hk
    have b := l5 k.val k.isLt hk
    simp only [hix] at a b
    rw [a, b]

end Sys2Proof.Machine
end

