-- ==== Sys2Proof/Laws/DecodeSide.lean ====
section
/-!
SUPPORT. The loops of TABR and WALK, run to their end while the streams answer.
-/

namespace Sys2Proof.Machine

/-! ### TABR -/

theorem readEntry_ok {s : State} (k : Nat) (ha : AllOk s.input.answers) (hn : 8 ≤ s.unread.length) :
    readEntry k s = .ok () { s with
      tab := s.tab.set (ix256 k).val (u64le (s.unread.take 8))
      input := { s.input with pos := s.input.pos + 8, answers := s.input.answers.drop 16 }
      trace := readTrace (s.unread.take 8) ++ s.trace } := by
  have hl : ¬ (s.unread.take 8).length < 8 := by simp; omega
  rw [readEntry, inReadN_ok 8 s ha hn, Run.bind_ok, if_neg hl]

theorem readEntry_short {s : State} (k : Nat) (ha : AllOk s.input.answers) (hp : s.input.pos ≤ s.input.data.length)
    (hn : s.unread.length < 8) :
    readEntry k s = .raise .format { s with
      input := { s.input with pos := s.input.data.length, answers := s.input.answers.drop (2 * s.unread.length + 1) }
      trace := .atEnd true :: (readTrace s.unread ++ s.trace) } := by
  rw [readEntry, inReadN_short 8 s ha hp hn, Run.bind_ok, if_pos hn]

/-- The table memory after m entries have been read from these bytes, the first into entry j. -/
def fillTable : Nat → Nat → List Byte → Vector Word 256 → Vector Word 256
  | 0, _, _, tab => tab
  | m + 1, j, bs, tab => fillTable m (j + 1) (bs.drop 8) (tab.set (ix256 j).val (u64le (bs.take 8)))

theorem readTrace_append (a b : List Byte) : readTrace (a ++ b) = readTrace b ++ readTrace a := by simp [readTrace]

theorem unread_advance {s : State} (k : Nat) (t : State) (hd : t.input.data = s.input.data)
    (hp : t.input.pos = s.input.pos + k) : t.unread = s.unread.drop k := by
  simp [State.unread, hd, hp]

theorem tabrLoop_ok : ∀ (m j : Nat) (s : State), AllOk s.input.answers → 8 * m ≤ s.unread.length →
    Run.each (List.range' j m) readEntry s = .ok () { s with
      tab := fillTable m j s.unread s.tab
      input := { s.input with pos := s.input.pos + 8 * m, answers := s.input.answers.drop (16 * m) }
      trace := readTrace (s.unread.take (8 * m)) ++ s.trace }
  | 0, j, s, _, _ => by simp [Run.each, fillTable]
  | m + 1, j, s, ha, hn => by
    rw [List.range'_succ, Run.each, readEntry_ok j ha (by omega), Run.bind_ok]
    have hu : State.unread { s with
        tab := s.tab.set (ix256 j).val (u64le (s.unread.take 8))
        input := { s.input with pos := s.input.pos + 8, answers := s.input.answers.drop 16 }
        trace := readTrace (s.unread.take 8) ++ s.trace } = s.unread.drop 8 := unread_advance 8 _ rfl rfl
    rw [tabrLoop_ok m (j + 1) _ (by simpa using ha.drop 16) (by rw [hu]; simp; omega), hu]
    have e1 : s.unread.take (8 * (m + 1)) = s.unread.take 8 ++ (s.unread.drop 8).take (8 * m) := by
      rw [show 8 * (m + 1) = 8 + 8 * m by omega, List.take_add]
    have e2 : s.input.pos + 8 + 8 * m = s.input.pos + 8 * (m + 1) := by omega
    have e3 : 16 + 16 * m = 16 * (m + 1) := by omega
    rw [e1, readTrace_append]
    simp only [fillTable, e2, List.drop_drop, e3, List.append_assoc]

theorem tabrLoop_short : ∀ (m j : Nat) (s : State), AllOk s.input.answers → s.input.pos ≤ s.input.data.length →
    s.unread.length < 8 * m →
    ∃ (tab : Vector Word 256) (answers : List Answer) (trace : List Transfer),
      Run.each (List.range' j m) readEntry s = .raise .format { s with
        tab := tab
        input := { s.input with pos := s.input.data.length, answers := answers }
        trace := trace }
  | 0, _, _, _, _, h => absurd h (by omega)
  | m + 1, j, s, ha, hp, hn => by
    rw [List.range'_succ, Run.each]
    by_cases h8 : s.unread.length < 8
    · rw [readEntry_short j ha hp h8, Run.bind_raise]
      exact ⟨_, _, _, rfl⟩
    · have hlen := unread_length s
      rw [readEntry_ok j ha (by omega), Run.bind_ok]
      have hu : State.unread { s with
          tab := s.tab.set (ix256 j).val (u64le (s.unread.take 8))
          input := { s.input with pos := s.input.pos + 8, answers := s.input.answers.drop 16 }
          trace := readTrace (s.unread.take 8) ++ s.trace } = s.unread.drop 8 := unread_advance 8 _ rfl rfl
      obtain ⟨tab, answers, trace, h⟩ := tabrLoop_short m (j + 1) { s with
          tab := s.tab.set (ix256 j).val (u64le (s.unread.take 8))
          input := { s.input with pos := s.input.pos + 8, answers := s.input.answers.drop 16 }
          trace := readTrace (s.unread.take 8) ++ s.trace } (by simpa using ha.drop 16)
        (by show s.input.pos + 8 ≤ s.input.data.length; omega) (by rw [hu]; simp; omega)
      exact ⟨tab, answers, trace, h⟩

theorem fillTable_get : ∀ (m j : Nat) (bs : List Byte) (tab : Vector Word 256) (p : Nat) (hp : p < 256), j + m ≤ 256 →
    (fillTable m j bs tab)[p] = if j ≤ p ∧ p < j + m then u64le ((bs.drop (8 * (p - j))).take 8) else tab[p]
  | 0, j, bs, tab, p, hp, _ => by
    rw [fillTable, if_neg (by omega)]
  | m + 1, j, bs, tab, p, hp, h => by
    rw [fillTable, fillTable_get m (j + 1) _ _ p hp (by omega), Vector.getElem_set, ix256_val (by omega)]
    by_cases h1 : j + 1 ≤ p ∧ p < j + 1 + m
    · rw [if_pos h1, if_pos (by omega), List.drop_drop]
      congr 3
      omega
    · rw [if_neg h1]
      by_cases h2 : j = p
      · subst h2
        rw [if_pos rfl, if_pos (by omega)]
        simp
      · rw [if_neg h2, if_neg (by omega)]

/-- TAB after a whole table has been read (R223). -/
theorem fillTable_toList (n : Nat) (hn : n ≤ 256) (bs : List Byte) (tab : Vector Word 256) :
    (fillTable n 0 bs tab).toList =
      ((List.range n).map fun k => u64le ((bs.drop (8 * k)).take 8)) ++ tab.toList.drop n := by
  apply List.ext_getElem
  · simp; omega
  · intro i h1 h2
    have hi : i < 256 := by simpa using h1
    rw [List.getElem_append]
    simp only [Vector.getElem_toList, fillTable_get n 0 bs tab i hi (by omega), Nat.zero_le, true_and, Nat.zero_add,
      Nat.sub_zero, List.length_map, List.length_range]
    by_cases hin : i < n
    · rw [if_pos hin, dif_pos hin]; simp
    · rw [if_neg hin, dif_neg hin]
      simp only [List.getElem_drop, Vector.getElem_toList]
      congr 1
      omega

/-! ### WALK -/

/-- The payload bits not yet consumed: those in CACHE, then those of the unread bytes (R226). -/
def State.pending (s : State) : List Bool := (byteBits s.cache).take s.cbits.toNat ++ bitsOf s.unread

/-- The block has emitted `out` and read k bytes on the way from s to t, and changed nothing else but the walk's registers. -/
def Advanced (s : State) (out : List Byte) (k : Nat) (t : State) : Prop :=
  ∃ (events : List Transfer) (cache : Byte) (cbits : BitVec 4) (cur : NodeIx) (a b : Nat),
    t = { s with
      cur := cur, cache := cache, cbits := cbits
      symcnt := s.symcnt + BitVec.ofNat 64 out.length
      input := { s.input with pos := s.input.pos + k, answers := s.input.answers.drop a }
      output := { data := s.output.data ++ out, answers := s.output.answers.drop b }
      trace := events ++ s.trace } ∧
    readsIn events = s.unread.take k ∧ writesIn events = out

theorem Advanced.trans {s t u : State} {o1 o2 : List Byte} {k1 k2 : Nat} (h1 : Advanced s o1 k1 t) (h2 : Advanced t o2 k2 u) :
    Advanced s (o1 ++ o2) (k1 + k2) u := by
  obtain ⟨ev1, c1, b1, r1, x1, y1, rfl, e1, f1⟩ := h1
  obtain ⟨ev2, c2, b2, r2, x2, y2, rfl, e2, f2⟩ := h2
  refine ⟨ev2 ++ ev1, c2, b2, r2, x1 + x2, y1 + y2, ?_, ?_, ?_⟩
  · have ea : s.symcnt + BitVec.ofNat 64 o1.length + BitVec.ofNat 64 o2.length = s.symcnt + BitVec.ofNat 64 (o1 ++ o2).length := by
      rw [List.length_append, BitVec.ofNat_add]; ac_rfl
    simp only [List.drop_drop, List.append_assoc, Nat.add_assoc, ea]
  · rw [readsIn_append, e1, e2]
    have hu := unread_advance (s := s) k1 { s with
      cur := r1, cache := c1, cbits := b1
      symcnt := s.symcnt + BitVec.ofNat 64 o1.length
      input := { s.input with pos := s.input.pos + k1, answers := s.input.answers.drop x1 }
      output := { data := s.output.data ++ o1, answers := s.output.answers.drop y1 }
      trace := ev1 ++ s.trace } rfl rfl
    rw [hu, List.take_add]
  · rw [writesIn_append, f1, f2]

theorem pending_nil {s : State} (h : s.pending = []) : s.cbits = 0 ∧ s.unread = [] := by
  obtain ⟨h1, h2⟩ := List.append_eq_nil_iff.mp h
  constructor
  · have := congrArg List.length h1
    simp at this
    apply BitVec.eq_of_toNat_eq
    simpa using this
  · have := congrArg List.length h2
    simp at this
    exact this

/-- CACHE holds a bit after `refill`, and no pending bit is lost (R226). -/
theorem refill_ok {s : State} (ha : AllOk s.input.answers) (hc : s.cbits.toNat ≤ 8) (hp : s.pending ≠ []) :
    ∃ t, refill s = .ok () t ∧ Advanced s [] (if s.cbits = 0 then 1 else 0) t ∧ t.pending = s.pending ∧ t.cur = s.cur ∧
      1 ≤ t.cbits.toNat ∧ t.cbits.toNat ≤ 8 ∧ t.cbits.toNat = (if s.cbits = 0 then 8 else s.cbits.toNat) := by
  unfold refill
  by_cases h0 : s.cbits = 0
  · rw [if_pos h0]
    have hbits : s.pending = bitsOf s.unread := by simp [State.pending, h0]
    match hu : s.unread with
    | [] => rw [hbits, hu] at hp; simp at hp
    | b :: rest =>
      obtain ⟨hlt, -, hrest⟩ := unread_cons hu
      rw [inNext_some ha hu, Run.bind_ok]
      refine ⟨_, rfl, ⟨[.read b, .atEnd false], b, 8, s.cur, 2, 0, ?_, ?_, rfl⟩, ?_, rfl, ?_, ?_, ?_⟩
      · simp [h0]
      · simp [h0, hu, readsIn]
      · rw [hbits, hu, bitsOf_cons]
        simp only [State.pending]
        have e1 : (byteBits b).take (8 : BitVec 4).toNat = byteBits b := List.take_of_length_le (by simp)
        have e2 : s.input.data.drop (s.input.pos + 1) = rest := hrest
        simp only [e1, State.unread, e2]
      · show 1 ≤ (8 : BitVec 4).toNat; decide
      · show (8 : BitVec 4).toNat ≤ 8; decide
      · rw [if_pos h0]; rfl
  · rw [if_neg h0]
    have h1 : s.cbits.toNat ≠ 0 := fun h => h0 (BitVec.eq_of_toNat_eq (by simpa using h))
    refine ⟨s, rfl, ⟨[], s.cache, s.cbits, s.cur, 0, 0, ?_, by rw [if_neg h0]; rfl, rfl⟩, rfl, rfl, by omega, hc,
      by rw [if_neg h0]⟩
    rw [if_neg h0]
    simp

theorem refill_end {s : State} (ha : AllOk s.input.answers) (hp : s.input.pos ≤ s.input.data.length) (h : s.pending = []) :
    refill s = .raise .truncated { s with
      input := { s.input with answers := s.input.answers.drop 1 }
      trace := .atEnd true :: s.trace } := by
  obtain ⟨h0, hu⟩ := pending_nil h
  rw [refill, if_pos h0, inNext_none ha (unread_nil hu hp)]
  rfl

theorem byteBits_shift (b : Byte) (n : Nat) (h1 : 1 ≤ n) (h8 : n ≤ 8) :
    (byteBits b).take n = b.msb :: (byteBits (b <<< 1)).take (n - 1) := by
  obtain ⟨m, rfl⟩ : ∃ m, n = m + 1 := ⟨n - 1, by omega⟩
  apply List.ext_getElem?
  intro i
  simp only [byteBits, Nat.add_sub_cancel]
  match i with
  | 0 => simp [BitVec.msb, BitVec.getMsbD]
  | i + 1 =>
    rw [List.getElem?_cons_succ, List.getElem?_take, List.getElem?_take]
    by_cases hi : i < m
    · rw [if_pos (by omega), if_pos hi, List.getElem?_map, List.getElem?_map, List.getElem?_range (by omega),
        List.getElem?_range (by omega)]
      simp only [Option.map_some, BitVec.getLsbD_shiftLeft, Option.some.injEq]
      have e1 : 7 - i < 8 := by omega
      have e2 : ¬ 7 - i < 1 := by omega
      have e3 : 7 - i - 1 = 7 - (i + 1) := by omega
      simp [e1, e2, e3]
    · rw [if_neg (by omega), if_neg hi]

/-- The subtree that a bit leads to. -/
theorem childOf_rep {node : Vector Node 511} {k : NodeIx} {cur : HTree} (h : Represents node k cur) (h2 : 2 ≤ cur.leaves)
    (bit : Bool) : ∃ c t, childOf node[k] bit = some c ∧ cur.child bit = some t ∧ Represents node c t := by
  cases cur with
  | leaf w v => simp [HTree.leaves] at h2
  | node w l r =>
    obtain ⟨a, b, hk, hl, hr⟩ := h
    rw [hk]
    cases bit with
    | true => exact ⟨b, r, rfl, rfl, hr⟩
    | false => exact ⟨a, l, rfl, rfl, hl⟩

/-- One bit of the walk, to an internal node or to a leaf (R226). -/
theorem walkBit_ok {s : State} {cur : HTree} {b : Bool} {bs : List Bool} (ho : AllOk s.output.answers)
    (hr : Represents s.node s.cur cur) (h2 : 2 ≤ cur.leaves) (hc1 : 1 ≤ s.cbits.toNat) (hc8 : s.cbits.toNat ≤ 8)
    (hp : s.pending = b :: bs) :
    ∃ (t : State) (sub : HTree), walkBit s = .ok () t ∧ cur.child b = some sub ∧ t.pending = bs ∧
      t.cbits.toNat = s.cbits.toNat - 1 ∧
      match sub with
      | .leaf _ v => Advanced s [v] 0 t ∧ t.cur = s.root
      | .node w l r => Advanced s [] 0 t ∧ Represents s.node t.cur (.node w l r) := by
  have hsplit : s.pending = s.cache.msb :: ((byteBits (s.cache <<< 1)).take (s.cbits.toNat - 1) ++ bitsOf s.unread) := by
    rw [State.pending, byteBits_shift s.cache _ hc1 hc8]; rfl
  rw [hp] at hsplit
  injection hsplit with hb hbs
  obtain ⟨c, sub, e1, e2, e3⟩ := childOf_rep hr h2 b
  have hcb : (s.cbits - 1).toNat = s.cbits.toNat - 1 := by
    rw [BitVec.toNat_sub_of_le (by rw [BitVec.le_def]; simpa using hc1)]; rfl
  cases sub with
  | leaf w v =>
    have hk : s.node[c] = .leaf w v := e3
    refine ⟨{ s with
        cache := s.cache <<< 1, cbits := s.cbits - 1, cur := s.root, symcnt := s.symcnt + 1
        output := { data := s.output.data ++ [v], answers := s.output.answers.drop 1 }
        trace := .wrote v :: s.trace }, _, ?_, e2, ?_, hcb,
      ⟨⟨[.wrote v], _, _, _, 0, 1, rfl, by simp [readsIn], rfl⟩, rfl⟩⟩
    · unfold walkBit
      rw [← hb, e1]
      simp only [hk]
      rw [outWrite_ok (s := { s with cache := s.cache <<< 1, cbits := s.cbits - 1, cur := c }) v ho]
      rfl
    · simp only [State.pending, hcb, hbs, State.unread]
  | node w l r =>
    refine ⟨{ s with cache := s.cache <<< 1, cbits := s.cbits - 1, cur := c }, _, ?_, e2, ?_, hcb,
      ⟨⟨[], s.cache <<< 1, s.cbits - 1, c, 0, 0, ?_, by simp, rfl⟩, e3⟩⟩
    · obtain ⟨x, y, hk, -, -⟩ := e3
      unfold walkBit
      rw [← hb, e1]
      simp only [hk]
    · simp only [State.pending, hcb, hbs, State.unread]
    · simp

theorem two_le_leaves_node (w : Word) (l r : HTree) : 2 ≤ (HTree.node w l r).leaves := by
  have h1 := l.leaves_pos
  have h2 := r.leaves_pos
  simp only [HTree.leaves]
  omega

/-- What Advanced keeps of the loop's premises. -/
theorem Advanced.keeps {s t : State} {out : List Byte} {k : Nat} (h : Advanced s out k t) :
    t.node = s.node ∧ t.root = s.root ∧ t.fsize = s.fsize ∧ t.input.data = s.input.data ∧ t.input.pos = s.input.pos + k ∧
      t.symcnt = s.symcnt + BitVec.ofNat 64 out.length ∧ (AllOk s.input.answers → AllOk t.input.answers) ∧
      (AllOk s.output.answers → AllOk t.output.answers) := by
  obtain ⟨_, _, _, _, x, y, rfl, -, -⟩ := h
  exact ⟨rfl, rfl, rfl, rfl, rfl, rfl, fun h => h.drop x, fun h => h.drop y⟩

/-- The walk's loop (R226, R228, R229) computes walkTree on the pending bits. -/
theorem walkLoop_ok (root : HTree) (hroot : 2 ≤ root.leaves) : ∀ (bits : List Bool) (cur : HTree) (need : Nat) (s : State)
    (fuel : Nat), Represents s.node s.root root → Represents s.node s.cur cur → 2 ≤ cur.leaves →
    AllOk s.input.answers → AllOk s.output.answers → s.input.pos ≤ s.input.data.length → s.cbits.toNat ≤ 8 →
    s.pending = bits → s.symcnt.toNat + need = s.fsize.toNat → bits.length < fuel →
    ((walkTree root cur need bits).finished = true → ∃ t, Run.loop fuel walkRound s = .ok () t ∧
      Advanced s (walkTree root cur need bits).out (((walkTree root cur need bits).used - s.cbits.toNat + 7) / 8) t) ∧
    ((walkTree root cur need bits).finished = false → ∃ t answers trace, Run.loop fuel walkRound s = .raise .truncated
        { t with input := { t.input with answers := answers }, trace := trace } ∧
      Advanced s (walkTree root cur need bits).out s.unread.length t)
  | _, _, _, _, 0, _, _, _, _, _, _, _, _, _, hf => absurd hf (by omega)
  | bits, cur, 0, s, fuel + 1, _, _, _, _, _, _, _, _, hs, _ => by
    have hw : walkTree root cur 0 bits = ⟨[], 0, true⟩ := by simp [walkTree]
    rw [hw]
    refine ⟨fun _ => ⟨s, ?_, ⟨[], s.cache, s.cbits, s.cur, 0, 0, ?_, ?_, rfl⟩⟩, fun h => by simp at h⟩
    · have : ¬ s.symcnt.toNat < s.fsize.toNat := by omega
      simp [Run.loop, walkRound, this]
    · have : (0 - s.cbits.toNat + 7) / 8 = 0 := by omega
      simp
    · have : (0 - s.cbits.toNat + 7) / 8 = 0 := by omega
      simp
  | [], cur, need + 1, s, fuel + 1, _, _, _, ha, _, hpos, _, hp, hs, _ => by
    have hw : walkTree root cur (need + 1) [] = ⟨[], 0, false⟩ := by simp [walkTree]
    rw [hw]
    refine ⟨fun h => by simp at h, fun _ => ⟨s, s.input.answers.drop 1, .atEnd true :: s.trace, ?_, ?_⟩⟩
    · have : s.symcnt.toNat < s.fsize.toNat := by omega
      simp only [Run.loop, walkRound, this, if_true, refill_end ha hpos hp, Run.bind_raise]
      rfl
    · obtain ⟨-, hu⟩ := pending_nil hp
      exact ⟨[], s.cache, s.cbits, s.cur, 0, 0, by simp [hu], by simp [hu], rfl⟩
  | b :: bs, cur, need + 1, s, fuel + 1, hr, hcur, h2, ha, ho, hpos, hc, hp, hs, hf => by
    have hlt : s.symcnt.toNat < s.fsize.toNat := by omega
    obtain ⟨t1, f1, adv1, p1, c1, l1, l8, lc⟩ := refill_ok ha hc (by rw [hp]; simp)
    obtain ⟨n1, r1, fs1, d1, pos1, sy1, ha1, ho1⟩ := adv1.keeps
    obtain ⟨t2, sub, f2, hsub, p2, lc2, hmatch⟩ := walkBit_ok (ho1 ho) (by rw [n1, c1]; exact hcur) h2 l1 l8 (p1.trans hp)
    have hround : Run.loop (fuel + 1) walkRound s = Run.loop fuel walkRound t2 := by
      simp only [Run.loop, walkRound, hlt, if_true, f1, Run.bind_ok, f2]
    have hu1 := unread_advance (s := s) _ t1 d1 pos1
    have hlen : (if s.cbits = 0 then 1 else 0) ≤ s.unread.length := by
      split
      · rename_i h0
        rcases hu : s.unread with _ | ⟨x, xs⟩
        · simp [State.pending, h0, hu] at hp
        · simp
      · omega
    have hlens := unread_length s
    rw [hround]
    have hc0 : s.cbits = 0 ↔ s.cbits.toNat = 0 :=
      ⟨fun h => by rw [h]; rfl, fun h => BitVec.eq_of_toNat_eq (by simpa using h)⟩
    cases sub with
    | leaf w v =>
      obtain ⟨adv2, hcur2⟩ := hmatch
      obtain ⟨n2, r2, fs2, d2, pos2, sy2, ha2, ho2⟩ := adv2.keeps
      have adv := adv1.trans adv2
      have hu2 := unread_advance (s := s) _ t2 (d2.trans d1) (by rw [pos2, pos1, Nat.add_zero])
      have hw : walkTree root cur (need + 1) (b :: bs) =
          ⟨v :: (walkTree root root need bs).out, (walkTree root root need bs).used + 1, (walkTree root root need bs).finished⟩ := by
        simp [walkTree, hsub]
      have hsy : t2.symcnt.toNat = s.symcnt.toNat + 1 := by
        have := s.fsize.isLt
        rw [sy2, sy1]
        simp
        omega
      obtain ⟨i1, i2⟩ := walkLoop_ok root hroot bs root need t2 fuel (by rw [n2, n1, r2, r1]; exact hr)
        (by rw [n2, n1, hcur2, r1]; exact hr) hroot (ha2 (ha1 ha)) (ho2 (ho1 ho))
        (by rw [d2, d1, pos2, pos1]; omega) (by omega) p2 (by rw [hsy, fs2, fs1]; omega) (by simp at hf; omega)
      rw [hw]
      refine ⟨fun h => ?_, fun h => ?_⟩
      · obtain ⟨t, e1, e2⟩ := i1 h
        have e3 := adv.trans e2
        refine ⟨t, e1, ?_⟩
        have hk : (if s.cbits = 0 then 1 else 0) + 0 + ((walkTree root root need bs).used - t2.cbits.toNat + 7) / 8 =
            ((walkTree root root need bs).used + 1 - s.cbits.toNat + 7) / 8 := by
          rw [lc2, lc]
          by_cases h0 : s.cbits = 0
          · have := hc0.mp h0
            rw [if_pos h0, if_pos h0]; omega
          · have : s.cbits.toNat ≠ 0 := fun h => h0 (hc0.mpr h)
            rw [if_neg h0, if_neg h0]; omega
        rw [hk] at e3
        exact e3
      · obtain ⟨t, an, tr, e1, e2⟩ := i2 h
        have e3 := adv.trans e2
        refine ⟨t, an, tr, e1, ?_⟩
        have hk : (if s.cbits = 0 then 1 else 0) + 0 + t2.unread.length = s.unread.length := by
          rw [hu2, List.length_drop]; omega
        rw [hk] at e3
        exact e3
    | node w l r =>
      obtain ⟨adv2, hcur2⟩ := hmatch
      obtain ⟨n2, r2, fs2, d2, pos2, sy2, ha2, ho2⟩ := adv2.keeps
      have adv := adv1.trans adv2
      have hu2 := unread_advance (s := s) _ t2 (d2.trans d1) (by rw [pos2, pos1, Nat.add_zero])
      have hw : walkTree root cur (need + 1) (b :: bs) =
          ⟨(walkTree root (.node w l r) (need + 1) bs).out, (walkTree root (.node w l r) (need + 1) bs).used + 1,
            (walkTree root (.node w l r) (need + 1) bs).finished⟩ := by
        simp [walkTree, hsub]
      have hsy : t2.symcnt.toNat = s.symcnt.toNat := by rw [sy2, sy1]; simp
      obtain ⟨i1, i2⟩ := walkLoop_ok root hroot bs (.node w l r) (need + 1) t2 fuel (by rw [n2, n1, r2, r1]; exact hr)
        (by rw [n2]; exact hcur2) (two_le_leaves_node w l r) (ha2 (ha1 ha)) (ho2 (ho1 ho))
        (by rw [d2, d1, pos2, pos1]; omega) (by omega) p2 (by rw [hsy, fs2, fs1]; omega) (by simp at hf; omega)
      rw [hw]
      refine ⟨fun h => ?_, fun h => ?_⟩
      · obtain ⟨t, e1, e2⟩ := i1 h
        have e3 := adv.trans e2
        refine ⟨t, e1, ?_⟩
        have hk : (if s.cbits = 0 then 1 else 0) + 0 +
            ((walkTree root (.node w l r) (need + 1) bs).used - t2.cbits.toNat + 7) / 8 =
            ((walkTree root (.node w l r) (need + 1) bs).used + 1 - s.cbits.toNat + 7) / 8 := by
          rw [lc2, lc]
          by_cases h0 : s.cbits = 0
          · have := hc0.mp h0
            rw [if_pos h0, if_pos h0]; omega
          · have : s.cbits.toNat ≠ 0 := fun h => h0 (hc0.mpr h)
            rw [if_neg h0, if_neg h0]; omega
        rw [hk] at e3
        exact e3
      · obtain ⟨t, an, tr, e1, e2⟩ := i2 h
        have e3 := adv.trans e2
        refine ⟨t, an, tr, e1, ?_⟩
        have hk : (if s.cbits = 0 then 1 else 0) + 0 + t2.unread.length = s.unread.length := by
          rw [hu2, List.length_drop]; omega
        rw [hk] at e3
        exact e3

end Sys2Proof.Machine
end

