-- ==== Sys2Proof/Laws/PerInstr.lean ====
section
/-!
SUPPORT. What holds of every instruction as syntax (spec/30_encoding.md R108, R110, R111): every word of it, whatever its ignored
bits, decodes to it, and it may come from exactly the agent that presents such a word.
-/

namespace Sys2Proof.Laws.CodeRoundTrip

/-- Encoding and decoding agree, and the word's agent is the one R111 allows. -/
def Statement (i : Instr) : Prop :=
  (∀ ignored, decodeWord (encodeWith ignored i) = .ok i) ∧
  (∀ from_, i.wellFormed from_ = true ↔ from_ = (encode i).issuer)

theorem op_bits (ignored : BitVec 62) (op : BitVec 2) : (ignored ++ op).extractLsb' 0 2 = op := by
  apply BitVec.eq_of_getLsbD_eq
  intro k hk
  rw [BitVec.getLsbD_extractLsb', BitVec.getLsbD_append, Nat.zero_add, if_pos hk]
  simp [hk]

theorem command {i : Instr} {op : BitVec 2} (h1 : ∀ ignored, encodeWith ignored i = .ctrl (ignored ++ op))
    (h2 : decodeCtrl (0#62 ++ op) = i) (h3 : i.issuer = .host) : Statement i := by
  refine ⟨fun ignored => ?_, fun from_ => ?_⟩
  · rw [h1, decodeWord, ← h2]
    simp only [decodeCtrl, op_bits]
  · simp only [Instr.wellFormed, h3, encode, h1, Encoded.issuer, decide_eq_true_eq]
    exact eq_comm

theorem phase {i : Instr} {p : BitVec 4} (h : i.issuer = .sequencer ∧ Sys2Proof.encode i = .phase p)
    (from_ : Issuer) : i.wellFormed from_ = true ↔ from_ = (Sys2Proof.encode i).issuer := by
  simp only [Instr.wellFormed, h.1, h.2, Encoded.issuer, decide_eq_true_eq]
  exact eq_comm

theorem nop : Statement .nop := command (fun _ => rfl) (by decide) rfl
theorem encode : Statement .encode := command (fun _ => rfl) (by decide) rfl
theorem decode : Statement .decode := command (fun _ => rfl) (by decide) rfl
theorem reservedOp3 : Statement .reservedOp3 := command (fun _ => rfl) (by decide) rfl
theorem idle : Statement .idle := ⟨fun _ => rfl, phase ⟨rfl, rfl⟩⟩
theorem fcount : Statement .fcount := ⟨fun _ => rfl, phase ⟨rfl, rfl⟩⟩
theorem keysort : Statement .keysort := ⟨fun _ => rfl, phase ⟨rfl, rfl⟩⟩
theorem window : Statement .window := ⟨fun _ => rfl, phase ⟨rfl, rfl⟩⟩
theorem tbuild : Statement .tbuild := ⟨fun _ => rfl, phase ⟨rfl, rfl⟩⟩
theorem cgen : Statement .cgen := ⟨fun _ => rfl, phase ⟨rfl, rfl⟩⟩
theorem hdrw : Statement .hdrw := ⟨fun _ => rfl, phase ⟨rfl, rfl⟩⟩
theorem tabw : Statement .tabw := ⟨fun _ => rfl, phase ⟨rfl, rfl⟩⟩
theorem pack : Statement .pack := ⟨fun _ => rfl, phase ⟨rfl, rfl⟩⟩
theorem flush : Statement .flush := ⟨fun _ => rfl, phase ⟨rfl, rfl⟩⟩
theorem hdrr : Statement .hdrr := ⟨fun _ => rfl, phase ⟨rfl, rfl⟩⟩
theorem tabr : Statement .tabr := ⟨fun _ => rfl, phase ⟨rfl, rfl⟩⟩
theorem walk : Statement .walk := ⟨fun _ => rfl, phase ⟨rfl, rfl⟩⟩

end Sys2Proof.Laws.CodeRoundTrip
end

