-- ==== Sys2Proof/Laws/Phases.lean ====
section
/-!
SUPPORT. For every phase, once, all it can do whatever the streams answer: what it changes, which errors it can raise (R251), and
when it can fault.
-/

namespace Sys2Proof.Machine

/-- What a phase can end in: it hangs already; it completes; or it stops in a state that R allows, on an unanswered primitive or
with an error that E allows. -/
theorem runPhase_ends {body : State → Run Unit} {fin : State → State} {s t : State} {Q R : State → Prop} {E : ErrKind → Prop}
    {F : Fault → Prop} (hs : (body s).Sat (fun _ u => Q u) (fun t => ∃ u, R u ∧ StopsAt E u t) F)
    (h : runPhase body fin s = .next t) :
    (∃ p, s.wait = some p ∧ t = s) ∨
      (s.wait = none ∧ ((∃ u, Q u ∧ t = fin u) ∨ (∃ u p, R u ∧ t = { u with wait := some p }) ∨
        ∃ u e, R u ∧ E e ∧ t = raiseError e u)) := by
  rcases runPhase_cases h with h1 | ⟨hw, -⟩
  · exact .inl h1
  · refine .inr ⟨hw, ?_⟩
    rcases runPhase_next hs hw h with h1 | ⟨u, hr, ⟨p, rfl⟩ | ⟨e, he, rfl⟩⟩
    · exact .inl h1
    · exact .inr (.inl ⟨u, p, hr, rfl⟩)
    · exact .inr (.inr ⟨u, e, hr, he, rfl⟩)

/-! ### FCOUNT -/

/-- The counting loop's reach: FREQ, the input's cursor and answers, the trace. -/
structure CountMoved (s t : State) : Prop where
  eq : t = { s with
    freq := t.freq, input := { s.input with pos := t.input.pos, answers := t.input.answers }, trace := t.trace }
  mono : s.input.pos ≤ t.input.pos
  bound : s.input.pos ≤ s.input.data.length → t.input.pos ≤ s.input.data.length

theorem CountMoved.trans {s t u : State} (h1 : CountMoved s t) (h2 : InMoved t u) : CountMoved s u := by
  obtain ⟨e1, m1, b1⟩ := h1
  obtain ⟨e2, m2, b2⟩ := h2
  have hd : t.input.data = s.input.data := by rw [e1]
  refine ⟨?_, Nat.le_trans m1 m2, fun h => by rw [hd] at b2; exact b2 (b1 h)⟩
  rw [e2, e1]

/-- FCOUNT's reach: FREQ, the input, the trace; the data only if the stream presents another pass after the rewind. -/
structure FcountMoved (s t : State) : Prop where
  eq : t = { s with freq := t.freq, input := t.input, trace := t.trace }
  data : s.input.passes = [] → t.input.data = s.input.data
  cursor : s.input.pos ≤ s.input.data.length → t.input.pos ≤ t.input.data.length

theorem CountMoved.fcount {s t : State} (h : CountMoved s t) : FcountMoved s t := by
  obtain ⟨e, -, b⟩ := h
  have hd : t.input.data = s.input.data := by rw [e]
  refine ⟨?_, fun _ => hd, fun hp => by rw [hd]; exact b hp⟩
  rw [e]

theorem fcountBody_sat (s : State) :
    (fcountBody s).Sat (fun _ t => FcountMoved s t) (fun t => ∃ u, FcountMoved s u ∧ StopsAt (· = .io) u t)
      (fun _ => s.input.data.length < s.input.pos) := by
  refine Run.Sat.bind (Q := fun _ t => CountMoved s t) ?_ ?_
  · refine Run.loop_sat_bounded (Q := CountMoved s) (CountMoved s) (fun t => t.unread.length) ?_ _ _
      ⟨rfl, Nat.le_refl _, id⟩ (by show s.unread.length < s.unread.length + 1; omega)
    intro t ht
    have hd : t.input.data = s.input.data := by rw [ht.eq]
    have hb := ht.bound
    refine Run.Sat.bind ((inNext_sat t).mono (fun _ _ h => h) (fun v ⟨u, hu, hs⟩ => ⟨u, (ht.trans hu).fcount, hs⟩)
      (fun _ hf => by rw [hd] at hf; omega)) ?_
    rintro b u ⟨hm, -, hsome⟩
    have hu := ht.trans hm
    match b with
    | none => exact hu
    | some b =>
      obtain ⟨hlt, hpos, -⟩ := hsome b rfl
      refine ⟨⟨?_, hu.mono, hu.bound⟩, ?_⟩
      · obtain ⟨e, -, -⟩ := hu
        rw [e]
      · have : u.input.data = t.input.data := by rw [hm.eq]
        show u.unread.length < t.unread.length
        rw [unread_length, unread_length, this]
        omega
  · intro _ t ht
    refine Run.Sat.bind ((askIn_sat .inRewind t).mono (fun _ _ h => h)
      (fun v ⟨u, hu, hs⟩ => ⟨u, (ht.trans hu).fcount, hs⟩) (fun _ h => h.elim)) ?_
    rintro - u ⟨hm, -⟩
    obtain ⟨e, -, -⟩ := ht.trans hm
    have hp : u.input.passes = s.input.passes := by rw [e]
    have hd : u.input.data = s.input.data := by rw [e]
    refine ⟨?_, fun h => ?_, fun _ => Nat.zero_le _⟩
    · simp only [State.log]
      rw [e]
    · simp [State.log, hp, hd, h]

/-! ### The phases without streams -/

theorem keysortBody_sat (s : State) (H : State → Prop) (F : Fault → Prop) :
    (keysortBody s).Sat (fun _ t => t = { s with key := t.key }) H F := rfl

theorem windowStart_le (key : Vector Word 256) : windowStart key ≤ 254 := Nat.min_le_right _ _

/-- WINDOW's reach, and the range of TSIZE it computes (R193). -/
theorem windowBody_sat (s : State) (H : State → Prop) (F : Fault → Prop) :
    (windowBody s).Sat
      (fun _ t => t = { s with wstart := t.wstart, tsize := t.tsize, tab := t.tab } ∧ 2 ≤ t.tsize.toNat ∧ t.tsize.toNat ≤ 256)
      H F := by
  have h := windowStart_le s.key
  refine ⟨rfl, ?_, ?_⟩ <;> simp <;> omega

theorem tbuildBody_sat (s : State) (H : State → Prop) :
    (tbuildBody s).Sat (fun _ t => TreeBuilt s s.tsize.toNat t) H
      (fun _ => ¬ (2 ≤ s.tsize.toNat ∧ s.tsize.toNat ≤ 256)) := by
  unfold tbuildBody
  split
  · rename_i h; exact buildTree_spec s _ h.1 h.2
  · rename_i h; exact h

/-- CGEN's reach, on any NODE memory. -/
def CgenMoved (s t : State) : Prop := t = { s with code := t.code, cgstk := t.cgstk, cgsp := t.cgsp }

theorem pushNode_sat (k : NodeIx) (level : BitVec 8) (pos : Path) (s : State) (H : State → Prop) :
    (pushNode k level pos s).Sat (fun _ t => CgenMoved s t) H (fun _ => True) := by
  unfold pushNode
  split
  · exact rfl
  · trivial

theorem CgenMoved.trans {s t u : State} (h1 : CgenMoved s t) (h2 : CgenMoved t u) : CgenMoved s u := by
  unfold CgenMoved at *
  rw [h2, h1]

theorem visitNode_sat (s : State) (H : State → Prop) : (visitNode s).Sat (fun _ t => CgenMoved s t) H (fun _ => True) := by
  unfold visitNode
  split
  · exact rfl
  · dsimp only
    split
    · exact rfl
    · refine Run.Sat.bind (pushNode_sat _ _ _ _ H) fun _ t h1 => Run.Sat.bind (pushNode_sat _ _ _ _ H) fun _ u h2 => ?_
      exact CgenMoved.trans (t := { s with cgsp := ⟨s.cgsp.val - 1, by omega⟩ }) rfl (h1.trans h2)

theorem cgenBody_sat (s : State) (H : State → Prop) : (cgenBody s).Sat (fun _ t => CgenMoved s t) H (fun _ => True) := by
  refine Run.Sat.bind (pushNode_sat _ _ _ _ H) fun _ t h1 => ?_
  refine Run.loop_sat (Q := CgenMoved s) (CgenMoved s) trivial (fun u hu => ?_) _ _ ?_
  · refine (visitNode_sat u H).mono (fun again v hv => ?_) (fun _ h => h) (fun _ h => h)
    cases again <;> exact hu.trans hv
  · exact CgenMoved.trans (t := { s with code := s.code.map fun c => { c with valid := false }, cgsp := 0 }) rfl h1

/-! ### HDRW, TABW, FLUSH -/

/-- HDRW's reach: FSIZE, the output, the trace. -/
structure HdrwMoved (s t : State) : Prop where
  eq : t = { s with fsize := t.fsize, output := t.output, trace := t.trace }
  more : ∃ bs, t.output.data = s.output.data ++ bs

theorem hdrwBody_sat (s : State) :
    (hdrwBody s).Sat (fun _ t => HdrwMoved s t) (fun t => ∃ u, HdrwMoved s u ∧ StopsAt (· = .io) u t) (fun _ => False) := by
  have key : ∀ u, OutMoved { s with fsize := s.node[s.root].weight } u → HdrwMoved s u := by
    rintro u ⟨e, m⟩
    refine ⟨?_, m⟩
    rw [e]
  exact (writeBytes_sat _ _).mono (fun _ _ h => key _ h) (fun v ⟨u, hu, hs⟩ => ⟨u, key u hu, hs⟩) fun _ h => h

theorem tabwBody_sat (s : State) :
    (tabwBody s).Sat (fun _ t => OutMoved s t) (fun t => ∃ u, OutMoved s u ∧ StopsAt (· = .io) u t)
      (fun _ => 256 < s.tsize.toNat) := by
  unfold tabwBody
  split
  · exact (writeBytes_sat _ _).mono (fun _ _ h => h) (fun _ h => h) fun _ h => h.elim
  · rename_i h; simp only [Run.sat_fault]; omega

/-- FLUSH's reach: ACC, NBITS, the output, the trace. -/
structure FlushMoved (s t : State) : Prop where
  eq : t = { s with acc := t.acc, nbits := t.nbits, output := t.output, trace := t.trace }
  more : ∃ bs, t.output.data = s.output.data ++ bs

theorem flushBody_sat (s : State) :
    (flushBody s).Sat (fun _ t => FlushMoved s t) (fun t => ∃ u, OutMoved s u ∧ StopsAt (· = .io) u t) (fun _ => False) := by
  unfold flushBody
  split
  · exact ⟨rfl, [], by simp⟩
  · refine (outWrite_sat s.acc s).bind fun _ t ht => ?_
    obtain ⟨e, m⟩ := ht
    refine ⟨?_, m⟩
    rw [e]

/-! ### PACK -/

/-- PACK's reach: ACC, NBITS, SYMCNT, both streams, the trace. -/
structure PackMoved (s t : State) : Prop where
  eq : t = { s with
    acc := t.acc, nbits := t.nbits, symcnt := t.symcnt, output := t.output
    input := { s.input with pos := t.input.pos, answers := t.input.answers }, trace := t.trace }
  mono : s.input.pos ≤ t.input.pos
  bound : s.input.pos ≤ s.input.data.length → t.input.pos ≤ s.input.data.length
  more : ∃ bs, t.output.data = s.output.data ++ bs

theorem PackMoved.refl (s : State) : PackMoved s s := ⟨rfl, Nat.le_refl _, id, [], by simp⟩

theorem PackMoved.trans {s t u : State} (h1 : PackMoved s t) (h2 : PackMoved t u) : PackMoved s u := by
  obtain ⟨e1, m1, b1, x, o1⟩ := h1
  obtain ⟨e2, m2, b2, y, o2⟩ := h2
  have hd : t.input.data = s.input.data := by rw [e1]
  refine ⟨?_, Nat.le_trans m1 m2, fun h => by rw [hd] at b2; exact b2 (b1 h), x ++ y, by rw [o2, o1, List.append_assoc]⟩
  rw [e2, e1]

theorem InMoved.pack {s t : State} (h : InMoved s t) : PackMoved s t := by
  obtain ⟨e, m, b⟩ := h
  refine ⟨?_, m, b, [], by rw [e]; simp⟩
  rw [e]

theorem OutMoved.pack {s t : State} (h : OutMoved s t) : PackMoved s t := by
  obtain ⟨e, m⟩ := h
  have hi : t.input = s.input := by rw [e]
  refine ⟨?_, by rw [hi], fun h => by rw [hi]; exact h, m⟩
  rw [e]

/-- The free bits of ACC are 0 (R202). -/
def Padded (s : State) : Prop := ∀ k, k + s.nbits.toNat < 8 → s.acc.getLsbD k = false

theorem packBit_sat (bit : Bool) (s : State) :
    (packBit bit s).Sat (fun _ t => PackMoved s t ∧ t.input = s.input ∧ (Padded s → Padded t))
      (fun t => ∃ u, PackMoved s u ∧ StopsAt (· = .io) u t) (fun _ => False) := by
  have h1 : PackMoved s { s with acc := s.acc ||| accBit bit s.nbits, nbits := s.nbits + 1 } :=
    ⟨rfl, Nat.le_refl _, id, [], by simp⟩
  unfold packBit
  split
  · refine Run.Sat.bind ((outWrite_sat _ _).mono (fun _ _ h => h) (fun v ⟨u, hu, hs⟩ => ⟨u, h1.trans hu.pack, hs⟩)
      fun _ h => h) ?_
    intro _ t ht
    refine ⟨(h1.trans ht.pack).trans ⟨rfl, Nat.le_refl _, id, [], by simp⟩, ?_, fun _ k _ => ?_⟩
    · have e := ht.eq
      show t.input = s.input
      rw [e]
    · simp
  · rename_i h7
    refine ⟨h1, rfl, fun hp k hk => ?_⟩
    have hlt := s.nbits.isLt
    have h7' : s.nbits.toNat ≠ 7 := fun h => h7 (BitVec.eq_of_toNat_eq (by rw [h]; rfl))
    have hn : (s.nbits + 1).toNat = s.nbits.toNat + 1 := by simp; omega
    simp only [hn] at hk
    have e : (accBit bit s.nbits).getLsbD k = false := by
      have := oneBit_getLsbD bit ⟨7 - s.nbits.toNat, by omega⟩ ⟨k, by omega⟩
      unfold accBit
      rw [this]
      have : (⟨k, by omega⟩ : Fin 8) ≠ ⟨7 - s.nbits.toNat, by omega⟩ := by
        intro h; simp only [Fin.mk.injEq] at h; omega
      simp [this]
    simp only [BitVec.getLsbD_or, hp k (by omega), e, Bool.or_self]

theorem packCode_sat : ∀ (t : Nat) (p : Path) (s : State),
    (packCode t p s).Sat (fun _ u => PackMoved s u ∧ u.input = s.input ∧ (Padded s → Padded u))
      (fun v => ∃ u, PackMoved s u ∧ StopsAt (· = .io) u v) (fun _ => False)
  | 0, _, s => ⟨.refl s, rfl, id⟩
  | t + 1, p, s => by
    refine (packBit_sat _ s).bind ?_
    rintro - u ⟨hu, hi, hp⟩
    exact (packCode_sat t p u).mono (fun _ _ h => ⟨hu.trans h.1, h.2.1.trans hi, fun x => h.2.2 (hp x)⟩)
      (fun w ⟨v, hv, hs⟩ => ⟨v, hu.trans hv, hs⟩) fun _ h => h

theorem packBody_sat (s : State) :
    (packBody s).Sat (fun _ t => PackMoved s t ∧ Padded t) (fun t => ∃ u, PackMoved s u ∧ StopsAt (· = .io) u t)
      (fun _ => s.input.data.length < s.input.pos) := by
  refine Run.loop_sat_bounded (Q := fun t => PackMoved s t ∧ Padded t) (fun t => PackMoved s t ∧ Padded t)
    (fun t => t.unread.length) ?_ _ _ ⟨⟨rfl, Nat.le_refl _, id, [], by simp⟩, fun k _ => by simp⟩
    (by show s.unread.length < s.unread.length + 1; omega)
  rintro t ⟨ht, hpad⟩
  have hd : t.input.data = s.input.data := by rw [ht.eq]
  have hb := ht.bound
  refine Run.Sat.bind ((inNext_sat t).mono (fun _ _ h => h) (fun v ⟨u, hu, hs⟩ => ⟨u, ht.trans hu.pack, hs⟩)
    (fun _ hf => by rw [hd] at hf; omega)) ?_
  rintro b u ⟨hm, -, hsome⟩
  have hu := ht.trans hm.pack
  have hpu : Padded u := by
    have e := hm.eq
    intro k hk
    rw [e] at hk ⊢
    exact hpad k hk
  match b with
  | none => exact ⟨hu, hpu⟩
  | some b =>
    obtain ⟨hlt, hpos, -⟩ := hsome b rfl
    show (if (u.code[b.toNat]).valid = false then _ else _ : Run Bool).Sat _ _ _
    split
    · exact ⟨u, hu, .inr ⟨.io, rfl, rfl⟩⟩
    · refine Run.Sat.bind ((packCode_sat _ _ u).mono (fun _ _ h => h) (fun w ⟨v, hv, hs⟩ => ⟨v, hu.trans hv, hs⟩)
        fun _ h => h.elim) ?_
      rintro - v ⟨hv, hi, hpv⟩
      refine ⟨⟨(hu.trans hv).trans ⟨rfl, Nat.le_refl _, id, [], by simp⟩, hpv hpu⟩, ?_⟩
      have e1 : u.input.data = t.input.data := by rw [hm.eq]
      show v.unread.length < t.unread.length
      rw [unread_length, unread_length, hi, e1]
      omega

/-! ### HDRR and TABR -/

/-- HDRR's reach: HBUF, FSIZE, TSIZE, the input's cursor and answers, the trace. -/
structure HdrrMoved (s t : State) : Prop where
  eq : t = { s with
    hbuf := t.hbuf, fsize := t.fsize, tsize := t.tsize
    input := { s.input with pos := t.input.pos, answers := t.input.answers }, trace := t.trace }
  mono : s.input.pos ≤ t.input.pos
  bound : s.input.pos ≤ s.input.data.length → t.input.pos ≤ s.input.data.length

theorem InMoved.hdrr {s t : State} (h : InMoved s t) (hbuf : Vector Byte 20) : HdrrMoved s { t with hbuf := hbuf } := by
  obtain ⟨e, m, b⟩ := h
  refine ⟨?_, m, b⟩
  rw [e]

/-- A stop of HDRR leaves FSIZE and TSIZE alone (R221, R222). -/
theorem hdrrBody_sat (s : State) :
    (hdrrBody s).Sat (fun _ t => HdrrMoved s t)
      (fun t => ∃ u, (HdrrMoved s u ∧ u.fsize = s.fsize ∧ u.tsize = s.tsize) ∧ StopsAt (fun e => e = .io ∨ e = .format) u t)
      (fun _ => s.input.data.length < s.input.pos) := by
  have key : ∀ (u : State) (hbuf : Vector Byte 20), InMoved s u → HdrrMoved s { u with hbuf := hbuf } ∧
      ({ u with hbuf := hbuf } : State).fsize = s.fsize ∧ ({ u with hbuf := hbuf } : State).tsize = s.tsize := by
    intro u hbuf hu
    have e := hu.eq
    refine ⟨hu.hdrr hbuf, ?_, ?_⟩ <;> rw [e]
  refine Run.Sat.bind ((inReadN_sat 20 s).mono (fun _ _ h => h)
    (fun v ⟨u, hu, hs⟩ => ⟨u, key u u.hbuf hu, hs.imp id fun ⟨e, he, h⟩ => ⟨e, .inl he, h⟩⟩) (fun _ h => h)) ?_
  rintro bs u ⟨hu, -⟩
  split
  · exact ⟨u, key u u.hbuf hu, .inr ⟨.format, .inr rfl, rfl⟩⟩
  · dsimp only
    split
    · have h := hu.hdrr (tabulate 20 fun k => bs.getD k.val 0)
      obtain ⟨e, m, b⟩ := h
      have e2 := hu.eq
      refine ⟨?_, m, b⟩
      show ({ u with hbuf := _, fsize := _, tsize := _ } : State) = { s with
        hbuf := _, fsize := _, tsize := _, input := { s.input with pos := u.input.pos, answers := u.input.answers }
        trace := u.trace }
      rw [e2]
    · exact ⟨_, key u _ hu, .inr ⟨.format, .inr rfl, rfl⟩⟩

/-- TABR's reach: TAB, the input's cursor and answers, the trace. -/
structure TabrMoved (s t : State) : Prop where
  eq : t = { s with
    tab := t.tab, input := { s.input with pos := t.input.pos, answers := t.input.answers }, trace := t.trace }
  mono : s.input.pos ≤ t.input.pos
  bound : s.input.pos ≤ s.input.data.length → t.input.pos ≤ s.input.data.length

theorem TabrMoved.trans {s t u : State} (h1 : TabrMoved s t) (h2 : InMoved t u) (tab : Vector Word 256) :
    TabrMoved s { u with tab := tab } := by
  obtain ⟨e1, m1, b1⟩ := h1
  obtain ⟨e2, m2, b2⟩ := h2
  have hd : t.input.data = s.input.data := by rw [e1]
  refine ⟨?_, Nat.le_trans m1 m2, fun h => by rw [hd] at b2; exact b2 (b1 h)⟩
  rw [e2, e1]

/-- TABR completes only with a table size in 2..256 (R223, R224). -/
theorem tabrBody_sat (s : State) :
    (tabrBody s).Sat (fun _ t => TabrMoved s t ∧ 2 ≤ s.tsize.toNat ∧ s.tsize.toNat ≤ 256)
      (fun t => ∃ u, TabrMoved s u ∧ StopsAt (fun e => e = .io ∨ e = .format) u t)
      (fun _ => s.input.data.length < s.input.pos) := by
  have h0 : TabrMoved s s := ⟨rfl, Nat.le_refl _, id⟩
  unfold tabrBody
  split
  · exact ⟨s, h0, .inr ⟨.format, .inr rfl, rfl⟩⟩
  · rename_i hr
    refine (Run.each_sat (fun _ t => TabrMoved s t) ?_ _ s h0).mono (fun _ _ h => ⟨h, by omega, by omega⟩)
      (fun _ h => h) (fun _ h => h)
    intro k _ t ht
    have hd : t.input.data = s.input.data := by rw [ht.eq]
    have hb := ht.bound
    refine Run.Sat.bind ((inReadN_sat 8 t).mono (fun _ _ h => h)
      (fun v ⟨u, hu, hs⟩ => ⟨u, ht.trans hu u.tab, hs.imp id fun ⟨e, he, h⟩ => ⟨e, .inl he, h⟩⟩)
      (fun _ hf => by rw [hd] at hf; omega)) ?_
    rintro bs u ⟨hu, -⟩
    split
    · exact ⟨u, ht.trans hu u.tab, .inr ⟨.format, .inr rfl, rfl⟩⟩
    · exact ht.trans hu _

/-! ### WALK -/

/-- WALK's reach: CUR, CACHE, CBITS, SYMCNT, both streams, the trace. -/
structure WalkMoved (s t : State) : Prop where
  eq : t = { s with
    cur := t.cur, cache := t.cache, cbits := t.cbits, symcnt := t.symcnt, output := t.output
    input := { s.input with pos := t.input.pos, answers := t.input.answers }, trace := t.trace }
  mono : s.input.pos ≤ t.input.pos
  bound : s.input.pos ≤ s.input.data.length → t.input.pos ≤ s.input.data.length
  more : ∃ bs, t.output.data = s.output.data ++ bs

theorem WalkMoved.refl (s : State) : WalkMoved s s := ⟨rfl, Nat.le_refl _, id, [], by simp⟩

theorem WalkMoved.trans {s t u : State} (h1 : WalkMoved s t) (h2 : WalkMoved t u) : WalkMoved s u := by
  obtain ⟨e1, m1, b1, x, o1⟩ := h1
  obtain ⟨e2, m2, b2, y, o2⟩ := h2
  have hd : t.input.data = s.input.data := by rw [e1]
  refine ⟨?_, Nat.le_trans m1 m2, fun h => by rw [hd] at b2; exact b2 (b1 h), x ++ y, by rw [o2, o1, List.append_assoc]⟩
  rw [e2, e1]

theorem InMoved.walk {s t : State} (h : InMoved s t) : WalkMoved s t := by
  obtain ⟨e, m, b⟩ := h
  refine ⟨?_, m, b, [], by rw [e]; simp⟩
  rw [e]

theorem OutMoved.walk {s t : State} (h : OutMoved s t) : WalkMoved s t := by
  obtain ⟨e, m⟩ := h
  have hi : t.input = s.input := by rw [e]
  refine ⟨?_, by rw [hi], fun h => by rw [hi]; exact h, m⟩
  rw [e]

/-- The errors of WALK (R251). -/
def WalkError (e : ErrKind) : Prop := e = .io ∨ e = .truncated

theorem StopsAt.io_walk {u t : State} (h : StopsAt (· = .io) u t) : StopsAt WalkError u t :=
  h.imp id fun ⟨e, he, h⟩ => ⟨e, .inl he, h⟩

/-- The bits that are left: those in CACHE and those of the unread bytes. -/
def bitsLeft (s : State) : Nat := 8 * s.unread.length + s.cbits.toNat

theorem refill_sat (s : State) :
    (refill s).Sat
      (fun _ t => WalkMoved s t ∧ t.cur = s.cur ∧ bitsLeft t = bitsLeft s ∧ 1 ≤ t.cbits.toNat ∧
        (s.cbits.toNat ≤ 8 → t.cbits.toNat ≤ 8))
      (fun t => ∃ u, WalkMoved s u ∧ StopsAt WalkError u t) (fun _ => s.input.data.length < s.input.pos) := by
  unfold refill
  split
  · rename_i h0
    refine Run.Sat.bind ((inNext_sat s).mono (fun _ _ h => h) (fun v ⟨u, hu, hs⟩ => ⟨u, hu.walk, hs.io_walk⟩)
      (fun _ h => h)) ?_
    rintro b u ⟨hm, -, hsome⟩
    match b with
    | none => exact ⟨u, hm.walk, .inr ⟨.truncated, .inr rfl, rfl⟩⟩
    | some b =>
      obtain ⟨hlt, hpos, -⟩ := hsome b rfl
      have e := hm.eq
      have ed : u.input.data = s.input.data := by rw [e]
      refine ⟨hm.walk.trans ⟨rfl, Nat.le_refl _, id, [], by simp⟩, ?_, ?_,
        by show 1 ≤ (8 : BitVec 4).toNat; decide, fun _ => by show (8 : BitVec 4).toNat ≤ 8; decide⟩
      · show u.cur = s.cur
        rw [e]
      · show 8 * u.unread.length + 8 = 8 * s.unread.length + s.cbits.toNat
        rw [unread_length, unread_length, ed, h0, hpos]
        simp
        omega
  · rename_i h0
    have h1 : s.cbits.toNat ≠ 0 := fun h => h0 (BitVec.eq_of_toNat_eq (by simpa using h))
    exact ⟨.refl s, rfl, rfl, by omega, id⟩

theorem walkBit_sat (s : State) :
    (walkBit s).Sat
      (fun _ t => WalkMoved s t ∧ (1 ≤ s.cbits.toNat → bitsLeft t < bitsLeft s) ∧
        (1 ≤ s.cbits.toNat → s.cbits.toNat ≤ 8 → t.cbits.toNat ≤ 8) ∧
        (t.cur = s.root ∨ ∃ c w l r, childOf s.node[s.cur] s.cache.msb = some c ∧ s.node[c] = .internal w l r ∧ t.cur = c))
      (fun t => ∃ u, WalkMoved s u ∧ StopsAt WalkError u t)
      (fun _ => childOf s.node[s.cur] s.cache.msb = none) := by
  have hcb : 1 ≤ s.cbits.toNat → (s.cbits - 1).toNat = s.cbits.toNat - 1 := fun h => by
    rw [BitVec.toNat_sub_of_le (by rw [BitVec.le_def]; simpa using h)]; rfl
  unfold walkBit
  split
  · assumption
  · rename_i c hc
    dsimp only
    have h1 : WalkMoved s { s with cache := s.cache <<< 1, cbits := s.cbits - 1, cur := c } :=
      ⟨rfl, Nat.le_refl _, id, [], by simp⟩
    split
    · rename_i w l r hn
      refine ⟨h1, fun h => ?_, fun h _ => ?_, .inr ⟨c, w, l, r, hc, hn, rfl⟩⟩
      · have := hcb h
        show 8 * s.unread.length + (s.cbits - 1).toNat < 8 * s.unread.length + s.cbits.toNat
        omega
      · show (s.cbits - 1).toNat ≤ 8
        have := hcb h
        omega
    · refine Run.Sat.bind ((outWrite_sat _ _).mono (fun _ _ h => h) (fun v ⟨u, hu, hs⟩ => ⟨u, h1.trans hu.walk, hs.io_walk⟩)
        fun _ h => h.elim) ?_
      intro _ t ht
      have e := ht.eq
      have ei : t.input = s.input := by rw [e]
      have ec : t.cbits = s.cbits - 1 := by rw [e]
      refine ⟨(h1.trans ht.walk).trans ⟨rfl, Nat.le_refl _, id, [], by simp⟩, fun h => ?_, fun h _ => ?_, .inl ?_⟩
      · have := hcb h
        show 8 * t.unread.length + t.cbits.toNat < 8 * s.unread.length + s.cbits.toNat
        rw [ec, unread_length, unread_length, ei]
        omega
      · show t.cbits.toNat ≤ 8
        have := hcb h
        rw [ec]
        omega
      · show t.root = s.root
        rw [e]

/-- WALK's reach, on any NODE memory; on one that holds a tree with at least two leaves at ROOT, and a cursor inside the input,
it does not fault (R227). -/
theorem walkBody_sat (s : State) :
    (walkBody s).Sat (fun _ t => WalkMoved s t) (fun t => ∃ u, WalkMoved s u ∧ StopsAt WalkError u t)
      (fun _ => ¬ (s.input.pos ≤ s.input.data.length ∧ ∃ tree, Represents s.node s.root tree ∧ 2 ≤ tree.leaves)) := by
  let P : Prop := s.input.pos ≤ s.input.data.length ∧ ∃ tree, Represents s.node s.root tree ∧ 2 ≤ tree.leaves
  refine Run.loop_sat_bounded (Q := WalkMoved s)
    (fun t => WalkMoved s t ∧ t.cbits.toNat ≤ 8 ∧ (P → ∃ cur, Represents s.node t.cur cur ∧ 2 ≤ cur.leaves))
    bitsLeft ?_ _ _ ⟨⟨rfl, Nat.le_refl _, id, [], by simp⟩, by simp, fun h => h.2⟩
    (by show 8 * s.unread.length + 0 < 8 * s.unread.length + 1; omega)
  rintro t ⟨ht, hc8, hcur⟩
  have en : t.node = s.node := by rw [ht.eq]
  have er : t.root = s.root := by rw [ht.eq]
  have ed : t.input.data = s.input.data := by rw [ht.eq]
  have hb := ht.bound
  unfold walkRound
  split
  · refine Run.Sat.bind ((refill_sat t).mono (fun _ _ h => h) (fun v ⟨u, hu, hs⟩ => ⟨u, ht.trans hu, hs⟩)
      (fun _ hf hP => by have := hb hP.1; rw [ed] at hf; omega)) ?_
    rintro - u ⟨hu, hcu, hbl, h1, h8⟩
    have en2 : u.node = t.node := by rw [hu.eq]
    have er2 : u.root = t.root := by rw [hu.eq]
    have hu2 := ht.trans hu
    refine Run.Sat.bind ((walkBit_sat u).mono (fun _ _ h => h) (fun v ⟨w, hw, hs⟩ => ⟨w, hu2.trans hw, hs⟩)
      (fun _ hf hP => ?_)) ?_
    · obtain ⟨cur, hr, h2⟩ := hcur hP
      rw [← hcu, ← en, ← en2] at hr
      obtain ⟨c, sub, hch, -, -⟩ := childOf_rep hr h2 u.cache.msb
      rw [hch] at hf
      simp at hf
    · rintro - v ⟨hv, hlt, h9, hcv⟩
      refine ⟨⟨hu2.trans hv, h9 h1 (h8 hc8), fun hP => ?_⟩, by have := hlt h1; omega⟩
      rcases hcv with h | ⟨c, w, l, r, hch, hn, hvc⟩
      · rw [h, er2, er]; exact hP.2
      · obtain ⟨cur, hr, h2⟩ := hcur hP
        rw [← hcu, ← en, ← en2] at hr
        obtain ⟨c', sub, hch', -, hsub⟩ := childOf_rep hr h2 u.cache.msb
        rw [hch] at hch'
        cases hch'
        rw [hvc]
        refine ⟨sub, by rw [← en, ← en2]; exact hsub, ?_⟩
        cases sub with
        | leaf a b =>
          have h3 : u.node[c] = .leaf a b := hsub
          rw [hn] at h3
          simp at h3
        | node a x y => exact two_le_leaves_node a x y
  · exact ht

end Sys2Proof.Machine
end

