-- ==== Sys2Proof/Tests/Slice0.lean ====
section
/-!
SUPPORT. The model's own tests. Expected values are those of the spec's encoding table (R108, R110) and of its vectors
(spec/95_test_vectors.md, cited by number). The second half gives, for every statement with hypotheses, a witness that meets them.
-/

namespace Sys2Proof.Tests

open Sys2Proof.Machine

/-! ### Helpers -/

/-- The property of the next state; false of a fault and of a refusal. -/
def after (o : Host.Outcome State Fault Refusal) (p : State → Bool) : Bool :=
  match o with
  | .next t => p t
  | .fault _ => false
  | .refused _ => false

/-- The property of the state a phase's own lines end in, before the command is completed. -/
def ran (r : Run Unit) (p : State → Bool) : Bool :=
  match r with
  | .ok _ t => p t
  | .halt _ => false
  | .fault _ => false

/-- A running command in phase p, these bytes connected as input. -/
def at_ (p : Phase) (bytes : List Byte) : State := { State.reset.enterPhase p with input := ⟨bytes, 0, [], []⟩ }

/-- An idle block whose host is about to write this to CTRL. -/
def writing (v : Word) : State := { State.reset with host := [.csrWrite 0 v] }

/-- A memory of 256 words that starts with these. -/
def words (ws : List Word) : Vector Word 256 := tabulate 256 fun k => ws.getD k.val 0

/-- A NODE memory that starts with these. -/
def nodes (ns : List Node) : Vector Node 511 := tabulate 511 fun k => ns.getD k.val (.leaf 0 0)

/-- The tree of V50: (b,1) (a,3). -/
def nodes50 : Vector Node 511 := nodes [.leaf 1 0x62, .leaf 3 0x61, .internal 4 0 1]

/-- The same tree outside the arena. -/
def tree50 : HTree := .node 4 (.leaf 1 0x62) (.leaf 3 0x61)

/-- The tree of V52: (x,1) (y,1) (z,2). -/
def nodes52 : Vector Node 511 :=
  nodes [.leaf 1 0x78, .leaf 1 0x79, .leaf 2 0x7A, .internal 2 0 1, .internal 4 3 2]

/-- The tree of V53. -/
def nodes53 : Vector Node 511 :=
  nodes [.leaf 1 0x63, .leaf 1 0x64, .leaf 2 0x62, .leaf 2 0x72, .leaf 5 0x61,
    .internal 2 0 1, .internal 4 5 2, .internal 6 3 6, .internal 11 4 7]

/-- The codes of V9: a "0", r "10", b "111", c "1100", d "1101". -/
def codes9 : Vector CodeEntry 256 :=
  ((((State.reset.code.set 0x61 ⟨true, 1, 0⟩).set 0x72 ⟨true, 2, 2⟩).set 0x62 ⟨true, 3, 7⟩).set 0x63 ⟨true, 4, 12⟩).set 0x64
    ⟨true, 4, 13⟩

/-- The codes of V1: b "0", a "1". -/
def codes1 : Vector CodeEntry 256 := (State.reset.code.set 0x62 ⟨true, 1, 0⟩).set 0x61 ⟨true, 1, 1⟩

/-- The eight magic bytes, R91. -/
def H : List Byte := [0x48, 0x55, 0x46, 0x46, 0x4D, 0x41, 0x4E, 0x00]

/-- The table of V1 on the wire. -/
def table1 : List Byte := [0x62, 1, 0, 0, 0, 0, 0, 0, 0x61, 3, 0, 0, 0, 0, 0, 0]

/-- The container of V1, 37 bytes. -/
def container1 : List Byte := H ++ [4, 0, 0, 0, 0, 0, 0, 0] ++ [2, 0, 0, 0] ++ table1 ++ [0xE0]

/-! ### WellFormed: who may issue what (R111) -/

theorem test_host_issues_encode : Instr.encode.wellFormed .host = true := by decide
theorem test_host_may_not_issue_a_phase : Instr.fcount.wellFormed .host = false := by decide
theorem test_sequencer_enters_walk : Instr.walk.wellFormed .sequencer = true := by decide
theorem test_sequencer_may_not_issue_a_command : Instr.encode.wellFormed .sequencer = false := by decide

/-! ### Decoding: the words of R108 and R110, bit by bit -/

theorem test_decode_nop : decodeWord (.ctrl 0b00) = .ok .nop := by decide
theorem test_decode_encode : decodeWord (.ctrl 0b01) = .ok .encode := by decide
theorem test_decode_decode : decodeWord (.ctrl 0b10) = .ok .decode := by decide
theorem test_decode_reservedOp3 : decodeWord (.ctrl 0b11) = .ok .reservedOp3 := by decide
/-- V35: bits 63:2 are ignored. -/
theorem test_decode_upper_bits_ignored : decodeWord (.ctrl 0xFFFFFFFFFFFFFFFD) = .ok .encode := by decide
theorem test_decode_idle : decodeWord (.phase 0b0000) = .ok .idle := by decide
theorem test_decode_fcount : decodeWord (.phase 0b0001) = .ok .fcount := by decide
theorem test_decode_keysort : decodeWord (.phase 0b0010) = .ok .keysort := by decide
theorem test_decode_window : decodeWord (.phase 0b0011) = .ok .window := by decide
theorem test_decode_tbuild : decodeWord (.phase 0b0100) = .ok .tbuild := by decide
theorem test_decode_cgen : decodeWord (.phase 0b0101) = .ok .cgen := by decide
theorem test_decode_hdrw : decodeWord (.phase 0b0110) = .ok .hdrw := by decide
theorem test_decode_tabw : decodeWord (.phase 0b0111) = .ok .tabw := by decide
theorem test_decode_pack : decodeWord (.phase 0b1000) = .ok .pack := by decide
theorem test_decode_flush : decodeWord (.phase 0b1001) = .ok .flush := by decide
theorem test_decode_hdrr : decodeWord (.phase 0b1010) = .ok .hdrr := by decide
theorem test_decode_tabr : decodeWord (.phase 0b1011) = .ok .tabr := by decide
theorem test_decode_walk : decodeWord (.phase 0b1100) = .ok .walk := by decide
theorem test_decode_reserved_phases :
    decodeWord (.phase 0b1101) = .error (.reservedPhase 13) ∧ decodeWord (.phase 0b1111) = .error (.reservedPhase 15) := by
  decide
/-- The opcode table's own widths: 2 bits of CTRL.OP, 4 bits of PHASE. -/
theorem test_table_words :
    decodeTableWord 2 0b11 = some .reservedOp3 ∧ decodeTableWord 4 0b0001 = some .fcount ∧
      decodeTableWord 4 0b1100 = some .walk ∧ decodeTableWord 4 0b1101 = none := by decide

/-- Each row of the table, placed where the step takes it from, runs as the first instruction after reset. -/
theorem test_table_words_run :
    (∀ w ∈ List.range 4, after (step (State.reset.withFetchWord 2 w)) (fun _ => true) = true) ∧
      ∀ w ∈ List.range 13, after (step (State.reset.withFetchWord 4 w)) (fun _ => true) = true := by decide +kernel

/-! ### One step per instruction -/

/-- V33: ERR is sticky. -/
theorem test_nop_keeps_error :
    after (step { writing 0 with err := .format, cmdreg := .decode }) (fun t => t.status == 0x2008) = true := by
  decide +kernel

/-- V37: acceptance clears ERR; STATUS = 0x1101. -/
theorem test_encode_accepted :
    after (step { writing 1 with err := .format, cmdreg := .decode }) (fun t => t.status == 0x1101) = true := by
  decide +kernel

/-- P2 step 1: STATUS = 0x2A01, DONE of the command before is cleared. -/
theorem test_decode_accepted :
    after (step { writing 2 with done := true, cmdreg := .encode }) (fun t => t.status == 0x2A01) = true := by
  decide +kernel

/-- V36: a DECODE while ENCODE runs is ignored. -/
theorem test_decode_ignored_while_busy :
    after (step { at_ .pack [] with host := [.csrWrite 0 2] }) (fun t => t.status == 0x1801) = true := by
  decide +kernel

/-- V34 and P5 step 5. -/
theorem test_reservedOp3_changes_nothing :
    after (step { writing 3 with err := .format, cmdreg := .decode }) (fun t => t.status == 0x2008) = true := by
  decide +kernel

/-- R134: IDLE performs no stream primitive, though a stream is connected. -/
theorem test_idle_reads_nothing :
    after (step { State.reset with input := ⟨[0x41], 0, [], [.err]⟩ }) (fun t => t.status == 0 && t.trace == []) = true := by
  decide +kernel

/-- V40, V41: the counters of `00 FF 00`, whatever FREQ held; the cursor is back at 0. -/
theorem test_fcount_counts :
    after (step { at_ .fcount [0x00, 0xFF, 0x00] with freq := Vector.replicate 256 7 })
      (fun t => t.freq[0] == 2 && t.freq[255] == 1 && t.freq[65] == 0 && t.input.pos == 0 && t.phase == .keysort) = true := by
  decide +kernel

/-- V42: the third InRead fails; STATUS = 0x1004 and nothing has been written. -/
theorem test_fcount_input_error :
    after (step { at_ .fcount [] with input := ⟨[1, 2, 3, 4], 0, [], [.ok, .ok, .ok, .ok, .ok, .err]⟩ })
      (fun t => t.status == 0x1004 && t.output.data == [] && t.input.pos == 2) = true := by
  decide +kernel

/-- V43. -/
theorem test_keysort_order :
    after (step { at_ .keysort [] with freq := (State.reset.freq.set 0x61 3).set 0x62 1 })
      (fun t => t.key[0x60] == 0x60 && t.key[0x61] == 0x63 && t.key[253] == 0xFF && t.key[254] == 0x0162 &&
        t.key[255] == 0x0361) = true := by
  decide +kernel

/-- V48: frequency first, then value. -/
theorem test_keysort_equal_frequencies :
    after (step { at_ .keysort [] with freq := ((State.reset.freq.set 0x10 2).set 0x05 2).set 0x80 1 })
      (fun t => t.key[253] == 0x0180 && t.key[254] == 0x0205 && t.key[255] == 0x0210) = true := by
  decide +kernel

/-- V44: the clamp; the table of an empty input has two entries. -/
theorem test_window_clamps :
    after (step { at_ .window [] with key := tabulate 256 fun k => BitVec.ofNat 64 k.val })
      (fun t => t.wstart == 254 && t.tsize == 2 && t.tab[0] == 0xFE && t.tab[1] == 0xFF) = true := by
  decide +kernel

/-- V47: nothing to skip. -/
theorem test_window_whole_alphabet :
    after (step { at_ .window [] with key := tabulate 256 fun k => BitVec.ofNat 64 (256 + k.val) })
      (fun t => t.wstart == 0 && t.tsize == 256 && t.tab[255] == 0x01FF) = true := by
  decide +kernel

/-- V53: scan moves entries left. -/
theorem test_tbuild_five_entries :
    after (step { at_ .tbuild [] with tsize := 5, tab := words [0x0163, 0x0164, 0x0262, 0x0272, 0x0561] })
      (fun t => t.node[4] == .leaf 5 0x61 && t.node[5] == .internal 2 0 1 && t.node[6] == .internal 4 5 2 &&
        t.node[7] == .internal 6 3 6 && t.node[8] == .internal 11 4 7 && t.root == 8 && t.phase == .cgen) = true := by
  decide +kernel

/-- V55: an unsorted table, in DECODE. -/
theorem test_tbuild_unsorted :
    after (step { at_ .tbuild [] with cmdreg := .decode, tsize := 3, tab := words [0x027A, 0x0178, 0x0179] })
      (fun t => t.node[3] == .internal 3 0 1 && t.node[4] == .internal 4 2 3 && t.root == 4 && t.phase == .walk) = true := by
  decide +kernel

/-- V61. -/
theorem test_cgen_five_codes :
    after (step { at_ .cgen [] with node := nodes53, root := 8 })
      (fun t => t.code[0x61] == ⟨true, 1, 0⟩ && t.code[0x72] == ⟨true, 2, 2⟩ && t.code[0x62] == ⟨true, 3, 7⟩ &&
        t.code[0x63] == ⟨true, 4, 12⟩ && t.code[0x64] == ⟨true, 4, 13⟩ && t.code[0x65].valid == false && t.phase == .hdrw) = true := by
  decide +kernel

/-- V60: codes of V52; a code of the command before is no longer valid. -/
theorem test_cgen_three_codes :
    after (step { at_ .cgen [] with node := nodes52, root := 4, code := codes1 })
      (fun t => t.code[0x78] == ⟨true, 2, 0⟩ && t.code[0x79] == ⟨true, 2, 1⟩ && t.code[0x7A] == ⟨true, 1, 1⟩ &&
        t.code[0x61].valid == false) = true := by
  decide +kernel

/-- V64. -/
theorem test_hdrw_header :
    after (step { at_ .hdrw [] with node := nodes50, root := 2, tsize := 2 })
      (fun t => t.output.data == H ++ [4, 0, 0, 0, 0, 0, 0, 0, 2, 0, 0, 0] && t.fsize == 4) = true := by
  decide +kernel

/-- V75: the ninth OutWrite fails. -/
theorem test_hdrw_output_error :
    after (step { at_ .hdrw [] with node := nodes50, root := 2, tsize := 2, output := ⟨[], List.replicate 8 .ok ++ [.err]⟩ })
      (fun t => t.output.data == H && t.status == 0x1004) = true := by
  decide +kernel

/-- V66. -/
theorem test_tabw_table :
    after (step { at_ .tabw [] with tsize := 2, tab := words [0x0162, 0x0361] })
      (fun t => t.output.data == table1 && t.phase == .pack) = true := by
  decide +kernel

/-- V67: value byte first, then the frequency, least significant byte first. -/
theorem test_tabw_byte_order :
    after (step { at_ .tabw [] with tsize := 1, tab := words [0x11223344556677AB] })
      (fun t => t.output.data == [0xAB, 0x77, 0x66, 0x55, 0x44, 0x33, 0x22, 0x11]) = true := by
  decide +kernel

/-- V69. -/
theorem test_pack_abracadabra :
    after (step { at_ .pack [0x61, 0x62, 0x72, 0x61, 0x63, 0x61, 0x64, 0x61, 0x62, 0x72, 0x61] with code := codes9 })
      (fun t => t.output.data == [0x79, 0x8D] && t.acc == 0x78 && t.nbits == 7 && t.symcnt == 11) = true := by
  decide +kernel

/-- V72: a byte without a code. -/
theorem test_pack_byte_without_code :
    after (step { at_ .pack [0x61, 0x61, 0x61, 0x63] with code := codes1 })
      (fun t => t.status == 0x1004 && t.symcnt == 3 && t.output.data == []) = true := by
  decide +kernel

/-- V73; ACC and NBITS before R44 frees them. -/
theorem test_flush_partial_byte :
    let s := { at_ .flush [] with acc := 0xE0, nbits := 4 }
    after (step s) (fun t => t.output.data == [0xE0] && t.status == 0x1002) = true ∧
      ran (flushBody s) (fun t => t.acc == 0 && t.nbits == 0) = true := by
  decide +kernel

/-- V74. -/
theorem test_flush_nothing_left :
    after (step (at_ .flush [])) (fun t => t.output.data == [] && t.status == 0x1002) = true := by
  decide +kernel

/-- V77: every file_size is accepted. -/
theorem test_hdrr_header :
    after (step (at_ .hdrr (H ++ List.replicate 8 0xFF ++ [0, 1, 0, 0, 0x55])))
      (fun t => t.fsize == 0xFFFFFFFFFFFFFFFF && t.tsize == 256 && t.phase == .tabr && t.input.pos == 20) = true := by
  decide +kernel

/-- V88: bad magic with table_size 0 is the header's FormatError; TSIZE is not written. -/
theorem test_hdrr_bad_magic :
    after (step { at_ .hdrr (List.replicate 20 0) with tsize := 5 })
      (fun t => t.status == 0x2008 && t.tsize == 5 && t.output.data == []) = true := by
  decide +kernel

/-- V78. -/
theorem test_tabr_table :
    after (step { at_ .tabr table1 with tsize := 2 })
      (fun t => t.tab[0] == 0x0162 && t.tab[1] == 0x0361 && t.phase == .tbuild) = true := by
  decide +kernel

/-- V80: all 32 bits count, and no byte is read. -/
theorem test_tabr_size_out_of_range :
    after (step { at_ .tabr table1 with tsize := 0xFFFFFFFF }) (fun t => t.status == 0x2008 && t.trace == []) = true := by
  decide +kernel

/-- V81: the tree of V52, payload 1C; CBITS before R44 frees it. -/
theorem test_walk_symbols :
    let s := { at_ .walk [0x1C] with node := nodes52, root := 4, fsize := 4 }
    after (step s) (fun t => t.output.data == [0x78, 0x79, 0x7A, 0x7A] && t.status == 0x2002) = true ∧
      ran (walkBody s) (fun t => t.cbits == 2) = true := by
  decide +kernel

/-- V83: the ninth symbol is missing. -/
theorem test_walk_truncated :
    after (step { at_ .walk [0xFF] with node := nodes50, root := 2, fsize := 9 })
      (fun t => t.output.data == List.replicate 8 0x61 && t.symcnt == 8 && t.status == 0x200C) = true := by
  decide +kernel

/-- R291 after R302: rst ends a wait on the second byte of a header; the first stays written, the script goes on. -/
theorem test_reset_ends_a_wait :
    after (step { at_ .hdrw [] with output := ⟨[0x48], [.ok]⟩, wait := some (.outWrite 0x55), host := [.rst] })
      (fun t => t.wait == none && t.status == 0 && t.output == ⟨[0x48], [.ok]⟩) = true := by
  decide +kernel

/-! ### The whole-command functions on the source's scenario (V1, S7) -/

theorem test_encode_function : encodeFn [0x61, 0x61, 0x61, 0x62] = container1 := by decide +kernel
theorem test_decode_function : decodeFn container1 = .finished [0x61, 0x61, 0x61, 0x62] 37 := by decide +kernel

/-! ### Witnesses: states and operands that meet the hypotheses of each statement, clause by clause -/

theorem allOk_nil : AllOk [] := by simp [AllOk]

/-- The block at a phase's entry is never hanging, and its streams answer. -/
theorem answered_at (p : Phase) (bytes : List Byte) : (at_ p bytes).Answered :=
  ⟨rfl, allOk_nil, allOk_nil, Nat.zero_le _⟩

/-- The invariant in the middle of a command, at a phase that needs no table, no tree and no padding. -/
theorem inv_at (p : Phase) (bytes : List Byte) (h : p = .fcount ∨ p = .keysort ∨ p = .hdrr ∨ p = .tabr) : Inv (at_ p bytes) := by
  have hc : (at_ p bytes).phase = p ∧ (at_ p bytes).cmdreg = commandOf p := ⟨rfl, rfl⟩
  rcases h with rfl | rfl | rfl | rfl <;>
    exact {
      busy_iff := ⟨nofun, fun _ => rfl⟩, done_alone := nofun, err_alone := fun h => absurd rfl h, err_kind := nofun
      command := fun _ _ => rfl, command_tbuild := nofun, cursor := Nat.zero_le _, waiting := fun h => absurd rfl h
      table := nofun, tree := nofun, padded := nofun }

/-- The invariant at reset, whatever the host and the streams are about to do. -/
theorem inv_idle (host : List HostAct) (bytes : List Byte) :
    Inv { State.reset with host := host, input := ⟨bytes, 0, [], []⟩ } := {
  busy_iff := ⟨nofun, fun h => absurd rfl h⟩, done_alone := nofun, err_alone := fun h => absurd rfl h, err_kind := nofun
  command := fun h => absurd rfl h, command_tbuild := nofun, cursor := Nat.zero_le _, waiting := fun h => absurd rfl h
  table := nofun, tree := nofun, padded := nofun }

theorem rep50 : Represents nodes50 2 tree50 := by
  refine ⟨0, 1, ?_, ?_, ?_⟩
  · decide +kernel
  · show nodes50[(0 : NodeIx)] = _
    decide +kernel
  · show nodes50[(1 : NodeIx)] = _
    decide +kernel

theorem witness_reset : ∃ s : State, s.busy = true ∧ s.host = [.rst] := ⟨{ at_ .pack [1] with host := [.rst] }, rfl, rfl⟩

/-- NopChangesNothing, ReservedCommandChangesNothing, CommandAcceptedIffNotBusy: each OP with every ignored bit set. -/
theorem witness_commands :
    ((0xFFFFFFFFFFFFFFFC : Word).extractLsb' 0 2 = 0#2) ∧ ((0xFFFFFFFFFFFFFFFD : Word).extractLsb' 0 2 = 1#2) ∧
      ((0xFFFFFFFFFFFFFFFE : Word).extractLsb' 0 2 = 2#2) ∧ ((0xFFFFFFFFFFFFFFFF : Word).extractLsb' 0 2 = 3#2) ∧
      (∀ v, (writing v).host = .csrWrite 0 v :: []) ∧ (writing 0).busy = false ∧ (at_ .walk []).busy = true := by
  refine ⟨by decide, by decide, by decide, by decide, fun _ => rfl, rfl, rfl⟩

theorem witness_idle : State.reset.phase = .idle ∧ State.reset.host = [] ∧ Inv State.reset ∧ Inv (at_ .fcount []) :=
  ⟨rfl, rfl, inv_idle [] [], inv_at .fcount [] (.inl rfl)⟩

theorem witness_step_runs :
    ((at_ .walk []).host = [] ∧ decodeWord (.phase (at_ .walk []).phase.code) = .ok .walk) ∧
    ({ at_ .flush [] with host := [.quiet] }.host = .quiet :: [] ∧
      decodeWord (.phase { at_ .flush [] with host := [.quiet] }.phase.code) = .ok .flush) ∧
    ((writing 2).host = .csrWrite 0 2 :: [] ∧ decodeWord (.ctrl 2) = .ok .decode) := by
  refine ⟨⟨rfl, rfl⟩, ⟨rfl, rfl⟩, rfl, by decide⟩

theorem witness_ctrl_decodes : ∃ (v : Word) (i : Instr), decodeWord (.ctrl v) = .ok i := ⟨3, .reservedOp3, by decide⟩

/-- StatusFields, CsrAccess: the CSRs 0 to 5, read and written, idle and busy. -/
theorem witness_csrs :
    (∀ n, { State.reset with host := [.csrRead n] }.host = .csrRead n :: []) ∧
    (∀ n, { at_ .pack [] with host := [.csrRead n] }.busy = true) ∧ State.reset.busy = false ∧
    (∀ n v, { State.reset with host := [.csrWrite n v] }.host = .csrWrite n v :: []) :=
  ⟨fun _ => rfl, fun _ => rfl, rfl, fun _ _ => rfl⟩

/-- StreamsMoveOnlyWhileIdle: busy and idle, and a cursor set to the end of the stream. -/
theorem witness_streams_move :
    { at_ .pack [] with host := [.connectIn [1] [] []] }.busy = true ∧
    { at_ .pack [] with host := [.connectOut []] }.busy = true ∧ { at_ .pack [] with host := [.seekIn 0] }.busy = true ∧
    { State.reset with host := [.connectIn [1] [] []] }.busy = false ∧ { State.reset with host := [.connectOut []] }.busy = false ∧
    (let s := { State.reset with input := ⟨[1, 2], 0, [], []⟩, host := [.seekIn 2] }
     s.busy = false ∧ s.host = .seekIn 2 :: [] ∧ 2 ≤ s.input.data.length) :=
  ⟨rfl, rfl, rfl, rfl, rfl, rfl, rfl, Nat.le_refl 2⟩

/-- ReadNStopsShortAtTheEnd: exactly the bytes there are, and one more. -/
theorem witness_readN :
    (at_ .hdrr (List.replicate 20 0)).Answered ∧ 20 ≤ (at_ .hdrr (List.replicate 20 0)).unread.length ∧
      (at_ .hdrr (List.replicate 20 0)).unread.length < 21 :=
  ⟨answered_at _ _, by decide, by decide⟩

/-- FailedPrimitiveRaisesIoError, UnansweredPrimitiveHangs: both streams, both scripts, and a block that hangs. -/
theorem witness_answers :
    { at_ .hdrr [1] with input := ⟨[1], 0, [], [.err]⟩ }.input.answers = .err :: [] ∧
    { at_ .hdrr [1] with input := ⟨[1], 0, [], [.never]⟩ }.input.answers = .never :: [] ∧
    { at_ .hdrw [] with output := ⟨[], [.err, .ok]⟩ }.output.answers = .err :: [.ok] ∧
    { at_ .hdrw [] with output := ⟨[], [.never]⟩ }.output.answers = .never :: [] ∧
    { at_ .hdrr [1] with wait := some .inRead }.wait = some .inRead ∧ { at_ .hdrr [1] with wait := some .inRead }.host = [] :=
  ⟨rfl, rfl, rfl, rfl, rfl, rfl⟩

/-- FcountCountsAndRewinds: from the first byte, and with the cursor at the end. -/
theorem witness_fcount :
    (at_ .fcount [1, 2]).Answered ∧ (∃ s : State, s.wait = none ∧ AllOk s.input.answers ∧ s.input.pos = 2 ∧ s.input.data = [1, 2]) :=
  ⟨answered_at _ _, { at_ .fcount [] with input := ⟨[1, 2], 2, [], []⟩ }, rfl, allOk_nil, rfl, rfl⟩

theorem long_input (n : Nat) : ∃ s : State, s.wait = none ∧ n ≤ s.input.data.length :=
  ⟨at_ .keysort (List.replicate n 0), rfl, Nat.le_of_eq List.length_replicate.symm⟩

/-- KeysortSortsTheUnits; KeysortRefusesLongInput: an input of 2^56 bytes, and the empty one with its counters. -/
theorem witness_keysort :
    ((at_ .keysort []).wait = none ∧ tooLong (at_ .keysort []) = false) ∧
    (∃ s : State, s.wait = none ∧ 2 ^ 56 ≤ s.input.data.length) ∧
    (∀ b : Fin 256, (at_ .keysort []).freq[b] = BitVec.ofNat 64 ((at_ .keysort []).input.data.count (BitVec.ofFin b))) := by
  exact ⟨⟨rfl, by decide +kernel⟩, long_input (2 ^ 56), by decide +kernel⟩

/-- WindowSkipsZerosAndClamps: z = 0, z = 254, z = 255 and z = 256. -/
theorem witness_window :
    (at_ .window []).wait = none ∧ leadingZeros (tabulate 256 fun k => BitVec.ofNat 64 (256 + k.val)) = 0 ∧
    leadingZeros (tabulate 256 fun k => BitVec.ofNat 64 (k.val + 2)) = 254 ∧
    leadingZeros (tabulate 256 fun k => BitVec.ofNat 64 (k.val + 1)) = 255 ∧
    leadingZeros (tabulate 256 fun k => BitVec.ofNat 64 k.val) = 256 := by
  refine ⟨rfl, ?_, ?_, ?_, ?_⟩ <;> decide +kernel

/-- TbuildBuildsTheMergeTree: tables of 2 and of 256 entries, in ENCODE and in DECODE. -/
theorem witness_tbuild :
    (let s := { at_ .tbuild [] with tsize := 2 }
     s.wait = none ∧ 2 ≤ s.tsize.toNat ∧ s.tsize.toNat ≤ 256 ∧ s.cmdreg = .encode) ∧
    (let s := { at_ .tbuild [] with tsize := 256, cmdreg := .decode }
     s.wait = none ∧ 2 ≤ s.tsize.toNat ∧ s.tsize.toNat ≤ 256 ∧ s.cmdreg ≠ .encode) := by decide +kernel

/-- TbuildFillsTheArenaInOrder. -/
theorem witness_tbuild_next : ∃ s t : State, s.wait = none ∧ 2 ≤ s.tsize.toNat ∧ s.tsize.toNat ≤ 256 ∧
    exec .tbuild s = .next t :=
  ⟨{ at_ .tbuild [] with tsize := 2, tab := words [0x0162, 0x0361] }, _, rfl, by decide, by decide, rfl⟩

/-- RootWeightIsTheSum, ShapeDependsOnFrequenciesOnly: V6 and V7. -/
theorem witness_trees :
    treeOf [0x0341, 0x0342] = some (.node 6 (.leaf 3 0x41) (.leaf 3 0x42)) ∧
    treeOf [0x0343, 0x0344] = some (.node 6 (.leaf 3 0x43) (.leaf 3 0x44)) ∧
    [0x0341, 0x0342].map unitFreq = [0x0343, 0x0344].map unitFreq := by decide +kernel

/-- MergingKeepsTheSequenceSorted: the three leaves of V52, where the merged weight equals the weight that follows. -/
theorem witness_merge :
    let ts : List HTree := [.leaf 1 0x78, .leaf 1 0x79, .leaf 2 0x7A]
    (ts.map fun t => t.weight.toNat).sum < 2 ^ 64 ∧ ts.Pairwise (fun t u => t.weight.toNat ≤ u.weight.toNat) := by decide +kernel

/-- CgenAssignsThePaths, CodesAreTheLeavesAndBounded, WalkEmitsTheSymbols, WalkReportsTruncation. -/
theorem witness_tree_in_node :
    (let s := { at_ .cgen [] with node := nodes50, root := 2 }; s.wait = none ∧ Represents s.node s.root tree50) ∧
    2 ≤ tree50.leaves ∧ tree50.leaves ≤ 256 ∧ tree50.path 0x61 = some [true] ∧ tree50.path 0x62 = some [false] :=
  ⟨⟨rfl, rep50⟩, by decide, by decide, by decide, by decide⟩

/-- CodesArePrefixFree: a code is a prefix of itself. -/
theorem witness_prefix : tree50.path 0x61 = some [true] ∧ [true] <+: [true] := ⟨by decide, List.prefix_refl _⟩

/-- An output stream that takes k bytes and fails at the next. -/
def failsAfter (k : Nat) : OutStream := ⟨[], List.replicate k .ok ++ .err :: []⟩

/-- HdrwWritesTheHeader, TabwWritesTheTable: any byte may fail (k = 0, 19, 2047 in range); the largest table. -/
theorem witness_writers :
    (at_ .hdrw []).wait = none ∧ AllOk (at_ .hdrw []).output.answers ∧
    (∀ k, { at_ .hdrw [] with output := failsAfter k }.output.answers = List.replicate k .ok ++ .err :: []) ∧
    0 < 20 ∧ 19 < 20 ∧ ({ at_ .tabw [] with tsize := 256 }.tsize.toNat ≤ 256) ∧
    2047 < 8 * { at_ .tabw [] with tsize := 256 }.tsize.toNat :=
  ⟨rfl, allOk_nil, fun _ => rfl, by decide, by decide, by decide, by decide⟩

/-- PackWritesTheCodeBits (and its empty input), PackRejectsAByteWithoutCode at the first byte and after others. -/
theorem witness_pack :
    (let s := { at_ .pack [0x61, 0x62] with code := codes1 }
     s.Answered ∧ ∀ b ∈ s.unread, (s.code[b.toNat]).valid = true) ∧
    ((at_ .pack []).Answered ∧ ∀ b ∈ (at_ .pack []).unread, ((at_ .pack []).code[b.toNat]).valid = true) ∧
    (let s := { at_ .pack [0x63] with code := codes1 }
     s.Answered ∧ s.unread = [] ++ 0x63 :: [] ∧ (s.code[(0x63 : Byte).toNat]).valid = false) ∧
    (let s := { at_ .pack [0x61, 0x63, 0x62] with code := codes1 }
     s.Answered ∧ s.unread = [0x61] ++ 0x63 :: [0x62] ∧ (∀ x ∈ [(0x61 : Byte)], (s.code[x.toNat]).valid = true) ∧
       (s.code[(0x63 : Byte).toNat]).valid = false) :=
  ⟨⟨answered_at .pack [0x61, 0x62], by decide +kernel⟩, ⟨answered_at .pack [], by decide +kernel⟩,
    ⟨answered_at .pack [0x63], rfl, by decide +kernel⟩, answered_at .pack [0x61, 0x63, 0x62], rfl, by decide +kernel, by decide +kernel⟩

/-- FlushWritesTheLastByte: NBITS = 0, 1 and 7, and a failing output. -/
theorem witness_flush :
    (at_ .flush []).wait = none ∧ (at_ .flush []).nbits = 0 ∧ { at_ .flush [] with nbits := 1 }.nbits ≠ 0 ∧
    AllOk { at_ .flush [] with nbits := 7 }.output.answers ∧
    { at_ .flush [] with nbits := 7, output := ⟨[], [.err]⟩ }.output.answers = .err :: [] :=
  ⟨rfl, rfl, by decide, allOk_nil, rfl⟩

/-- HdrrReadsTheHeader at exactly 20 bytes; HdrrRejectsShortOrForeignHeaders at 19 bytes and at a wrong eighth byte. -/
theorem witness_hdrr :
    (∀ bytes, (at_ .hdrr bytes).Answered) ∧
    (let s := at_ .hdrr (container1.take 20)
     20 ≤ s.unread.length ∧ s.unread.take 8 = [0x48, 0x55, 0x46, 0x46, 0x4D, 0x41, 0x4E, 0x00]) ∧
    (at_ .hdrr (container1.take 19)).unread.length < 20 ∧
    (at_ .hdrr (container1.set 7 1)).unread.take 8 ≠ [0x48, 0x55, 0x46, 0x46, 0x4D, 0x41, 0x4E, 0x00] := by
  refine ⟨answered_at _, by decide +kernel, by decide +kernel, by decide +kernel⟩

/-- TabrReadsTheTable at 2 and at 256 entries; TabrRejectsBadSizeAndShortTable at 0, 1, 257 and 2^32 - 1, and one byte short. -/
theorem witness_tabr :
    (∀ bytes, (at_ .tabr bytes).Answered) ∧
    (let s := { at_ .tabr table1 with tsize := 2 }
     2 ≤ s.tsize.toNat ∧ s.tsize.toNat ≤ 256 ∧ 8 * s.tsize.toNat ≤ s.unread.length) ∧
    (2 ≤ { at_ .tabr [] with tsize := 256 }.tsize.toNat ∧ { at_ .tabr [] with tsize := 256 }.tsize.toNat ≤ 256 ∧
      ∀ n : Nat, { at_ .tabr (List.replicate n 0) with tsize := 256 }.unread.length = n) ∧
    ((0 : Half).toNat < 2 ∧ (1 : Half).toNat < 2 ∧ 256 < (257 : Half).toNat ∧ 256 < (0xFFFFFFFF : Half).toNat) ∧
    (let s := { at_ .tabr (table1.take 15) with tsize := 2 }
     2 ≤ s.tsize.toNat ∧ s.tsize.toNat ≤ 256 ∧ s.unread.length < 8 * s.tsize.toNat) := by
  refine ⟨answered_at _, by decide +kernel, ⟨by decide, by decide, fun n => ?_⟩, by decide, by decide +kernel⟩
  exact List.length_replicate

/-- WalkEmitsTheSymbols with FSIZE = 0 and with all eight bits of a byte; WalkReportsTruncation with one symbol more. -/
theorem witness_walk :
    (let s := { at_ .walk [0xFF] with node := nodes50, root := 2, fsize := 8 }
     s.Answered ∧ Represents s.node s.root tree50 ∧ (walkTree tree50 tree50 s.fsize.toNat (bitsOf s.unread)).finished = true) ∧
    (walkTree tree50 tree50 0 (bitsOf [])).finished = true ∧
    (walkTree tree50 tree50 9 (bitsOf [0xFF])).finished = false :=
  ⟨⟨⟨rfl, allOk_nil, allOk_nil, Nat.zero_le _⟩, rep50, by decide +kernel⟩, by decide +kernel, by decide +kernel⟩

/-- SilentPhasesFrame, WritingPhasesFrame, ReadingPhasesFrame: each phase answers a next state that does not end the command. -/
theorem witness_frames :
    (∀ i ∈ [Instr.keysort, .window], ∃ t, exec i (at_ .keysort []) = .next t ∧ t.phase ≠ .idle) ∧
    (∃ t, exec .tbuild { at_ .tbuild [] with tsize := 2 } = .next t) ∧
    (∃ t, exec .cgen { at_ .cgen [] with node := nodes50, root := 2 } = .next t) ∧
    (∀ i ∈ [Instr.hdrw, .tabw, .pack, .fcount], ∃ t, exec i (at_ .pack []) = .next t ∧ t.phase ≠ .idle) ∧
    (∃ t, exec .flush { at_ .flush [] with nbits := 1, output := ⟨[], [.never]⟩ } = .next t ∧ t.phase ≠ .idle) ∧
    (∃ t, exec .hdrr (at_ .hdrr container1) = .next t ∧ t.phase ≠ .idle) ∧
    (∃ t, exec .tabr { at_ .tabr table1 with tsize := 2 } = .next t ∧ t.phase ≠ .idle) ∧
    (∃ t, exec .walk { at_ .walk [] with node := nodes50, root := 2, fsize := 1, input := ⟨[], 0, [], [.never]⟩ } = .next t ∧
      t.phase ≠ .idle) := by
  have lift : ∀ (o : Host.Outcome State Fault Refusal), after o (fun t => t.phase != .idle) = true →
      ∃ t, o = .next t ∧ t.phase ≠ .idle := by
    intro o h
    cases o with
    | next t => exact ⟨t, rfl, by simpa [after] using h⟩
    | fault f => cases h
    | refused r => cases h
  have lift' : ∀ (o : Host.Outcome State Fault Refusal), after o (fun t => t.phase != .idle) = true → ∃ t, o = .next t :=
    fun o h => (lift o h).imp fun _ h => h.1
  refine ⟨fun i hi => lift _ ?_, lift' _ (by decide +kernel), lift' _ (by decide +kernel), fun i hi => lift _ ?_,
    lift _ (by decide +kernel), lift _ (by decide +kernel), lift _ (by decide +kernel), lift _ (by decide +kernel)⟩
  · revert i; decide +kernel
  · revert i; decide +kernel

/-- StepKeepsTheInvariant, NoStepFaults, OutputIsAppendOnly, InputIsOnlyRead, PhaseOutcome, FailureLeavesTheReadableRegisters,
NothingWrittenBeforeTheChecks, OutcomeStaysUntilAccepted: a phase that goes on, one that fails, one that hangs, an idle block. -/
theorem witness_steps :
    (∃ s t, Inv s ∧ s.busy = true ∧ s.host = [] ∧ step s = .next t ∧ follows s.phase s.cmdreg = some t.phase) ∧
    (∃ s t, Inv s ∧ s.busy = true ∧ s.host = [] ∧ step s = .next t ∧ t.Failed .format) ∧
    (∃ s t, s.busy = true ∧ s.host = [] ∧ step s = .next t ∧ t.wait = some .inAtEnd) ∧
    (∃ s t, Inv s ∧ s.busy = false ∧ step s = .next t ∧ (∀ rest, s.host ≠ .rst :: rest)) ∧
    (∃ t, exec .fcount (at_ .fcount []) = .next t) := by
  refine ⟨⟨at_ .fcount [], _, inv_at _ _ (.inl rfl), rfl, rfl, rfl, rfl⟩,
    ⟨at_ .hdrr [], _, inv_at _ _ (.inr (.inr (.inl rfl))), rfl, rfl, rfl, rfl, rfl, rfl, rfl⟩,
    ⟨{ at_ .hdrr [] with input := ⟨[], 0, [], [.never]⟩ }, _, rfl, rfl, rfl, rfl⟩,
    ⟨writing 1, _, inv_idle _ _, rfl, rfl, nofun⟩, ⟨_, rfl⟩⟩

/-- LittleEndianInverse, CompositeUnitFields: eight and four bytes, the largest frequency. -/
theorem witness_operands :
    (List.replicate 8 (0xFF : Byte)).length = 8 ∧ (List.replicate 4 (0xFF : Byte)).length = 4 ∧
      (0xFFFFFFFFFFFFFF : Word).toNat < 2 ^ 56 := by decide

/-- HeaderRoundTrip. -/
theorem witness_header_round_trip : ∃ s s' d : State, s.wait = none ∧ AllOk s.output.answers ∧ s.output.data = [] ∧
    exec .hdrw s = .next s' ∧ d.wait = none ∧ AllOk d.input.answers ∧ d.input.pos = 0 ∧ s'.output.data <+: d.input.data :=
  ⟨{ at_ .hdrw [] with node := nodes50, root := 2, tsize := 2 }, _, at_ .hdrr container1, rfl, allOk_nil, rfl, rfl, rfl,
    allOk_nil, rfl, by decide +kernel⟩

/-- ContainerShape, ContainerRoundTrip, TruncatedContainerFails: the empty input and "aaab". -/
theorem witness_inputs : ([] : List Byte).length < 2 ^ 56 ∧ ([0x61, 0x61, 0x61, 0x62] : List Byte) ≠ [] ∧
    ([0x61, 0x61, 0x61, 0x62] : List Byte).length < 2 ^ 56 := by decide

/-- EncodeCommandWritesEncode: P1. -/
theorem witness_encode_command :
    let s := { State.reset with host := [.csrWrite 0 1], input := ⟨[0x61, 0x61, 0x61, 0x62], 0, [], []⟩ }
    Inv s ∧ s.busy = false ∧ s.host = [.csrWrite 0 1] ∧ (1 : Word).extractLsb' 0 2 = 1#2 ∧ s.Answered ∧ s.input.pos = 0 ∧
      s.input.passes = [] ∧ s.input.data.length < 2 ^ 56 :=
  ⟨inv_idle _ _, rfl, rfl, by decide, ⟨rfl, allOk_nil, allOk_nil, Nat.zero_le _⟩, rfl, rfl, by decide⟩

/-- DecodeCommandComputesDecode: P2, and a container that fails. -/
theorem witness_decode_command :
    (∀ bytes : List Byte, let s := { State.reset with host := [.csrWrite 0 2], input := ⟨bytes, 0, [], []⟩ }
      Inv s ∧ s.busy = false ∧ s.host = [.csrWrite 0 2] ∧ (2 : Word).extractLsb' 0 2 = 2#2 ∧ s.Answered ∧ s.input.pos = 0) ∧
    decodeFn container1 = .finished [0x61, 0x61, 0x61, 0x62] 37 ∧ decodeFn (container1.set 7 1) = .failed .format [] :=
  ⟨fun bytes => ⟨inv_idle _ _, rfl, rfl, by decide, ⟨rfl, allOk_nil, allOk_nil, Nat.zero_le _⟩, rfl⟩, by decide +kernel,
    by decide +kernel⟩

end Sys2Proof.Tests
end

section
/-!
PROOFS. The CSRs (spec/10_state.md R33 to R38): STATUS read field by field, and the host's writes that the block ignores.
-/

namespace Sys2Proof.Machine

open BitVec (getLsbD_append getLsbD_ofBool extractLsb'_eq_self extractLsb'_append_eq_of_le extractLsb'_append_eq_right)

/-! ### The fields of STATUS (R36): each proof passes over the fields below its own -/

theorem status_busy (s : State) : s.status.getLsbD 0 = s.busy := by
  rw [State.status, getLsbD_append, if_pos Nat.zero_lt_one, getLsbD_ofBool]
  exact Bool.true_and s.busy

theorem status_done (s : State) : s.status.getLsbD 1 = s.done := by
  rw [State.status, getLsbD_append, if_neg (Nat.lt_irrefl 1), getLsbD_append, if_pos Nat.zero_lt_one, getLsbD_ofBool]
  exact Bool.true_and s.done

/-- What stands above BUSY and DONE. -/
theorem status_above_done (s : State) (start len : Nat) (h : 2 ≤ start) :
    s.status.extractLsb' start len =
      (0#50 ++ s.cmdreg.code ++ s.phase.code ++ 0#3 ++ s.err.code).extractLsb' (start - 2) len := by
  rw [State.status, extractLsb'_append_eq_of_le (by omega), extractLsb'_append_eq_of_le (by omega), Nat.sub_sub]

theorem status_err (s : State) : s.status.extractLsb' 2 3 = s.err.code := by
  rw [status_above_done s 2 3 (by decide), extractLsb'_append_eq_right]

theorem status_zeros_above_err (s : State) : s.status.extractLsb' 5 3 = 0 := by
  rw [status_above_done s 5 3 (by decide), extractLsb'_append_eq_of_le (by decide), extractLsb'_append_eq_right]
  rfl

/-- What stands above ERR and its zeros. -/
theorem status_from_phase (s : State) (start len : Nat) (h : 8 ≤ start) :
    s.status.extractLsb' start len = (0#50 ++ s.cmdreg.code ++ s.phase.code).extractLsb' (start - 8) len := by
  rw [status_above_done s start len (by omega), extractLsb'_append_eq_of_le (by omega),
    extractLsb'_append_eq_of_le (by omega), Nat.sub_sub, Nat.sub_sub]

theorem status_phase (s : State) : s.status.extractLsb' 8 4 = s.phase.code := by
  rw [status_from_phase s 8 4 (by decide), extractLsb'_append_eq_right]

theorem status_cmdreg (s : State) : s.status.extractLsb' 12 2 = s.cmdreg.code := by
  rw [status_from_phase s 12 2 (by decide), extractLsb'_append_eq_of_le (by decide), extractLsb'_append_eq_right]

theorem status_zeros_above_cmdreg (s : State) : s.status.extractLsb' 14 50 = 0 := by
  rw [status_from_phase s 14 50 (by decide), extractLsb'_append_eq_of_le (by decide),
    extractLsb'_append_eq_of_le (by decide), extractLsb'_eq_self]
  rfl

/-! ### The host's writes -/

theorem step_csrWrite {s : State} {n : Nat} {v : Word} {rest : List HostAct} (h : s.host = .csrWrite n v :: rest) :
    step s = writeCsr n v { s with host := rest } := by
  simp only [step, h, runHost]

/-- A write of any CSR but CTRL is ignored (R35, R36, R38). -/
theorem step_csrWrite_ignored {s : State} {n : Nat} {v : Word} {rest : List HostAct} (h : s.host = .csrWrite n v :: rest)
    (hn : n ≠ 0) : step s = .next { s with host := rest } := by
  rw [step_csrWrite h, writeCsr, if_neg hn]

/-! ### The statement -/

/-- Settles O11: each field of STATUS by its own lemma, and CSR 1 is not CTRL. -/
theorem statusFields : Obligations.StatusFields := by
  refine ⟨by decide, fun s => ⟨rfl, status_busy s, status_done s, status_err s, status_zeros_above_err s, status_phase s,
    status_cmdreg s, status_zeros_above_cmdreg s, fun v rest h => ?_⟩⟩
  exact step_csrWrite_ignored h Nat.one_ne_zero

end Sys2Proof.Machine
end

section
/-!
PROOFS. The composite unit (spec/30_encoding.md R93): its number is freq * 256 + value, and each fact about its fields is read off
that number.
-/

namespace Sys2Proof.Machine

/-! ### Assembly and disassembly -/

theorem unitOf_toNat_of_lt {f : Word} (v : Byte) (hf : f.toNat < 2 ^ 56) :
    (unitOf f v).toNat = f.toNat * 256 + v.toNat := by
  rw [unitOf_toNat, Nat.mod_eq_of_lt hf]

/-- No bound on the frequency: what is cut off is above the value. -/
@[simp] theorem unitValue_unitOf (f : Word) (v : Byte) : unitValue (unitOf f v) = v := by
  apply BitVec.eq_of_toNat_eq
  rw [unitValue_toNat, unitOf_toNat, Nat.mul_add_mod_self_right, Nat.mod_eq_of_lt v.isLt]

theorem unitFreq_unitOf {f : Word} (v : Byte) (hf : f.toNat < 2 ^ 56) : unitFreq (unitOf f v) = f := by
  have hv := v.isLt
  apply BitVec.eq_of_toNat_eq
  rw [unitFreq_toNat, unitOf_toNat_of_lt v hf]
  omega

/-- A unit's number is made of its fields. -/
theorem unit_toNat_eq_fields (u : Word) : u.toNat = (unitFreq u).toNat * 256 + (unitValue u).toNat := by
  rw [unitFreq_toNat, unitValue_toNat, Nat.div_add_mod']

@[simp] theorem unitOf_fields (u : Word) : unitOf (unitFreq u) (unitValue u) = u := by
  apply BitVec.eq_of_toNat_eq
  rw [unitOf_toNat_of_lt _ (unitFreq_lt u), ← unit_toNat_eq_fields]

/-! ### Order and bytes -/

/-- The unsigned order of units is the order of the pairs (freq, value): a value is below 256. -/
theorem unit_lt_iff (u v : Word) : u.toNat < v.toNat ↔
    (unitFreq u).toNat < (unitFreq v).toNat ∨ (unitFreq u = unitFreq v ∧ (unitValue u).toNat < (unitValue v).toNat) := by
  have hu := (unitValue u).isLt
  have hv := (unitValue v).isLt
  rw [unit_toNat_eq_fields u, unit_toNat_eq_fields v, ← BitVec.toNat_inj]
  omega

theorem le64_unit (u : Word) : le64 u = unitValue u :: leBytes 7 (unitFreq u).toNat := by
  have hvalue : BitVec.ofNat 8 u.toNat = unitValue u := BitVec.eq_of_toNat_eq (by rw [unitValue_toNat, BitVec.toNat_ofNat])
  rw [le64, leBytes, hvalue, unitFreq_toNat]

/-! ### The statement -/

/-- Settles O53: the number of a unit, its fields, its order and its bytes, each by its own lemma. -/
theorem compositeUnitFields : Obligations.CompositeUnitFields :=
  ⟨fun _ v hf => ⟨unitOf_toNat_of_lt v hf, unitValue_unitOf _ v, unitFreq_unitOf v hf⟩,
    fun u => ⟨unitOf_fields u, unitFreq_lt u⟩, unit_lt_iff, le64_unit⟩

end Sys2Proof.Machine
end

section
/-!
PROOFS. The commands and the phase IDLE (spec/40_commands.md R130 to R134, R109): what each executes, what a CTRL write decodes to,
and that a command leaves a busy block as it is.
-/

namespace Sys2Proof.Machine

/-! ### What each command does -/

theorem exec_nop (s : State) : exec .nop s = .next s := rfl

theorem exec_reservedOp3 (s : State) : exec .reservedOp3 s = .next s := rfl

theorem exec_idle (s : State) : exec .idle s = .next s := rfl

theorem exec_encode (s : State) : exec .encode s = .next (acceptCommand .encode .fcount s) := rfl

theorem exec_decode (s : State) : exec .decode s = .next (acceptCommand .decode .hdrr s) := rfl

/-- A busy block ignores whatever the host issues (R133). -/
theorem exec_command_of_busy {s : State} {i : Instr} (hi : i.issuer = .host) (hb : s.busy = true) : exec i s = .next s := by
  cases i with
  | nop => exact exec_nop s
  | reservedOp3 => exact exec_reservedOp3 s
  | encode => rw [exec_encode, acceptCommand_busy _ _ s hb]
  | decode => rw [exec_decode, acceptCommand_busy _ _ s hb]
  | idle | fcount | keysort | window | tbuild | cgen | hdrw | tabw | pack | flush | hdrr | tabr | walk => cases hi

/-! ### CTRL writes -/

theorem decodeCtrl_nop {v : Word} (h : v.extractLsb' 0 2 = 0#2) : decodeCtrl v = .nop := by simp [decodeCtrl, h]

theorem decodeCtrl_encode {v : Word} (h : v.extractLsb' 0 2 = 1#2) : decodeCtrl v = .encode := by simp [decodeCtrl, h]

theorem decodeCtrl_decode {v : Word} (h : v.extractLsb' 0 2 = 2#2) : decodeCtrl v = .decode := by simp [decodeCtrl, h]

/-- Only commands come from CTRL (R111, R113). -/
theorem decodeCtrl_issuer (v : Word) : (decodeCtrl v).issuer = .host := by
  unfold decodeCtrl
  split_ifs <;> rfl

/-- A CTRL write executes the command it decodes to. -/
theorem step_ctrlWrite {s : State} {v : Word} {rest : List HostAct} (h : s.host = .csrWrite 0 v :: rest) :
    step s = exec (decodeCtrl v) { s with host := rest } := by
  rw [step_csrWrite h, writeCsr, if_pos rfl]

/-! ### The statements -/

/-- Settles O3: NOP's arm, and the CTRL write that decodes to it. -/
theorem nopChangesNothing : Obligations.NopChangesNothing := by
  refine ⟨exec_nop, fun s v rest h hv => ?_⟩
  rw [step_ctrlWrite h, decodeCtrl_nop hv, exec_nop]

/-- Settles O5: IDLE's arm, the sequencer's turn in IDLE, and the invariant's clause on BUSY. -/
theorem idleChangesNothing : Obligations.IdleChangesNothing := by
  refine ⟨exec_idle, fun s hp hh => ?_, fun s hs => ?_⟩
  · rw [step_phase hh, hp]
    exact exec_idle s
  · rw [← Bool.not_eq_true, hs.busy_iff, not_not]

/-- Settles O6: a busy block ignores the host's commands, an idle one accepts them, and CTRL issues them. -/
theorem commandAcceptedIffNotBusy : Obligations.CommandAcceptedIffNotBusy := by
  refine ⟨fun s hb => ?_, fun s hb => ?_, fun s v rest h => ?_⟩
  · exact ⟨exec_command_of_busy rfl hb, exec_command_of_busy rfl hb,
      fun v => exec_command_of_busy (decodeCtrl_issuer v) hb⟩
  · exact ⟨by rw [exec_encode, acceptCommand_idle _ _ s hb], by rw [exec_decode, acceptCommand_idle _ _ s hb]⟩
  · rw [step_ctrlWrite h]
    exact ⟨fun hv => by rw [decodeCtrl_encode hv], fun hv => by rw [decodeCtrl_decode hv]⟩

end Sys2Proof.Machine
end

section
/-!
PROOFS. The table ENCODE builds (spec/40_commands.md R139, spec/44_encode.md R190 to R194): the units of the 256 byte values,
ascending, without the leading ones of frequency 0. While the input is below 2^56 bytes no frequency is cut.
-/

namespace Sys2Proof.Machine

/-! ### The units of an input -/

/-- The unit of a byte value: its number of occurrences and the value (R190). -/
def countUnit (input : List Byte) (b : Fin 256) : Word :=
  unitOf (BitVec.ofNat 64 (input.count (BitVec.ofFin b))) (BitVec.ofFin b)

/-- The units of all byte values, in order of value. -/
def countUnits (input : List Byte) : List Word := List.ofFn (countUnit input)

theorem encodeKeys_perm (input : List Byte) : (encodeKeys input).Perm (countUnits input) := sortUnits_perm _

theorem countUnits_map_unitValue (input : List Byte) : (countUnits input).map unitValue = List.ofFn BitVec.ofFin := by
  rw [countUnits, List.map_ofFn]
  exact congrArg List.ofFn (funext fun b => unitValue_unitOf _ _)

/-- No two units are the same: their values differ. -/
theorem countUnits_nodup (input : List Byte) : (countUnits input).Nodup := by
  refine List.Nodup.of_map unitValue ?_
  rw [countUnits_map_unitValue, List.nodup_ofFn]
  exact fun _ _ h => congrArg BitVec.toFin h

theorem encodeKeys_ascending (input : List Byte) : (encodeKeys input).Pairwise (fun u v => u.toNat < v.toNat) :=
  sorted_strict ((encodeKeys_perm input).nodup_iff.mpr (countUnits_nodup input)) (sortUnits_sorted _)

theorem encodeKeys_length (input : List Byte) : (encodeKeys input).length = 256 := by
  rw [(encodeKeys_perm input).length_eq, countUnits, List.length_ofFn]

/-! ### Frequencies -/

theorem unitFreq_countUnit {input : List Byte} (hlen : input.length < 2 ^ 56) (b : Fin 256) :
    (unitFreq (countUnit input b)).toNat = input.count (BitVec.ofFin b) := by
  have hle : input.count (BitVec.ofFin b) ≤ input.length := List.count_le_length
  have hcount : (BitVec.ofNat 64 (input.count (BitVec.ofFin b))).toNat = input.count (BitVec.ofFin b) := by
    rw [BitVec.toNat_ofNat]
    omega
  rw [countUnit, unitFreq_unitOf _ (by omega), hcount]

/-- Every byte is counted once. -/
theorem sum_count_ofFin (input : List Byte) : ∑ b : Fin 256, input.count (BitVec.ofFin b) = input.length := by
  have hmap (b : Fin 256) : input.count (BitVec.ofFin b) = (input.map BitVec.toFin).count b :=
    (List.count_map_of_injective input BitVec.toFin BitVec.toFin_injective (BitVec.ofFin b)).symm
  simp only [hmap, ← Multiset.coe_count]
  rw [Multiset.sum_count_eq_card (fun b _ => Finset.mem_univ b), Multiset.coe_card, List.length_map]

theorem encodeKeys_freq_sum {input : List Byte} (hlen : input.length < 2 ^ 56) :
    ((encodeKeys input).map fun u => (unitFreq u).toNat).sum = input.length := by
  rw [((encodeKeys_perm input).map _).sum_eq, countUnits, List.map_ofFn, List.sum_ofFn, ← sum_count_ofFin input]
  exact Finset.sum_congr rfl fun b _ => unitFreq_countUnit hlen b

/-! ### The window -/

/-- The unit of a byte value that does not occur. -/
def freqZero (u : Word) : Bool := decide ((unitFreq u).toNat = 0)

theorem freqZero_of_le {u v : Word} (h : u.toNat ≤ v.toNat) (hv : freqZero v = true) : freqZero u = true := by
  simp only [freqZero, decide_eq_true_eq, unitFreq_toNat] at hv ⊢
  omega

/-- Where p passes from right to left in a list, the entries with p are the first ones. -/
theorem all_take_countP {α : Type} {p : α → Bool} : ∀ {l : List α}, l.Pairwise (fun a b => p b = true → p a = true) →
    ∀ a ∈ l.take (l.countP p), p a = true
  | [], _ => by simp
  | x :: xs, h => by
    obtain ⟨hx, hxs⟩ := List.pairwise_cons.mp h
    by_cases hp : p x = true
    · rw [List.countP_cons_of_pos hp, List.take_succ_cons]
      exact List.forall_mem_cons.mpr ⟨hp, all_take_countP hxs⟩
    · have hnone : xs.countP p = 0 := List.countP_eq_zero.mpr fun b hb hpb => hp (hx b hb hpb)
      simp [List.countP_cons_of_neg hp, hnone]

/-- As many keys have frequency 0 as byte values do not occur. -/
theorem encodeKeys_countP_freqZero {input : List Byte} (hlen : input.length < 2 ^ 56) :
    (encodeKeys input).countP freqZero =
      (List.finRange 256).countP fun b => decide (input.count (BitVec.ofFin b) = 0) := by
  rw [(encodeKeys_perm input).countP_eq, countUnits, List.ofFn_eq_map, List.countP_map]
  exact List.countP_congr fun b _ => by simp [freqZero, unitFreq_countUnit hlen]

/-- The window leaves out only keys of frequency 0 (R194). -/
theorem freqZero_of_mem_before_window {input : List Byte} (hlen : input.length < 2 ^ 56) {u : Word}
    (hu : u ∈ (encodeKeys input).take (encodeStart input)) : freqZero u = true := by
  have hstart : encodeStart input ≤ (encodeKeys input).countP freqZero := by
    rw [encodeKeys_countP_freqZero hlen]
    exact Nat.min_le_left _ _
  refine all_take_countP ?_ u (List.take_subset_take_left _ hstart hu)
  exact (encodeKeys_ascending input).imp fun h => freqZero_of_le (Nat.le_of_lt h)

theorem encodeStart_le (input : List Byte) : encodeStart input ≤ 254 := Nat.min_le_right _ _

/-! ### The table -/

theorem encodeTable_length (input : List Byte) : (encodeTable input).length = 256 - encodeStart input := by
  rw [encodeTable, List.length_drop, encodeKeys_length]

theorem two_le_encodeTable_length (input : List Byte) : 2 ≤ (encodeTable input).length := by
  have := encodeStart_le input
  rw [encodeTable_length]
  omega

theorem encodeTable_length_le (input : List Byte) : (encodeTable input).length ≤ 256 := by
  rw [encodeTable_length]
  exact Nat.sub_le _ _

theorem encodeTable_ascending (input : List Byte) : (encodeTable input).Pairwise (fun u v => u.toNat < v.toNat) :=
  (encodeKeys_ascending input).drop

theorem encodeTable_freq_sum {input : List Byte} (hlen : input.length < 2 ^ 56) :
    ((encodeTable input).map fun u => (unitFreq u).toNat).sum = input.length := by
  have hbefore : (((encodeKeys input).take (encodeStart input)).map fun u => (unitFreq u).toNat).sum = 0 := by
    refine List.sum_eq_zero fun f hf => ?_
    obtain ⟨u, hu, rfl⟩ := List.mem_map.mp hf
    exact of_decide_eq_true (freqZero_of_mem_before_window hlen hu)
  have hsum := encodeKeys_freq_sum hlen
  rwa [← List.take_append_drop (encodeStart input) (encodeKeys input), List.map_append, List.sum_append, hbefore,
    Nat.zero_add] at hsum

/-- Every byte of the input has an entry (R194). -/
theorem mem_encodeTable_values {input : List Byte} (hlen : input.length < 2 ^ 56) {b : Byte} (hb : b ∈ input) :
    b ∈ (encodeTable input).map unitValue := by
  refine List.mem_map.mpr ⟨countUnit input b.toFin, ?_, unitValue_unitOf _ _⟩
  have hkey : countUnit input b.toFin ∈ encodeKeys input :=
    (encodeKeys_perm input).mem_iff.mpr (List.mem_ofFn.mpr ⟨_, rfl⟩)
  rw [← List.take_append_drop (encodeStart input) (encodeKeys input)] at hkey
  rcases List.mem_append.mp hkey with hbefore | hin
  · have hzero := of_decide_eq_true (freqZero_of_mem_before_window hlen hbefore)
    rw [unitFreq_countUnit hlen] at hzero
    exact absurd hb (List.count_eq_zero.mp hzero)
  · exact hin

/-! ### Its tree -/

/-- The tree of an input's table: a leaf for each entry, so for every byte of the input. -/
theorem encodeTable_tree {input : List Byte} (hlen : input.length < 2 ^ 56) :
    ∃ t, treeOf (encodeTable input) = some t ∧ 2 ≤ t.leaves ∧ ∀ b ∈ input, b ∈ t.values := by
  have h2 := two_le_encodeTable_length input
  obtain ⟨t, ht, -, hleaves, hvalues, -⟩ := treeOf_spec (List.ne_nil_of_length_pos (by omega : 0 < (encodeTable input).length))
  exact ⟨t, ht, by omega, fun b hb => hvalues.mem_iff.mpr (mem_encodeTable_values hlen hb)⟩

end Sys2Proof.Machine
end

section
/-!
PROOFS. The container (spec/30_encoding.md R90 to R98): where each of its five fields stands, what Decode makes of one, and the two
statements about the containers that ENCODE writes.
-/

namespace Sys2Proof.Machine

/-- The layout of R90. -/
def container (fileSize : Word) (table : List Word) (payload : List Byte) : List Byte :=
  magic ++ (le64 fileSize ++ (le32 (BitVec.ofNat 32 table.length) ++ (table.flatMap le64 ++ payload)))

theorem encodeFn_eq_container (input : List Byte) :
    encodeFn input = container (BitVec.ofNat 64 input.length) (encodeTable input)
      (packBits (payloadBits ((treeOf (encodeTable input)).getD (.leaf 0 0)) input)) := by
  simp only [encodeFn, container, List.append_assoc]

/-! ### The fields -/

theorem flatMap_le64_length : ∀ table : List Word, (table.flatMap le64).length = 8 * table.length
  | [] => rfl
  | u :: us => by
    rw [List.flatMap_cons, List.length_append, le64_length, flatMap_le64_length us, List.length_cons]
    omega

/-- Cutting off the header and the table entries before the k-th. -/
theorem container_drop_header (fs : Word) (table : List Word) (payload : List Byte) (k : Nat) :
    (container fs table payload).drop (20 + k) = (table.flatMap le64 ++ payload).drop k := by
  rw [container, ← List.append_assoc, ← List.append_assoc, ← List.drop_drop, List.drop_left' (by simp)]

section
variable (fs : Word) (table : List Word) (payload : List Byte)

theorem container_length : (container fs table payload).length = 20 + 8 * table.length + payload.length := by
  simp only [container, List.length_append, magic_length, le64_length, le32_length, flatMap_le64_length]
  omega

theorem container_magic : (container fs table payload).take 8 = magic := List.take_left' magic_length

theorem container_fileSize : u64le (((container fs table payload).drop 8).take 8) = fs := by
  rw [container, List.drop_left' magic_length, List.take_left' (le64_length fs), u64le_of_le64]

theorem container_tableSize : u32le (((container fs table payload).drop 16).take 4) = BitVec.ofNat 32 table.length := by
  rw [container, ← List.append_assoc, List.drop_left' (by simp), List.take_left' (le32_length _), u32le_of_le32]

theorem container_payload : (container fs table payload).drop (20 + 8 * table.length) = payload := by
  rw [container_drop_header, List.drop_left' (flatMap_le64_length table)]

end

/-- Reading the entries back, whatever follows them. -/
theorem entries_of_flatMap_le64 (rest : List Byte) : ∀ table : List Word,
    (List.range table.length).map (fun k => u64le (((table.flatMap le64 ++ rest).drop (8 * k)).take 8)) = table
  | [] => rfl
  | u :: us => by
    have htail (k : Nat) : ((u :: us).flatMap le64 ++ rest).drop (8 * (k + 1)) = (us.flatMap le64 ++ rest).drop (8 * k) := by
      rw [Nat.mul_add_one, Nat.add_comm, ← List.drop_drop, List.flatMap_cons, List.append_assoc,
        List.drop_left' (le64_length u)]
    rw [List.length_cons, List.range_succ_eq_map, List.map_cons, List.map_map]
    refine congrArg₂ List.cons ?_ ?_
    · rw [Nat.mul_zero, List.drop_zero, List.flatMap_cons, List.append_assoc, List.take_left' (le64_length u), u64le_of_le64]
    · simp only [Function.comp_def, htail]
      exact entries_of_flatMap_le64 rest us

theorem containerTable_container (fs : Word) (table : List Word) (payload : List Byte) :
    containerTable (container fs table payload) table.length = table := by
  simp only [containerTable, container_drop_header]
  exact entries_of_flatMap_le64 payload table

/-! ### Decode -/

/-- Decode of a container with a table it accepts is the walk over its payload (R140). -/
theorem decodeFn_container (fs : Word) {table : List Word} (payload : List Byte) (h2 : 2 ≤ table.length)
    (h256 : table.length ≤ 256) :
    decodeFn (container fs table payload) =
      let t := (treeOf table).getD (.leaf 0 0)
      let w := walkTree t t fs.toNat (bitsOf payload)
      if w.finished = true then .finished w.out (20 + 8 * table.length + (w.used + 7) / 8)
      else .failed .truncated w.out := by
  have hsize : (BitVec.ofNat 32 table.length).toNat = table.length := by
    rw [BitVec.toNat_ofNat]
    omega
  have hlen := container_length fs table payload
  simp only [decodeFn, container_magic, container_fileSize, container_tableSize, hsize, containerTable_container,
    container_payload]
  rw [if_neg (by omega), if_neg (not_not_intro rfl), if_neg (by omega), if_neg (by omega)]

/-! ### The statements -/

/-- Settles O59: the decoder reads the encoder's table and with it its tree, and the walk over the payload gives the input back
and uses exactly the code bits. -/
theorem containerRoundTrip : Obligations.ContainerRoundTrip := by
  intro input hlen
  obtain ⟨t, ht, hleaves, hvalues⟩ := encodeTable_tree hlen
  have hsize : (BitVec.ofNat 64 input.length).toNat = input.length := by
    rw [BitVec.toNat_ofNat]
    omega
  rw [encodeFn_eq_container, container_length, packBits_length,
    decodeFn_container _ _ (two_le_encodeTable_length input) (encodeTable_length_le input)]
  simp only [ht, Option.getD_some, hsize, bitsOf_packBits, walkTree_payload t hleaves _ input hvalues, if_true]

/-- Settles O56: the fields of a container, and the table's own facts. -/
theorem containerShape : Obligations.ContainerShape := by
  intro input hlen
  have h256 := encodeTable_length_le input
  dsimp only
  rw [encodeFn_eq_container, container_fileSize, container_tableSize, container_length, packBits_length,
    BitVec.toNat_ofNat, BitVec.toNat_ofNat]
  exact ⟨two_le_encodeTable_length input, h256, container_magic _ _ _, Nat.mod_eq_of_lt (by omega),
    Nat.mod_eq_of_lt (by omega), containerTable_container _ _ _, encodeTable_ascending input, encodeTable_freq_sum hlen,
    fun _ => mem_encodeTable_values hlen, rfl⟩

end Sys2Proof.Machine
end

section
/-!
PROOFS. The code generator (spec/43_code_generator.md R180): the phase CGEN on a NODE memory that holds a tree.
-/

namespace Sys2Proof.Machine

/-- CGEN of a block that does not wait ends with the codes of its tree and an empty stack, and goes on to HDRW (R180). -/
theorem exec_cgen_of_represents {s : State} {tree : HTree} (hw : s.wait = none) (h : Represents s.node s.root tree)
    (hl : tree.leaves ≤ 256) :
    ∃ (code : Vector CodeEntry 256) (stk : Vector StackEntry 256),
      exec .cgen s = .next { s with phase := .hdrw, code := code, cgstk := stk, cgsp := 0 } ∧ HoldsCodes code tree := by
  obtain ⟨code, stk, hbody, hcodes⟩ := cgenBody_ok h hl
  have hexec : exec .cgen s = .next (goPhase .hdrw { s with code := code, cgstk := stk, cgsp := 0 }) := runPhase_ok hw hbody
  exact ⟨code, stk, hexec, hcodes⟩

/-- Settles O27: the traversal of the tree below ROOT assigns each leaf its path. -/
theorem cgenAssignsThePaths : Obligations.CgenAssignsThePaths := by
  refine ⟨by decide, fun s tree hw h hl => ?_⟩
  obtain ⟨code, stk, hexec, hcodes⟩ := exec_cgen_of_represents hw h hl
  exact ⟨_, hexec, hcodes, rfl, rfl⟩

end Sys2Proof.Machine
end

section
/-!
PROOFS. KEYSORT and WINDOW (spec/44_encode.md R190 to R193): what the two memories KEY and TAB hold after them, as lists.
-/

namespace Sys2Proof.Machine

/-! ### KEYSORT -/

/-- No two keys are the same, whatever the frequencies: their values differ. -/
theorem rawKeys_nodup (freq : Vector Word 256) : (rawKeys freq).Nodup := by
  refine List.nodup_ofFn.mpr fun b c h => ?_
  have hvalue := congrArg unitValue h
  rw [unitValue_unitOf, unitValue_unitOf] at hvalue
  exact congrArg BitVec.toFin hvalue

theorem sortedKeys_toList (freq : Vector Word 256) : (sortedKeys freq).toList = sortUnits (rawKeys freq) := by
  have hlen : (sortUnits (rawKeys freq)).length = 256 := by rw [sortUnits_length, rawKeys, List.length_ofFn]
  rw [sortedKeys, tabulate_toList]
  refine List.ext_getElem (by rw [List.length_ofFn, hlen]) fun k _ hk => ?_
  rw [List.getElem_ofFn, List.getD_eq_getElem _ _ hk]

theorem sortedKeys_perm (freq : Vector Word 256) : (sortedKeys freq).toList.Perm (rawKeys freq) := by
  rw [sortedKeys_toList]
  exact sortUnits_perm _

theorem sortedKeys_ascending (freq : Vector Word 256) :
    (sortedKeys freq).toList.Pairwise (fun u v => u.toNat < v.toNat) := by
  refine sorted_strict ((sortedKeys_perm freq).nodup_iff.mpr (rawKeys_nodup freq)) ?_
  rw [sortedKeys_toList]
  exact sortUnits_sorted _

/-- KEYSORT of an input that ENCODE admits. -/
theorem exec_keysort {s : State} (hw : s.wait = none) (hlen : tooLong s = false) :
    exec .keysort s = .next { s with phase := .window, key := sortedKeys s.freq } := by
  have hadmitted : ¬ (s.wait = none ∧ tooLong s = true) := by simp [hlen]
  have hexec : exec .keysort s = runPhase keysortBody (goPhase .window) s := if_neg hadmitted
  exact hexec.trans (runPhase_ok (body := keysortBody) hw rfl)

/-- Settles O19: the insertion sort of 256 different keys; any other ascending arrangement is the same list. -/
theorem keysortSortsTheUnits : Obligations.KeysortSortsTheUnits := by
  refine ⟨rfl, fun s hw hlen => ⟨sortedKeys s.freq, exec_keysort hw hlen, sortedKeys_perm s.freq,
    sortedKeys_ascending s.freq, fun other hperm hasc => ?_⟩⟩
  exact sorted_unique hperm hasc ((sortedKeys_ascending s.freq).imp Nat.le_of_lt)

/-! ### WINDOW -/

/-- The leading zero-frequency entries end at the first entry of another frequency. -/
theorem leadingZeros_eq_findIdx (key : Vector Word 256) :
    leadingZeros key = key.toList.findIdx fun u => !(unitFreq u == 0) := by
  rw [leadingZeros, List.takeWhile_eq_take_findIdx_not, List.length_take_of_le List.findIdx_le_length]

theorem leadingZeros_le (key : Vector Word 256) : leadingZeros key ≤ 256 := by
  rw [leadingZeros_eq_findIdx]
  exact List.findIdx_le_length.trans_eq key.length_toList

theorem unitFreq_of_lt_leadingZeros {key : Vector Word 256} {k : Fin 256} (hk : k.val < leadingZeros key) :
    unitFreq key[k] = 0 := by
  rw [leadingZeros_eq_findIdx] at hk
  simpa using List.not_of_lt_findIdx hk

theorem unitFreq_at_leadingZeros {key : Vector Word 256} {k : Fin 256} (hk : k.val = leadingZeros key) :
    unitFreq key[k] ≠ 0 := by
  have hfirst := List.findIdx_getElem (xs := key.toList) (p := fun u => !(unitFreq u == 0))
    (w := by rw [← leadingZeros_eq_findIdx, ← hk, key.length_toList]; exact k.isLt)
  simp only [← leadingZeros_eq_findIdx, ← hk] at hfirst
  simpa using hfirst

/-- TAB after WINDOW: the rest of KEY from the start on, then what TAB held there (R192). -/
theorem windowTable_toList {start : Nat} (hs : start ≤ 256) (key tab : Vector Word 256) :
    (windowTable start key tab).toList = key.toList.drop start ++ tab.toList.drop (256 - start) := by
  rw [windowTable, tabulate_toList]
  have hlen : 256 = (key.toList.drop start ++ tab.toList.drop (256 - start)).length := by
    rw [List.length_append, List.length_drop, List.length_drop, Vector.length_toList, Vector.length_toList]
    omega
  refine List.ext_getElem (List.length_ofFn.trans hlen) fun k hk _ => ?_
  rw [List.length_ofFn] at hk
  rw [List.getElem_ofFn]
  by_cases hwin : k < 256 - start
  · have hix : (ix256 (start + k)).val = start + k := ix256_val (by omega)
    rw [if_pos hwin, List.getElem_append_left (by simpa using hwin)]
    simp [hix]
  · have hold : 256 - start + (k - (256 - start)) = k := by omega
    rw [if_neg hwin, List.getElem_append_right (by simpa using hwin)]
    simp [hold]

theorem exec_window {s : State} (hw : s.wait = none) :
    exec .window s = .next { s with
      phase := .tbuild
      wstart := Fin.ofNat 255 (windowStart s.key)
      tsize := BitVec.ofNat 32 (256 - windowStart s.key)
      tab := windowTable (windowStart s.key) s.key s.tab } := runPhase_ok (body := windowBody) hw rfl

/-- Settles O21: the first key of another frequency, the clamp that leaves two entries, and TAB as a list. -/
theorem windowSkipsZerosAndClamps : Obligations.WindowSkipsZerosAndClamps := by
  refine ⟨rfl, fun s hw => ⟨_, leadingZeros s.key, exec_window hw, leadingZeros_le s.key,
    fun k => unitFreq_of_lt_leadingZeros, fun k => unitFreq_at_leadingZeros, ?_⟩⟩
  have hstart := windowStart_le s.key
  have hwstart : (Fin.ofNat 255 (windowStart s.key)).val = windowStart s.key := Nat.mod_eq_of_lt (by omega)
  have htsize : (BitVec.ofNat 32 (256 - windowStart s.key)).toNat = 256 - windowStart s.key := by
    rw [BitVec.toNat_ofNat]
    omega
  obtain ⟨-, h2, h256⟩ := windowBody_sat s (fun _ => False) (fun _ => False)
  exact ⟨hwstart, htsize, h2, h256, windowTable_toList (by omega) s.key s.tab, rfl⟩

end Sys2Proof.Machine
end

section
/-!
PROOFS. The phases of ENCODE that write the container (spec/44_encode.md R195 to R204): HDRW and TABW write a list of bytes and fail
alike, PACK stops at a byte without a code, FLUSH writes at most one byte.
-/

namespace Sys2Proof.Machine

theorem raiseError_failed (e : ErrKind) (s : State) : (raiseError e s).Failed e := ⟨rfl, rfl, rfl, rfl⟩

/-! ### HDRW and TABW -/

/-- A phase that writes bytes, in a state u of its own making, to an output that fails at the k-th of them (R195, R198). -/
theorem runPhase_writeBytes_fail {body : State → Run Unit} {fin : State → State} {s u : State} {bs : List Byte} {k : Nat}
    {rest : List Answer} (hw : s.wait = none) (hbody : body s = writeBytes bs u) (hk : k < bs.length)
    (ha : u.output.answers = List.replicate k .ok ++ .err :: rest) :
    ∃ t, runPhase body fin s = .next t ∧ t.Failed .io ∧ t.output.data = u.output.data ++ bs.take k ∧ t.fsize = u.fsize ∧
      t.tsize = u.tsize ∧ t.symcnt = u.symcnt ∧ t.cmdreg = u.cmdreg ∧ t.input = u.input := by
  obtain ⟨trace, hwrite⟩ := writeBytes_fail bs k rest u hk ha
  exact ⟨_, runPhase_raise hw (hbody.trans hwrite), raiseError_failed _ _, rfl, rfl, rfl, rfl, rfl, rfl⟩

/-- HDRW sets FSIZE first and then writes the header (R195). -/
theorem hdrwBody_eq (s : State) : hdrwBody s =
    writeBytes (magic ++ le64 s.node[s.root].weight ++ le32 s.tsize) { s with fsize := s.node[s.root].weight } := rfl

theorem header_length (weight : Word) (size : Half) : (magic ++ le64 weight ++ le32 size).length = 20 := by simp

/-- Settles O30: the 20 bytes are written after FSIZE is set, all of them or those before the failing one. -/
theorem hdrwWritesTheHeader : Obligations.HdrwWritesTheHeader := by
  refine ⟨rfl, fun s hw => ⟨fun ha => ?_, fun k rest hk ha => ?_⟩⟩
  · have hbody := (hdrwBody_eq s).trans (writeBytes_ok _ _ ha)
    rw [header_length] at hbody
    exact runPhase_ok hw hbody
  · exact runPhase_writeBytes_fail hw (hdrwBody_eq s) (by rwa [header_length]) ha

/-- TABW writes the entries of a table that fits in TAB (R198). -/
theorem tabwBody_eq {s : State} (hn : s.tsize.toNat ≤ 256) :
    tabwBody s = writeBytes ((s.tab.toList.take s.tsize.toNat).flatMap le64) s := if_pos hn

theorem tabwBytes_length (tab : Vector Word 256) {n : Nat} (hn : n ≤ 256) :
    ((tab.toList.take n).flatMap le64).length = 8 * n := by
  rw [flatMap_le64_length, List.length_take_of_le (by rwa [Vector.length_toList])]

/-- Settles O31: the bytes of the entries are written, all of them or those before the failing one. -/
theorem tabwWritesTheTable : Obligations.TabwWritesTheTable := by
  refine ⟨rfl, fun s hw hn => ⟨fun ha => ?_, fun k rest hk ha => ?_⟩⟩
  · have hbody := (tabwBody_eq hn).trans (writeBytes_ok _ s ha)
    rw [tabwBytes_length s.tab hn] at hbody
    exact runPhase_ok hw hbody
  · exact runPhase_writeBytes_fail hw (tabwBody_eq hn) (by rwa [tabwBytes_length s.tab hn]) ha

/-! ### PACK -/

/-- A byte without a code is read and none of its bits is packed (R201). -/
theorem packByte_uncoded {s : State} {b : Byte} {rest : List Byte} (ha : AllOk s.input.answers) (hu : s.unread = b :: rest)
    (hv : (s.code[b.toNat]).valid = false) :
    packByte s = .raise .io { s with
      input := { s.input with pos := s.input.pos + 1, answers := s.input.answers.drop 2 }
      trace := .read b :: .atEnd false :: s.trace } := by
  rw [packByte, inNext_some ha hu, Run.bind_ok]
  exact if_pos hv

theorem Run.loop_raise {body : State → Run Bool} {n : Nat} {s u : State} {e : ErrKind} (hn : 0 < n)
    (h : body s = .raise e u) : Run.loop n body s = .raise e u := by
  obtain ⟨m, rfl⟩ := Nat.exists_eq_add_one.mpr hn
  rw [Run.loop, h]
  rfl

theorem unread_append {s : State} {before rest : List Byte} (h : s.unread = before ++ rest) :
    s.input.data.drop (s.input.pos + before.length) = rest := by
  rw [← List.drop_drop, ← State.unread, h, List.drop_left]

/-- Settles O33: the rounds before the byte pack its predecessors (packLoop_ok), and its own round raises. -/
theorem packRejectsAByteWithoutCode : Obligations.PackRejectsAByteWithoutCode := by
  intro s before after b hs hu hcoded huncoded
  obtain ⟨hwait, hin, hout, hpos⟩ := hs
  have hrounds : before.length < s.byteRounds := by
    rw [State.byteRounds, hu, List.length_append]
    omega
  have hpacked := Packed.start { s with acc := 0, nbits := 0, symcnt := 0 } rfl rfl
  obtain ⟨events, hloop, -, -⟩ := packLoop_ok before s.output.data [] { s with acc := 0, nbits := 0, symcnt := 0 }
    (b :: after) s.byteRounds hu hpacked hin hout hpos hcoded hrounds
  have hbody := hloop.trans (Run.loop_raise (Nat.sub_pos_of_lt hrounds)
    (packByte_uncoded (hin.drop _) (unread_append hu) huncoded))
  exact ⟨_, runPhase_raise hwait hbody, raiseError_failed _ _, BitVec.zero_add _, rfl, rfl, rfl, rfl, rfl⟩

/-! ### FLUSH -/

/-- No bit is left (R203). -/
theorem flushBody_empty {s : State} (hn : s.nbits = 0) : flushBody s = .ok () s := if_pos hn

theorem flushBody_eq {s : State} (hn : s.nbits ≠ 0) :
    flushBody s = (outWrite s.acc s).bind fun _ u => .ok () { u with acc := 0, nbits := 0 } := if_neg hn

theorem flushBody_ok {s : State} (hn : s.nbits ≠ 0) (ha : AllOk s.output.answers) :
    flushBody s = .ok () { s with
      acc := 0
      nbits := 0
      output := { data := s.output.data ++ [s.acc], answers := s.output.answers.drop 1 }
      trace := .wrote s.acc :: s.trace } := by
  rw [flushBody_eq hn, outWrite_ok _ ha, Run.bind_ok]

theorem outWrite_fail {s : State} {rest : List Answer} (b : Byte) (ha : s.output.answers = .err :: rest) :
    outWrite b s = .raise .io { s with
      output := { s.output with answers := rest }, trace := .failed (.outWrite b) :: s.trace } := by
  rw [outWrite, askOut, ha]
  rfl

theorem flushBody_fail {s : State} {rest : List Answer} (hn : s.nbits ≠ 0) (ha : s.output.answers = .err :: rest) :
    flushBody s = .raise .io { s with
      output := { s.output with answers := rest }, trace := .failed (.outWrite s.acc) :: s.trace } := by
  rw [flushBody_eq hn, outWrite_fail _ ha, Run.bind_raise]

/-- Settles O34: FLUSH's lines without a bit left, with one, and with a failing output; then the end of the command. -/
theorem flushWritesTheLastByte : Obligations.FlushWritesTheLastByte := by
  refine ⟨rfl, fun s hw => ⟨fun hn => ?_, fun hn ha => ?_, fun rest hn ha => ?_⟩⟩
  · exact ⟨flushBody_empty hn, _, runPhase_ok hw (flushBody_empty hn), rfl, rfl, rfl, rfl, rfl, rfl, rfl, rfl, rfl, rfl, rfl,
      rfl⟩
  · exact ⟨flushBody_ok hn ha, _, runPhase_ok hw (flushBody_ok hn ha), rfl, rfl, rfl, rfl, rfl, rfl, rfl, rfl, rfl, rfl, rfl,
      rfl⟩
  · exact ⟨_, runPhase_raise hw (flushBody_fail hn ha), raiseError_failed _ _, rfl, rfl, rfl, rfl⟩

end Sys2Proof.Machine
end

section
/-!
PROOFS. The phases of DECODE that reject a container (spec/45_decode.md R221, R224): HDRR a short or foreign header, TABR a table
size out of range or a short table.
-/

namespace Sys2Proof.Machine

/-! ### HDRR -/

/-- A vector filled from a list of its size holds that list. -/
theorem tabulate_getD_toList {α : Type} {n : Nat} {l : List α} (d : α) (h : l.length = n) :
    (tabulate n fun k => l.getD k.val d).toList = l := by
  subst h
  rw [tabulate_toList]
  exact List.ext_getElem (by simp) fun k _ _ => by simp

/-- Fewer than 20 bytes are left: all of them are read (R221). -/
theorem hdrrBody_short {s : State} (ha : AllOk s.input.answers) (hp : s.input.pos ≤ s.input.data.length)
    (hn : s.unread.length < 20) :
    hdrrBody s = .raise .format { s with
      input := { s.input with pos := s.input.data.length, answers := s.input.answers.drop (2 * s.unread.length + 1) }
      trace := .atEnd true :: (readTrace s.unread ++ s.trace) } := by
  rw [hdrrBody, inReadN_short 20 s ha hp hn, Run.bind_ok, if_pos hn]

/-- Another magic: the whole header is read into HBUF first (R221). -/
theorem hdrrBody_foreign {s : State} (ha : AllOk s.input.answers) (hn : 20 ≤ s.unread.length)
    (hm : s.unread.take 8 ≠ magic) :
    hdrrBody s = .raise .format { s with
      hbuf := tabulate 20 fun k => (s.unread.take 20).getD k.val 0
      input := { s.input with pos := s.input.pos + 20, answers := s.input.answers.drop 40 }
      trace := readTrace (s.unread.take 20) ++ s.trace } := by
  have hlen : (s.unread.take 20).length = 20 := List.length_take_of_le hn
  have hmagic : (tabulate 20 fun k => (s.unread.take 20).getD k.val 0).toList.take 8 ≠ magic := by
    rwa [tabulate_getD_toList 0 hlen, List.take_take]
  rw [hdrrBody, inReadN_ok 20 s ha hn, Run.bind_ok, if_neg hlen.not_lt]
  exact if_neg hmagic

/-- Settles O36: the input ends within the header, or the header is whole and its magic is another one. -/
theorem hdrrRejectsShortOrForeignHeaders : Obligations.HdrrRejectsShortOrForeignHeaders := by
  intro s hw ha hp hbad
  by_cases hn : s.unread.length < 20
  · have hcursor : s.input.data.length = s.input.pos + min 20 s.unread.length := by
      have hlen := unread_length s
      omega
    exact ⟨_, runPhase_raise hw (hdrrBody_short ha hp hn), raiseError_failed _ _, rfl, rfl, rfl, rfl, rfl, hcursor⟩
  · have hn20 : 20 ≤ s.unread.length := Nat.le_of_not_lt hn
    have hcursor : s.input.pos + 20 = s.input.pos + min 20 s.unread.length := by rw [Nat.min_eq_left hn20]
    exact ⟨_, runPhase_raise hw (hdrrBody_foreign ha hn20 (hbad.resolve_left hn)), raiseError_failed _ _, rfl, rfl, rfl, rfl,
      rfl, hcursor⟩

/-! ### TABR -/

/-- The range check comes before any primitive (R224). -/
theorem tabrBody_out_of_range {s : State} (h : s.tsize.toNat < 2 ∨ 256 < s.tsize.toNat) : tabrBody s = .raise .format s :=
  if_pos h

/-- A legal size: TABR is its loop over the entries (R223). -/
theorem tabrBody_in_range {s : State} (h2 : 2 ≤ s.tsize.toNat) (h256 : s.tsize.toNat ≤ 256) :
    tabrBody s = Run.each (List.range' 0 s.tsize.toNat) readEntry s := by
  rw [← List.range_eq_range']
  exact if_neg (by omega)

/-- Settles O38: the range check, then the table's loop up to the end of the input (tabrLoop_short). -/
theorem tabrRejectsBadSizeAndShortTable : Obligations.TabrRejectsBadSizeAndShortTable := by
  refine ⟨fun s hw hsize => ?_, fun s hw ha hp h2 h256 hshort => ?_⟩
  · exact ⟨_, runPhase_raise hw (tabrBody_out_of_range hsize), raiseError_failed _ _, rfl, rfl, rfl, rfl, rfl, rfl, rfl⟩
  · obtain ⟨tab, answers, trace, hloop⟩ := tabrLoop_short s.tsize.toNat 0 s ha hp hshort
    have hbody := (tabrBody_in_range h2 h256).trans hloop
    exact ⟨_, runPhase_raise hw hbody, raiseError_failed _ _, rfl, rfl, rfl, rfl, rfl, rfl⟩

end Sys2Proof.Machine
end

section
/-!
PROOFS. The exceptions (spec/60_exceptions.md R256): a raise halts the phase, and each field of its final state has its own law.
-/

namespace Sys2Proof.Machine

/-- Settles O16: a halted run skips what follows it (Run.bind_raise), and the state it halts in is read field by field. -/
theorem raiseIsOneStep : Obligations.RaiseIsOneStep := by
  refine ⟨fun _ _ e s after => Run.bind_raise e s after, fun e s => ?_⟩
  exact ⟨raiseError_err e s, raiseError_busy e s, raiseError_done e s, raiseError_phase e s, raiseError_cmdreg e s,
    raiseError_fsize e s, raiseError_tsize e s, raiseError_symcnt e s, raiseError_input e s, raiseError_output e s,
    raiseError_host e s, raiseError_wait e s, raiseError_trace e s, raiseError_reads e s⟩

end Sys2Proof.Machine
end

section
/-!
PROOFS. Reset (spec/70_reset_and_hazards.md R290, R291): rst leaves resetBlock's state whatever was running, and with no primitive
waiting the output ports are deasserted; after power-on every CSR reads 0.
-/

namespace Sys2Proof.Machine

/-- Between two transfers the output ports are deasserted (R39). -/
theorem ports_of_not_waiting {s : State} (h : s.wait = none) : s.ports = ⟨false, false, false, 0⟩ := by
  simp only [State.ports, h]

theorem step_rst {s : State} {rest : List HostAct} (h : s.host = .rst :: rest) :
    step s = .next (resetBlock { s with host := rest }) := by
  simp only [step, h, runHost]

theorem reset_status : State.reset.status = 0 := by decide

theorem reset_csr (n : Nat) : State.reset.csr n = 0 := by
  match n with
  | 0 | 2 | 3 | 4 | _ + 5 => rfl
  | 1 => exact reset_status

/-- Settles O1: rst's step read field by field, its ports from the wait it ends, and the CSRs of the state after power-on. -/
theorem resetPutsTheListedState : Obligations.ResetPutsTheListedState := by
  refine ⟨fun s rest h => ?_, rfl, reset_status, reset_csr, rfl, rfl, rfl, rfl⟩
  have hports := ports_of_not_waiting (resetBlock_wait { s with host := rest })
  refine ⟨_, step_rst h, ?_⟩
  simp [hports]

end Sys2Proof.Machine
end

section
/-!
PROOFS. One turn of the sequencer (spec/40_commands.md R134 to R136, R144), said once for all phases: what a phase may have
changed, what it has reached when it completes, what it has left alone when it stops, and the four ways its turn can end.
-/

namespace Sys2Proof.Machine

/-! ### A phase as a body and a last line -/

/-- The lines of a phase before the last one. -/
def bodyOf : Phase → State → Run Unit
  | .idle => .ok ()
  | .fcount => fcountBody
  | .keysort => keysortBody
  | .window => windowBody
  | .tbuild => tbuildBody
  | .cgen => cgenBody
  | .hdrw => hdrwBody
  | .tabw => tabwBody
  | .pack => packBody
  | .flush => flushBody
  | .hdrr => hdrrBody
  | .tabr => tabrBody
  | .walk => walkBody

/-- The last line of a phase (R135). -/
def finish : Phase → State → State
  | .idle => id
  | .fcount => goPhase .keysort
  | .keysort => goPhase .window
  | .window => goPhase .tbuild
  | .tbuild => afterTbuild
  | .cgen => goPhase .hdrw
  | .hdrw => goPhase .tabw
  | .tabw => goPhase .pack
  | .pack => goPhase .flush
  | .flush => completeCommand
  | .hdrr => goPhase .tabr
  | .tabr => goPhase .tbuild
  | .walk => completeCommand

/-- Only KEYSORT has a way out before its body: the refusal of a long input. -/
theorem exec_phase (p : Phase) (s : State) :
    exec p.instr s = runPhase (bodyOf p) (finish p) s ∨
      (s.wait = none ∧ exec p.instr s = .refused .inputTooLong) := by
  cases p with
  | keysort =>
    by_cases hlong : s.wait = none ∧ tooLong s = true
    · exact .inr ⟨hlong.1, if_pos hlong⟩
    · exact .inl (if_neg hlong)
  | idle =>
    left
    cases hw : s.wait with
    | some q => exact (runPhase_waiting hw).symm
    | none => exact (runPhase_ok (body := bodyOf .idle) (fin := finish .idle) hw rfl).symm
  | fcount | window | tbuild | cgen | hdrw | tabw | pack | flush | hdrr | tabr | walk => exact .inl rfl

/-! ### What the lines of a phase do -/

/-- What the lines of a phase may have changed on the way from s to u. -/
def Moved : Phase → State → State → Prop
  | .idle, s, u => u = s
  | .fcount, s, u => FcountMoved s u
  | .keysort, s, u => u = { s with key := u.key }
  | .window, s, u => u = { s with wstart := u.wstart, tsize := u.tsize, tab := u.tab }
  | .tbuild, s, u => u = { s with node := u.node, seq := u.seq, root := u.root, i := u.i, j := u.j, m := u.m }
  | .cgen, s, u => CgenMoved s u
  | .hdrw, s, u => HdrwMoved s u
  | .tabw, s, u => OutMoved s u
  | .pack, s, u => PackMoved s u
  | .flush, s, u => FlushMoved s u
  | .hdrr, s, u => HdrrMoved s u
  | .tabr, s, u => TabrMoved s u
  | .walk, s, u => WalkMoved s u

/-- TSIZE is the size of a table (R160). -/
def TableSize (s : State) : Prop := 2 ≤ s.tsize.toNat ∧ s.tsize.toNat ≤ 256

/-- NODE at ROOT holds a tree of TSIZE leaves (R171). -/
def TreeStands (s : State) : Prop := ∃ t, Represents s.node s.root t ∧ t.leaves = s.tsize.toNat

/-- What a phase has brought about when it completes and the next one relies on. -/
def Reached : Phase → State → Prop
  | .window, u => TableSize u
  | .tabr, u => TableSize u
  | .tbuild, u => TreeStands u
  | .pack, u => Padded u
  | .idle, _ | .fcount, _ | .keysort, _ | .cgen, _ | .hdrw, _ | .tabw, _ | .flush, _ | .hdrr, _ | .walk, _ => True

/-- What a phase that stops early has left alone beyond `Moved`; a phase without stream primitives does not stop. -/
def Halted : Phase → State → State → Prop
  | .hdrr, s, u => u.fsize = s.fsize ∧ u.tsize = s.tsize
  | .flush, s, u => OutMoved s u
  | .fcount, _, _ | .hdrw, _, _ | .tabw, _, _ | .pack, _, _ | .tabr, _, _ | .walk, _, _ => True
  | .idle, _, _ | .keysort, _, _ | .window, _, _ | .tbuild, _, _ | .cgen, _, _ => False

/-- What a phase relies on so as not to fault (R41, R160, R171). -/
structure Ready (p : Phase) (s : State) : Prop where
  cursor : s.input.pos ≤ s.input.data.length
  table : hasTable p = true → TableSize s
  tree : hasTree p = true → TreeStands s

theorem StopsAt.mono {E E' : ErrKind → Prop} {u t : State} (h : StopsAt E u t) (hE : ∀ e, E e → E' e) : StopsAt E' u t :=
  h.imp id fun ⟨e, he, ht⟩ => ⟨e, hE e he, ht⟩

/-- The postconditions of `bodyOf`. -/
def PhaseSat (p : Phase) (s : State) (r : Run Unit) : Prop :=
  r.Sat (fun _ u => Moved p s u ∧ Reached p u)
    (fun t => ∃ u, (Moved p s u ∧ Halted p s u) ∧ StopsAt (fun e => canRaise p e = true) u t)
    (fun _ => ¬ Ready p s)

/-- From a phase's own law to the common form. -/
theorem PhaseSat.of_sat {p : Phase} {s : State} {r : Run Unit} {Q R : State → Prop} {E : ErrKind → Prop} {F : Fault → Prop}
    (h : r.Sat (fun _ u => Q u) (fun t => ∃ u, R u ∧ StopsAt E u t) F) (hQ : ∀ u, Q u → Moved p s u ∧ Reached p u)
    (hR : ∀ u, R u → Moved p s u ∧ Halted p s u) (hE : ∀ e, E e → canRaise p e = true) (hF : ∀ f, F f → ¬ Ready p s) :
    PhaseSat p s r :=
  h.mono (fun _ => hQ) (fun _ ⟨u, hu, hs⟩ => ⟨u, hR u hu, hs.mono hE⟩) hF

theorem OutMoved.flush {s u : State} (h : OutMoved s u) : FlushMoved s u := by
  refine ⟨?_, h.more⟩
  rw [h.eq]

theorem bodyOf_sat (p : Phase) (s : State) : PhaseSat p s (bodyOf p s) := by
  have hio : ∀ {q : Phase}, canRaise q .io = true → ∀ e, e = ErrKind.io → canRaise q e = true := fun h _ he => he ▸ h
  have hcursor : ∀ {q : Phase}, Fault → s.input.data.length < s.input.pos → ¬ Ready q s :=
    fun _ hlt hr => Nat.not_lt.mpr hr.cursor hlt
  cases p with
  | idle => exact ⟨rfl, trivial⟩
  | fcount => exact .of_sat (fcountBody_sat s) (fun _ h => ⟨h, trivial⟩) (fun _ h => ⟨h, trivial⟩) (hio rfl) hcursor
  | keysort => exact ⟨rfl, trivial⟩
  | window => exact windowBody_sat s _ _
  | tbuild =>
    refine (tbuildBody_sat s _).mono (fun _ u h => ⟨h.eq, ?_⟩) (fun _ h => h) fun _ hf hr => hf (hr.table rfl)
    obtain ⟨tree, -, hrep, hleaves⟩ := h.tree
    have hsize : u.tsize = s.tsize := by rw [h.eq]
    exact ⟨tree, hrep, by rw [hsize, hleaves]⟩
  | cgen =>
    by_cases hr : Ready .cgen s
    · obtain ⟨tree, hrep, hleaves⟩ := hr.tree rfl
      obtain ⟨code, stk, hbody, -⟩ := cgenBody_ok hrep (hleaves ▸ (hr.table rfl).2)
      rw [bodyOf, hbody]
      exact ⟨rfl, trivial⟩
    · exact (cgenBody_sat s _).mono (fun _ _ h => ⟨h, trivial⟩) (fun _ h => h) fun _ _ => hr
  | hdrw => exact .of_sat (hdrwBody_sat s) (fun _ h => ⟨h, trivial⟩) (fun _ h => ⟨h, trivial⟩) (hio rfl) fun _ => False.elim
  | tabw =>
    exact .of_sat (tabwBody_sat s) (fun _ h => ⟨h, trivial⟩) (fun _ h => ⟨h, trivial⟩) (hio rfl)
      fun _ hlt hr => Nat.not_lt.mpr (hr.table rfl).2 hlt
  | pack => exact .of_sat (packBody_sat s) (fun _ h => h) (fun _ h => ⟨h, trivial⟩) (hio rfl) hcursor
  | flush =>
    exact .of_sat (flushBody_sat s) (fun _ h => ⟨h, trivial⟩) (fun _ h => ⟨h.flush, h⟩) (hio rfl) fun _ => False.elim
  | hdrr =>
    exact .of_sat (hdrrBody_sat s) (fun _ h => ⟨h, trivial⟩) (fun _ h => h) (fun _ he => by rcases he with rfl | rfl <;> rfl)
      hcursor
  | tabr =>
    refine .of_sat (tabrBody_sat s) (fun u h => ⟨h.1, ?_⟩) (fun _ h => ⟨h, trivial⟩)
      (fun _ he => by rcases he with rfl | rfl <;> rfl) hcursor
    have hsize : u.tsize = s.tsize := by rw [h.1.eq]
    rw [Reached, TableSize, hsize]
    exact h.2
  | walk =>
    refine .of_sat (walkBody_sat s) (fun _ h => ⟨h, trivial⟩) (fun _ h => ⟨h, trivial⟩)
      (fun _ he => by rcases he with rfl | rfl <;> rfl) fun _ hf hr => hf ⟨hr.cursor, ?_⟩
    obtain ⟨tree, hrep, hleaves⟩ := hr.tree rfl
    exact ⟨tree, hrep, hleaves ▸ (hr.table rfl).1⟩

/-! ### How a turn of the sequencer ends -/

/-- The block hangs already; the phase completes; it comes to hang on a primitive; or it raises an error of R251's. -/
inductive PhaseEnds (p : Phase) (s t : State) : Prop
  | hangs (q : Prim) (hwait : s.wait = some q) (ht : t = s)
  | finishes (u : State) (hwait : s.wait = none) (hm : Moved p s u) (hr : Reached p u) (ht : t = finish p u)
  | waits (u : State) (q : Prim) (hwait : s.wait = none) (hm : Moved p s u) (hh : Halted p s u)
      (ht : t = { u with wait := some q })
  | fails (u : State) (e : ErrKind) (hwait : s.wait = none) (hm : Moved p s u) (hh : Halted p s u)
      (he : canRaise p e = true) (ht : t = raiseError e u)

theorem exec_ends {p : Phase} {s t : State} (h : exec p.instr s = .next t) : PhaseEnds p s t := by
  have hrun : runPhase (bodyOf p) (finish p) s = .next t := by
    rcases exec_phase p s with heq | ⟨-, heq⟩
    · rw [← heq, h]
    · cases heq.symm.trans h
  rcases runPhase_ends (bodyOf_sat p s) hrun with
    ⟨q, hq, ht⟩ | ⟨hw, ⟨u, ⟨hm, hr⟩, ht⟩ | ⟨u, q, ⟨hm, hh⟩, ht⟩ | ⟨u, e, ⟨hm, hh⟩, he, ht⟩⟩
  · exact .hangs q hq ht
  · exact .finishes u hw hm hr ht
  · exact .waits u q hw hm hh ht
  · exact .fails u e hw hm hh he ht

/-- A phase that finds what it relies on does not fault. -/
theorem exec_phase_ne_fault {p : Phase} {s : State} (hr : Ready p s) (f : Fault) : exec p.instr s ≠ .fault f := by
  rcases exec_phase p s with heq | ⟨-, heq⟩
  · rw [heq]
    exact runPhase_fault fun _ => Run.Sat.mono (bodyOf_sat p s) (fun _ _ h => h) (fun _ h => h) fun _ hf => hf hr
  · rw [heq]
    nofun

/-! ### What every phase keeps -/

/-- What the lines of no phase touch: the status, the host's side and the wait; and what they keep of the streams. -/
structure Kept (s u : State) : Prop where
  phase : u.phase = s.phase
  busy : u.busy = s.busy
  done : u.done = s.done
  err : u.err = s.err
  cmdreg : u.cmdreg = s.cmdreg
  host : u.host = s.host
  wait : u.wait = s.wait
  reads : u.reads = s.reads
  cursor : s.input.pos ≤ s.input.data.length → u.input.pos ≤ u.input.data.length
  data : s.input.passes = [] → u.input.data = s.input.data
  more : ∃ bs, u.output.data = s.output.data ++ bs

/-- The clauses on the status, the host's side and the wait are those of an equation. -/
theorem Kept.of_eq {s u : State}
    (h : u = { s with
      fsize := u.fsize, tsize := u.tsize, symcnt := u.symcnt, wstart := u.wstart, root := u.root, i := u.i, j := u.j,
      m := u.m, cur := u.cur, acc := u.acc, nbits := u.nbits, cache := u.cache, cbits := u.cbits, freq := u.freq,
      key := u.key, tab := u.tab, node := u.node, seq := u.seq, code := u.code, hbuf := u.hbuf, cgstk := u.cgstk,
      cgsp := u.cgsp, input := u.input, output := u.output, trace := u.trace })
    (hc : s.input.pos ≤ s.input.data.length → u.input.pos ≤ u.input.data.length)
    (hd : s.input.passes = [] → u.input.data = s.input.data) (hm : ∃ bs, u.output.data = s.output.data ++ bs) : Kept s u := by
  constructor
  case cursor => exact hc
  case data => exact hd
  case more => exact hm
  all_goals rw [h]

/-- An output that no line touches is an output with nothing appended. -/
theorem appends_of_output_eq {s u : State} (h : u.output = s.output) : ∃ bs, u.output.data = s.output.data ++ bs :=
  ⟨[], by rw [h, List.append_nil]⟩

theorem Moved.kept {p : Phase} {s u : State} (h : Moved p s u) : Kept s u := by
  cases p with
  | idle => cases h; exact .of_eq rfl id (fun _ => rfl) (appends_of_output_eq rfl)
  | fcount =>
    obtain ⟨heq, hdata, hcursor⟩ := h
    exact .of_eq (by rw [heq]) hcursor hdata (appends_of_output_eq (by rw [heq]))
  | keysort | window | tbuild | cgen =>
    have heq : u = _ := h
    have hin : u.input = s.input := by rw [heq]
    exact .of_eq (by rw [heq]) (by rw [hin]; exact id) (fun _ => by rw [hin]) (appends_of_output_eq (by rw [heq]))
  | hdrw | tabw | flush =>
    obtain ⟨heq, hmore⟩ := h
    have hin : u.input = s.input := by rw [heq]
    exact .of_eq (by rw [heq]) (by rw [hin]; exact id) (fun _ => by rw [hin]) hmore
  | hdrr | tabr =>
    obtain ⟨heq, -, hbound⟩ := h
    have hdata : u.input.data = s.input.data := by rw [heq]
    exact .of_eq (by rw [heq]) (by rw [hdata]; exact hbound) (fun _ => hdata) (appends_of_output_eq (by rw [heq]))
  | pack | walk =>
    obtain ⟨heq, -, hbound, hmore⟩ := h
    have hdata : u.input.data = s.input.data := by rw [heq]
    exact .of_eq (by rw [heq]) (by rw [hdata]; exact hbound) (fun _ => hdata) hmore

/-- Where a phase can stop early, the table's size and the tree stay (R221). -/
theorem Moved.table_of_halted {p : Phase} {s u : State} (hm : Moved p s u) (hh : Halted p s u) :
    u.tsize = s.tsize ∧ u.node = s.node ∧ u.root = s.root := by
  cases p with
  | idle | keysort | window | tbuild | cgen => exact hh.elim
  | hdrr =>
    refine ⟨hh.2, ?_, ?_⟩ <;> rw [hm.eq]
  | fcount | hdrw | tabw | pack | flush | tabr | walk =>
    refine ⟨?_, ?_, ?_⟩ <;> rw [hm.eq]

end Sys2Proof.Machine
end

section
/-!
PROOFS. The decoder (spec/30_encoding.md R108 to R113): it reads exactly the encoder's words, whatever the ignored bits hold.
-/

namespace Sys2Proof.Machine

theorem decodeWord_encodeWith (ignored : BitVec 62) (i : Instr) : decodeWord (encodeWith ignored i) = .ok i := by
  cases i with
  | nop => exact Laws.CodeRoundTrip.nop.1 ignored
  | encode => exact Laws.CodeRoundTrip.encode.1 ignored
  | decode => exact Laws.CodeRoundTrip.decode.1 ignored
  | reservedOp3 => exact Laws.CodeRoundTrip.reservedOp3.1 ignored
  | idle | fcount | keysort | window | tbuild | cgen | hdrw | tabw | pack | flush | hdrr | tabr | walk => rfl

theorem decodeCtrl_reservedOp3 {v : Word} (h : v.extractLsb' 0 2 = 3#2) : decodeCtrl v = .reservedOp3 := by
  simp [decodeCtrl, h]

/-- A CTRL value is the word of the command it decodes to, with its own bits 63:2 (R35, R113). -/
theorem encodeWith_decodeCtrl (v : Word) : encodeWith (v.extractLsb' 2 62) (decodeCtrl v) = .ctrl v := by
  have hv : v.extractLsb' 2 62 ++ v.extractLsb' 0 2 = v := by
    rw [BitVec.extractLsb'_append_extractLsb'_eq_extractLsb' (x := v) (show 2 = 0 + 2 from rfl), BitVec.extractLsb'_eq_self]
  have hop : v.extractLsb' 0 2 = 0#2 ∨ v.extractLsb' 0 2 = 1#2 ∨ v.extractLsb' 0 2 = 2#2 ∨ v.extractLsb' 0 2 = 3#2 := by
    generalize v.extractLsb' 0 2 = op
    revert op
    decide
  rcases hop with h | h | h | h <;> rw [h] at hv
  · rw [decodeCtrl_nop h, encodeWith, hv]
  · rw [decodeCtrl_encode h, encodeWith, hv]
  · rw [decodeCtrl_decode h, encodeWith, hv]
  · rw [decodeCtrl_reservedOp3 h, encodeWith, hv]

/-- A PHASE code that decodes is the word of its phase; the ignored bits are CTRL's alone. -/
theorem encodeWith_of_decodePhase {p : BitVec 4} {i : Instr} (h : decodePhase p = .ok i) (ignored : BitVec 62) :
    encodeWith ignored i = .phase p := by
  unfold decodePhase at h
  split at h
  case h_14 => cases h
  all_goals
    rename_i hp
    cases h
    exact congrArg Encoded.phase (BitVec.eq_of_toNat_eq hp.symm)

/-- R111: the codes that no phase has. -/
theorem decodePhase_error_iff (p : BitVec 4) : decodePhase p = .error (.reservedPhase p) ↔ 13 ≤ p.toNat := by
  revert p
  decide

theorem decodePhase_code (p : Phase) : decodePhase p.code = .ok p.instr := by cases p <;> rfl

theorem phase_code_le (p : Phase) : p.code.toNat ≤ 12 := by cases p <;> decide

/-- Settles O9: an encoding decodes to its instruction; a CTRL value or a PHASE code that decodes is such an encoding. -/
theorem decodeInvertsEncode : Obligations.DecodeInvertsEncode := by
  refine fun e i => ⟨fun h => ?_, fun ⟨ignored, he⟩ => he ▸ decodeWord_encodeWith ignored i⟩
  cases e with
  | ctrl v =>
    cases h
    exact ⟨_, encodeWith_decodeCtrl v⟩
  | phase p => exact ⟨0, encodeWith_of_decodePhase h 0⟩

/-- Settles O10: the reserved codes, the codes of PHASE that STATUS shows, and CTRL's commands. -/
theorem reservedPhasesNeverAppear : Obligations.ReservedPhasesNeverAppear := by
  refine ⟨decodePhase_error_iff, fun s => ?_, fun v i h => ?_⟩
  · rw [status_phase]
    exact phase_code_le s.phase
  · cases h
    exact decodeCtrl_issuer v

/-- Settles O8: the ten words, evaluated. -/
theorem specWordsDecode : Obligations.SpecWordsDecode := by
  unfold Obligations.SpecWordsDecode
  decide

end Sys2Proof.Machine
end

section
/-!
PROOFS. One step of the machine (spec/10_state.md R32 to R38, spec/40_commands.md R138, R146): the sequencer's turn, or one action
of the host.
-/

namespace Sys2Proof.Machine

/-! ### The sequencer's turn -/

theorem runSequencer_eq (s : State) : runSequencer s = exec s.phase.instr s := by
  rw [runSequencer, decodePhase_code]

theorem step_quiet {s : State} {rest : List HostAct} (h : s.host = .quiet :: rest) :
    step s = exec s.phase.instr { s with host := rest } := by
  simp only [step, h, runHost, runSequencer_eq]

/-- Settles O7: the sequencer's turn without an action and after a quiet one, and a CTRL write. -/
theorem stepRunsTheDecodedInstruction : Obligations.StepRunsTheDecodedInstruction := by
  have hinstr {s : State} {i : Instr} (hi : decodeWord (.phase s.phase.code) = .ok i) : s.phase.instr = i := by
    rw [decodeWord, decodePhase_code] at hi
    exact Except.ok.inj hi
  refine ⟨fun s i h hi => ?_, fun s i rest h hi => ?_, fun s i v rest h hi => ?_, fun s => decodePhase_code s.phase⟩
  · rw [step_phase h, hinstr hi]
  · rw [step_quiet h, hinstr hi]
  · rw [step_ctrlWrite h, Except.ok.inj hi]

/-! ### CSR accesses and streams -/

theorem step_csrRead {s : State} {n : Nat} {rest : List HostAct} (h : s.host = .csrRead n :: rest) :
    step s = .next (readCsr n { s with host := rest }) := by
  simp only [step, h, runHost]

theorem csrRead_of_ctrl_or_absent (s : State) {n : Nat} (h : n = 0 ∨ 5 ≤ n) : s.csrRead n = 0 := by
  rw [State.csrRead, if_neg (by omega), if_neg (by omega)]
  rcases h with rfl | h
  · rfl
  · obtain ⟨m, rfl⟩ := Nat.exists_eq_add_of_le' h
    rfl

theorem csrRead_status (s : State) : s.csrRead 1 = s.status := by simp [State.csrRead, State.csr]

theorem csrRead_of_idle {s : State} (h : s.busy = false) (n : Nat) : s.csrRead n = s.csr n := by simp [State.csrRead, h]

/-- Settles O12: the value read, CSR by CSR, and the writes that are ignored. -/
theorem csrAccess : Obligations.CsrAccess := by
  refine ⟨fun s n rest h => ⟨_, _, step_csrRead h, rfl, csrRead_of_ctrl_or_absent _, ?_, ?_, ?_, ?_⟩,
    fun s n v rest h hn => step_csrWrite_ignored h hn⟩
  · rintro rfl
    exact csrRead_status _
  · rintro hb rfl
    exact csrRead_of_idle (s := { s with host := rest }) hb 2
  · rintro hb rfl
    rw [csrRead_of_idle (s := { s with host := rest }) hb 3]
    exact BitVec.toNat_setWidth_of_le (by decide)
  · rintro hb rfl
    exact csrRead_of_idle (s := { s with host := rest }) hb 4

section
variable {s : State} {rest : List HostAct}

theorem step_connectIn {data : List Byte} {passes : List (List Byte)} {answers : List Answer}
    (h : s.host = .connectIn data passes answers :: rest) :
    step s = whenIdle { s with host := rest } { s with host := rest, input := ⟨data, 0, passes, answers⟩ } := by
  simp only [step, h, runHost]

theorem step_connectOut {answers : List Answer} (h : s.host = .connectOut answers :: rest) :
    step s = whenIdle { s with host := rest } { s with host := rest, output := ⟨[], answers⟩ } := by
  simp only [step, h, runHost]

theorem step_seekIn {pos : Nat} (h : s.host = .seekIn pos :: rest) :
    step s = whenIdle { s with host := rest }
      { s with host := rest, input := { s.input with pos := min pos s.input.data.length } } := by
  simp only [step, h, runHost]

end

/-- Settles O13: each of the three actions is refused of a busy block and performed on an idle one. -/
theorem streamsMoveOnlyWhileIdle : Obligations.StreamsMoveOnlyWhileIdle := by
  refine fun s rest data passes answers pos => ⟨fun hb => ?_, fun hb => ?_⟩
  · have hrefused (t : State) : whenIdle { s with host := rest } t = .refused .streamMovedWhileBusy := if_pos hb
    exact ⟨fun h => by rw [step_connectIn h, hrefused], fun h => by rw [step_connectOut h, hrefused],
      fun h => by rw [step_seekIn h, hrefused]⟩
  · have hdone (t : State) : whenIdle { s with host := rest } t = .next t := if_neg (by simp [hb])
    exact ⟨fun h => by rw [step_connectIn h, hdone], fun h => by rw [step_connectOut h, hdone],
      fun h hpos => by rw [step_seekIn h, hdone, Nat.min_eq_left hpos]⟩

/-- Settles O4: OP = 11's arm, and the CTRL write that decodes to it. -/
theorem reservedCommandChangesNothing : Obligations.ReservedCommandChangesNothing := by
  refine ⟨exec_reservedOp3, fun s v rest h hv => ?_⟩
  rw [step_ctrlWrite h, decodeCtrl_reservedOp3 hv, exec_reservedOp3]

/-! ### What a step can be -/

/-- The state after an accepted command (R133). -/
def accepted (c : CmdReg) (p : Phase) (s : State) : State :=
  { s with cmdreg := c, busy := true, done := false, err := .none, phase := p }

theorem acceptCommand_eq_accepted (c : CmdReg) (p : Phase) {s : State} (hb : s.busy = false) :
    acceptCommand c p s = accepted c p s := acceptCommand_idle c p s hb

/-- The two commands and their first phases (R131, R132). -/
def FirstPhase (c : CmdReg) (p : Phase) : Prop := (c = .encode ∧ p = .fcount) ∨ (c = .decode ∧ p = .hdrr)

/-- A command of the host's does nothing, or it is accepted by an idle block (R130 to R133). -/
theorem exec_command {i : Instr} (hi : i.issuer = .host) (s : State) :
    exec i s = .next s ∨ s.busy = false ∧ ∃ c p, FirstPhase c p ∧ exec i s = .next (accepted c p s) := by
  by_cases hb : s.busy = true
  · exact .inl (exec_command_of_busy hi hb)
  · rw [Bool.not_eq_true] at hb
    cases i with
    | nop => exact .inl (exec_nop s)
    | reservedOp3 => exact .inl (exec_reservedOp3 s)
    | encode => exact .inr ⟨hb, .encode, .fcount, .inl ⟨rfl, rfl⟩, by rw [exec_encode, acceptCommand_eq_accepted _ _ hb]⟩
    | decode => exact .inr ⟨hb, .decode, .hdrr, .inr ⟨rfl, rfl⟩, by rw [exec_decode, acceptCommand_eq_accepted _ _ hb]⟩
    | idle | fcount | keysort | window | tbuild | cgen | hdrw | tabw | pack | flush | hdrr | tabr | walk => cases hi

/-- The outcome of a step: the sequencer's turn; a change of the host's side only; the acceptance of a command; a stream moved by
the host, or the refusal to; rst. -/
inductive StepIs (s : State) (o : Host.Outcome State Fault Refusal) : Prop
  | turn (rest : List HostAct) (ho : o = exec s.phase.instr { s with host := rest })
  | nothing (rest : List HostAct) (reads : List (Nat × Word)) (fresh : Nat)
      (ho : o = .next { s with host := rest, reads := reads, fresh := fresh })
  | accepts (rest : List HostAct) (c : CmdReg) (p : Phase) (hb : s.busy = false) (hp : FirstPhase c p)
      (ho : o = .next (accepted c p { s with host := rest }))
  | movesInput (rest : List HostAct) (input : InStream) (hb : s.busy = false) (hc : input.pos ≤ input.data.length)
      (ho : o = .next { s with host := rest, input := input })
  | connectsOutput (rest : List HostAct) (answers : List Answer) (hb : s.busy = false)
      (hh : s.host = .connectOut answers :: rest) (ho : o = .next { s with host := rest, output := ⟨[], answers⟩ })
  | refuses (ho : o = .refused .streamMovedWhileBusy)
  | resets (rest : List HostAct) (hh : s.host = .rst :: rest) (ho : o = .next (resetBlock { s with host := rest }))

theorem whenIdle_cases (s t : State) :
    whenIdle s t = .refused .streamMovedWhileBusy ∨ (s.busy = false ∧ whenIdle s t = .next t) := by
  unfold whenIdle
  split_ifs with hb
  · exact .inl rfl
  · exact .inr ⟨eq_false_of_ne_true hb, rfl⟩

theorem step_is (s : State) : StepIs s (step s) := by
  match hh : s.host with
  | [] => exact .turn [] (by rw [step_phase hh, ← hh])
  | .quiet :: rest => exact .turn rest (step_quiet hh)
  | .csrWrite n v :: rest =>
    by_cases hn : n = 0
    · subst hn
      rw [step_ctrlWrite hh]
      rcases exec_command (decodeCtrl_issuer v) { s with host := rest } with ho | ⟨hb, c, p, hp, ho⟩
      · exact .nothing rest s.reads s.fresh ho
      · exact .accepts rest c p hb hp ho
    · exact .nothing rest s.reads s.fresh (step_csrWrite_ignored hh hn)
  | .csrRead n :: rest => exact .nothing rest _ _ (step_csrRead hh)
  | .connectIn data passes answers :: rest =>
    rw [step_connectIn hh]
    rcases whenIdle_cases { s with host := rest } _ with ho | ⟨hb, ho⟩
    · exact .refuses ho
    · exact .movesInput rest _ hb (Nat.zero_le _) ho
  | .connectOut answers :: rest =>
    rw [step_connectOut hh]
    rcases whenIdle_cases { s with host := rest } _ with ho | ⟨hb, ho⟩
    · exact .refuses ho
    · exact .connectsOutput rest answers hb hh ho
  | .seekIn pos :: rest =>
    rw [step_seekIn hh]
    rcases whenIdle_cases { s with host := rest } _ with ho | ⟨hb, ho⟩
    · exact .refuses ho
    · exact .movesInput rest _ hb (Nat.min_le_right _ _) ho
  | .rst :: rest => exact .resets rest hh (step_rst hh)

/-- Only the sequencer's turn can fault. -/
theorem step_fault {s : State} {f : Fault} (h : step s = .fault f) :
    ∃ rest, exec s.phase.instr { s with host := rest } = .fault f := by
  cases step_is s with
  | turn rest ho => exact ⟨rest, ho ▸ h⟩
  | nothing _ _ _ ho | accepts _ _ _ _ _ ho | movesInput _ _ _ _ ho | connectsOutput _ _ _ _ ho | refuses ho | resets _ _ ho =>
    cases ho.symm.trans h

end Sys2Proof.Machine
end

section
/-!
PROOFS. The invariant (spec/10_state.md section 5, spec/40_commands.md section 2): it holds after every way a step can end, and where
it holds no step faults.
-/

namespace Sys2Proof.Machine

/-! ### States between two commands -/

/-- A block without a command: the clauses on running phases are empty. -/
theorem Inv.of_idle {s : State} (hphase : s.phase = .idle) (hbusy : s.busy = false) (hdone : s.done = true → s.err = .none)
    (herr : s.err ≠ .allocation) (hcursor : s.input.pos ≤ s.input.data.length) (hwait : s.wait = none) : Inv s where
  busy_iff := by simp [hphase, hbusy]
  done_alone h := ⟨hbusy, hdone h⟩
  err_alone h := ⟨hbusy, eq_false_of_ne_true fun hd => h (hdone hd)⟩
  err_kind := herr
  command h := absurd hphase h
  command_tbuild h := by simp [hphase] at h
  cursor := hcursor
  waiting h := absurd hwait h
  table h := by simp [hphase, hasTable] at h
  tree h := by simp [hphase, hasTree] at h
  padded h := by simp [hphase] at h

theorem inv_reset : Inv State.reset := .of_idle rfl rfl nofun nofun (Nat.zero_le _) rfl

theorem inv_resetBlock {s : State} (hcursor : s.input.pos ≤ s.input.data.length) : Inv (resetBlock s) :=
  .of_idle rfl rfl nofun nofun hcursor rfl

theorem inv_raiseError {e : ErrKind} {s : State} (he : e ≠ .allocation) (hcursor : s.input.pos ≤ s.input.data.length)
    (hwait : s.wait = none) : Inv (raiseError e s) :=
  .of_idle rfl rfl nofun he hcursor hwait

theorem inv_completeCommand {s : State} (herr : s.err = .none) (hcursor : s.input.pos ≤ s.input.data.length)
    (hwait : s.wait = none) : Inv (completeCommand s) :=
  .of_idle rfl rfl (fun _ => herr) (by rw [completeCommand_err, herr]; nofun) hcursor hwait

/-- R255, R251: no phase raises AllocationFailure. -/
theorem canRaise_ne_allocation {p : Phase} {e : ErrKind} (h : canRaise p e = true) : e ≠ .allocation := by
  rintro rfl
  cases p <;> cases h

/-! ### The invariant of a running phase -/

section
variable {s : State} (hs : Inv s)
include hs

/-- The host's side is not in the invariant. -/
theorem Inv.host (rest : List HostAct) (reads : List (Nat × Word)) (fresh : Nat) :
    Inv { s with host := rest, reads := reads, fresh := fresh } :=
  { hs with }

theorem Inv.phase_of_not_busy (hb : s.busy = false) : s.phase = .idle := by
  by_contra h
  rw [hs.busy_iff.mpr h] at hb
  cases hb

theorem Inv.wait_of_not_busy (hb : s.busy = false) : s.wait = none := by
  by_contra h
  rw [hs.waiting h] at hb
  cases hb

theorem Inv.done_of_busy (hb : s.busy = true) : s.done = false := by
  refine eq_false_of_ne_true fun hd => ?_
  rw [(hs.done_alone hd).1] at hb
  cases hb

theorem Inv.err_of_busy (hb : s.busy = true) : s.err = .none := by
  by_contra h
  rw [(hs.err_alone h).1] at hb
  cases hb

theorem Inv.ready : Ready s.phase s := ⟨hs.cursor, hs.table, hs.tree⟩

end

/-- A running command that does not wait, in a phase whose command it is and that finds what it relies on. -/
theorem Inv.of_running {s : State} (hphase : s.phase ≠ .idle) (hbusy : s.busy = true) (hdone : s.done = false)
    (herr : s.err = .none) (hcmd : s.phase ≠ .tbuild → s.cmdreg = commandOf s.phase)
    (hcmdt : s.phase = .tbuild → s.cmdreg ≠ .none) (hready : Ready s.phase s)
    (hpadded : s.phase = .flush → s.wait = none → Padded s) : Inv s where
  busy_iff := by simp [hphase, hbusy]
  done_alone h := by simp [hdone] at h
  err_alone h := absurd herr h
  err_kind := by rw [herr]; nofun
  command _ := hcmd
  command_tbuild := hcmdt
  cursor := hready.cursor
  waiting _ := hbusy
  table := hready.table
  tree := hready.tree
  padded := hpadded

/-! ### From phase to phase -/

theorem Ready.of_same {p : Phase} {s u : State} (hr : Ready p s) (hk : Kept s u)
    (hsame : u.tsize = s.tsize ∧ u.node = s.node ∧ u.root = s.root) : Ready p u := by
  obtain ⟨hsize, hnode, hroot⟩ := hsame
  refine ⟨hk.cursor hr.cursor, ?_, ?_⟩
  · rw [TableSize, hsize]
    exact hr.table
  · rw [TreeStands, hsize, hnode, hroot]
    exact hr.tree

/-- R135's table keeps a command in its own phases; both commands pass through TBUILD. -/
theorem follows_command {p q : Phase} {c : CmdReg} (hc : p ≠ .tbuild → c = commandOf p) (h : follows p c = some q) :
    q ≠ .idle ∧ (q ≠ .tbuild → c = commandOf q) ∧ (q = .tbuild → c ≠ .none) := by
  cases p with
  | idle | flush | walk => cases h
  | tbuild => cases c <;> cases h <;> simp [commandOf]
  | fcount | keysort | window | cgen | hdrw | tabw | pack | hdrr | tabr =>
    cases h
    cases hc nofun
    simp [commandOf]

/-- What a completed phase leaves is what the next one relies on (R160, R171). -/
theorem ready_of_follows {p q : Phase} {c : CmdReg} {s u : State} (hr : Ready p s) (hm : Moved p s u) (hreached : Reached p u)
    (h : follows p c = some q) : Ready q u := by
  have hcursor := hm.kept.cursor hr.cursor
  cases p with
  | idle | flush | walk => cases h
  | fcount | keysort | tabw | pack | hdrr =>
    cases h
    exact ⟨hcursor, nofun, nofun⟩
  | window | tabr =>
    cases h
    exact ⟨hcursor, fun _ => hreached, nofun⟩
  | tbuild =>
    have hsize : u.tsize = s.tsize := by rw [show u = _ from hm]
    have htable : TableSize u := by
      rw [TableSize, hsize]
      exact hr.table rfl
    exact ⟨hcursor, fun _ => htable, fun _ => hreached⟩
  | cgen =>
    cases h
    have heq : u = _ := hm
    have hsame := hr.of_same hm.kept ⟨by rw [heq], by rw [heq], by rw [heq]⟩
    exact ⟨hcursor, fun _ => hsame.table rfl, fun _ => hsame.tree rfl⟩
  | hdrw =>
    cases h
    have hsame := hr.of_same hm.kept ⟨by rw [hm.eq], by rw [hm.eq], by rw [hm.eq]⟩
    exact ⟨hcursor, fun _ => hsame.table rfl, nofun⟩

/-- The last line of a phase: the command's end, or the phase that R135's table gives. -/
theorem finish_cases {p : Phase} {u : State} (hp : p ≠ .idle) (hc : p = .tbuild → u.cmdreg ≠ .none) :
    (isLast p = true ∧ finish p u = completeCommand u) ∨
      ∃ q, follows p u.cmdreg = some q ∧ finish p u = goPhase q u := by
  cases p with
  | idle => exact absurd rfl hp
  | flush | walk => exact .inl ⟨rfl, rfl⟩
  | fcount | keysort | window | cgen | hdrw | tabw | pack | hdrr | tabr => exact .inr ⟨_, rfl, rfl⟩
  | tbuild =>
    right
    simp only [finish, afterTbuild]
    cases hcmd : u.cmdreg with
    | none => exact absurd hcmd (hc rfl)
    | encode => exact ⟨.cgen, rfl, rfl⟩
    | decode => exact ⟨.walk, rfl, rfl⟩

/-- Only PACK is followed by FLUSH. -/
theorem padded_of_follows_flush {p : Phase} {c : CmdReg} {u : State} (hreached : Reached p u)
    (h : follows p c = some .flush) : Padded u := by
  cases p with
  | pack => exact hreached
  | tbuild => cases c <;> cases h
  | idle | fcount | keysort | window | cgen | hdrw | tabw | flush | hdrr | tabr | walk => cases h

section
variable {s u : State} (hs : Inv s) (hb : s.busy = true) (hw : s.wait = none) (hm : Moved s.phase s u)
include hs hb hm

theorem inv_waits (q : Prim) (hh : Halted s.phase s u) : Inv { u with wait := some q } := by
  have hk := hm.kept
  have hp : s.phase ≠ .idle := hs.busy_iff.mp hb
  refine .of_running ?_ (hk.busy.trans hb) (hk.done.trans (hs.done_of_busy hb)) (hk.err.trans (hs.err_of_busy hb)) ?_ ?_ ?_
    fun _ h => nomatch h
  · exact hk.phase ▸ hp
  · show u.phase ≠ .tbuild → u.cmdreg = commandOf u.phase
    rw [hk.phase, hk.cmdreg]
    exact hs.command hp
  · show u.phase = .tbuild → u.cmdreg ≠ .none
    rw [hk.phase, hk.cmdreg]
    exact hs.command_tbuild
  · have hr := hs.ready.of_same hk (hm.table_of_halted hh)
    rw [← hk.phase] at hr
    exact ⟨hr.cursor, hr.table, hr.tree⟩

include hw

theorem inv_finish (hr : Reached s.phase u) : Inv (finish s.phase u) := by
  have hk := hm.kept
  have hp : s.phase ≠ .idle := hs.busy_iff.mp hb
  have herr := hk.err.trans (hs.err_of_busy hb)
  rcases finish_cases hp (u := u) (fun h => hk.cmdreg ▸ hs.command_tbuild h) with ⟨-, hf⟩ | ⟨q, hq, hf⟩
  · rw [hf]
    exact inv_completeCommand herr (hk.cursor hs.cursor) (hk.wait.trans hw)
  · rw [hf]
    rw [hk.cmdreg] at hq
    obtain ⟨hne, hcmd, hcmdt⟩ := follows_command (hs.command hp) hq
    have hready := ready_of_follows hs.ready hm hr hq
    refine .of_running hne (hk.busy.trans hb) (hk.done.trans (hs.done_of_busy hb)) herr ?_ ?_
      ⟨hready.cursor, hready.table, hready.tree⟩ ?_
    · exact fun h => hk.cmdreg.trans (hcmd h)
    · exact fun h => hk.cmdreg ▸ hcmdt h
    · rintro (rfl : q = .flush) _
      exact padded_of_follows_flush (u := u) hr hq

end

/-- The sequencer's turn keeps the invariant. -/
theorem inv_of_turn {s t : State} (hs : Inv s) (h : exec s.phase.instr s = .next t) : Inv t := by
  by_cases hb : s.busy = true
  · cases exec_ends h with
    | hangs q hwait ht => exact ht ▸ hs
    | finishes u hwait hm hr ht => exact ht ▸ inv_finish hs hb hwait hm hr
    | waits u q hwait hm hh ht => exact ht ▸ inv_waits hs hb hm q hh
    | fails u e hwait hm hh he ht =>
      exact ht ▸ inv_raiseError (canRaise_ne_allocation he) (hm.kept.cursor hs.cursor) (hm.kept.wait.trans hwait)
  · rw [hs.phase_of_not_busy (eq_false_of_ne_true hb), Phase.instr, exec_idle] at h
    cases h
    exact hs

/-- An accepted command runs its first phase, which relies on the cursor alone. -/
theorem inv_accepted {s : State} {c : CmdReg} {p : Phase} (hs : Inv s) (hp : FirstPhase c p) : Inv (accepted c p s) := by
  rcases hp with ⟨rfl, rfl⟩ | ⟨rfl, rfl⟩
  all_goals exact .of_running nofun rfl rfl rfl (fun _ => rfl) nofun ⟨hs.cursor, nofun, nofun⟩ nofun

/-- A stream moved while idle (R146): of the input only the cursor counts, of the output nothing. -/
theorem inv_streams {s : State} (hs : Inv s) (hb : s.busy = false) (rest : List HostAct) {input : InStream} {output : OutStream}
    (hcursor : input.pos ≤ input.data.length) : Inv { s with host := rest, input := input, output := output } :=
  .of_idle (hs.phase_of_not_busy hb) hb (fun h => (hs.done_alone h).2) hs.err_kind hcursor (hs.wait_of_not_busy hb)

/-! ### The statements -/

/-- Settles O2: after power-on no command runs. -/
theorem resetSatisfiesInvariant : Obligations.ResetSatisfiesInvariant := inv_reset

/-- Settles O45: the invariant after each way a step can end. -/
theorem stepKeepsTheInvariant : Obligations.StepKeepsTheInvariant := by
  intro s t hs h
  cases step_is s with
  | turn rest ho => exact inv_of_turn (hs.host rest s.reads s.fresh) (ho.symm.trans h)
  | nothing rest reads fresh ho =>
    cases ho.symm.trans h
    exact hs.host rest reads fresh
  | accepts rest c p hb hp ho =>
    cases ho.symm.trans h
    exact inv_accepted (hs.host rest s.reads s.fresh) hp
  | movesInput rest input hb hc ho =>
    cases ho.symm.trans h
    exact inv_streams hs hb rest hc
  | connectsOutput rest answers hb hh ho =>
    cases ho.symm.trans h
    exact inv_streams hs hb rest hs.cursor
  | refuses ho => cases ho.symm.trans h
  | resets rest hh ho =>
    cases ho.symm.trans h
    exact inv_resetBlock hs.cursor

/-- Settles O46: only a phase can fault, and the invariant gives every phase what it relies on. -/
theorem noStepFaults : Obligations.NoStepFaults := by
  intro s f hs h
  obtain ⟨rest, hexec⟩ := step_fault h
  exact exec_phase_ne_fault (hs.host rest s.reads s.fresh).ready f hexec

/-- Settles O47: the four ways a turn of the sequencer can end, and R135's table for the phase that completes. -/
theorem phaseOutcome : Obligations.PhaseOutcome := by
  intro s t hs hb hh h
  rw [step_phase hh] at h
  have hp : s.phase ≠ .idle := hs.busy_iff.mp hb
  cases exec_ends h with
  | hangs q hwait ht =>
    subst ht
    exact .inl ⟨by simp [hwait], rfl, hb⟩
  | waits u q hwait hm hh ht =>
    subst ht
    exact .inl ⟨nofun, hm.kept.phase, hm.kept.busy.trans hb⟩
  | fails u e hwait hm hh he ht =>
    subst ht
    exact .inr (.inr (.inr ⟨e, he, raiseError_failed e u⟩))
  | finishes u hwait hm hr ht =>
    subst ht
    have hk := hm.kept
    rcases finish_cases hp (u := u) (fun h => hk.cmdreg ▸ hs.command_tbuild h) with ⟨hlast, hf⟩ | ⟨q, hq, hf⟩
    · rw [hf]
      exact .inr (.inr (.inl ⟨hlast, rfl, rfl, hk.err.trans (hs.err_of_busy hb), rfl⟩))
    · rw [hf]
      exact .inr (.inl ⟨hk.wait.trans hwait, hk.cmdreg ▸ hq, hk.busy.trans hb⟩)

end Sys2Proof.Machine
end

section
/-!
PROOFS. Frames: what a phase, a failing phase, a step and an idle block leave unchanged (spec/40_commands.md section 5,
spec/60_exceptions.md section 2, spec/20_memory.md section 2). Each is read off what `Moved` says of the phase.
-/

namespace Sys2Proof.Machine

/-! ### While the command goes on -/

theorem Moved.refl (p : Phase) (s : State) : Moved p s s := by
  cases p with
  | idle | keysort | window | tbuild | cgen => rfl
  | fcount => exact ⟨rfl, fun _ => rfl, id⟩
  | hdrw | flush => exact ⟨rfl, appends_of_output_eq rfl⟩
  | tabw => exact OutMoved.refl s
  | pack => exact PackMoved.refl s
  | hdrr | tabr => exact ⟨rfl, Nat.le_refl _, id⟩
  | walk => exact WalkMoved.refl s

/-- The last line of a phase that does not end the command changes PHASE only. -/
theorem finish_eq_goPhase {p : Phase} (hp : isLast p = false) (u : State) : ∃ q, finish p u = goPhase q u := by
  cases p with
  | idle => exact ⟨u.phase, rfl⟩
  | flush | walk => cases hp
  | fcount | keysort | window | tbuild | cgen | hdrw | tabw | pack | hdrr | tabr => exact ⟨_, rfl⟩

/-- A phase without stream primitives does not come to hang. -/
theorem silent_moved {p : Phase} {s t : State} (hp : isLast p = false) (hsilent : ∀ u, ¬ Halted p s u)
    (h : exec p.instr s = .next t) : ∃ u q, Moved p s u ∧ t = { u with phase := q } := by
  cases exec_ends h with
  | hangs q hwait ht => exact ⟨s, s.phase, .refl p s, ht⟩
  | finishes u hwait hm hr ht =>
    obtain ⟨q, hq⟩ := finish_eq_goPhase hp u
    exact ⟨u, q, hm, ht.trans hq⟩
  | waits u q hwait hm hh ht => exact absurd hh (hsilent u)
  | fails u e hwait hm hh he ht => exact absurd hh (hsilent u)

/-- A phase after which the command goes on has changed what `Moved` says, and PHASE or the wait. -/
theorem moved_of_goes_on {p : Phase} {s t : State} (hp : isLast p = false) (ht : t.phase ≠ .idle)
    (h : exec p.instr s = .next t) : ∃ u q w, Moved p s u ∧ t = { u with phase := q, wait := w } := by
  cases exec_ends h with
  | hangs q hwait ht => exact ⟨s, s.phase, s.wait, .refl p s, ht⟩
  | finishes u hwait hm hr ht =>
    obtain ⟨q, hq⟩ := finish_eq_goPhase hp u
    exact ⟨u, q, u.wait, hm, ht.trans hq⟩
  | waits u q hwait hm hh ht => exact ⟨u, u.phase, some q, hm, ht⟩
  | fails u e hwait hm hh he h =>
    rw [h] at ht
    exact absurd rfl ht

/-- The last phase of a command goes on only by hanging. -/
theorem halted_of_goes_on {p : Phase} {s t : State} (hp : finish p = completeCommand) (hrefl : Halted p s s)
    (ht : t.phase ≠ .idle) (h : exec p.instr s = .next t) :
    ∃ u w, Moved p s u ∧ Halted p s u ∧ t = { u with wait := w } := by
  cases exec_ends h with
  | hangs q hwait ht => exact ⟨s, s.wait, .refl p s, hrefl, ht⟩
  | waits u q hwait hm hh ht => exact ⟨u, some q, hm, hh, ht⟩
  | finishes u hwait hm hr h =>
    rw [h, hp] at ht
    exact absurd rfl ht
  | fails u e hwait hm hh he h =>
    rw [h] at ht
    exact absurd rfl ht

/-- Settles O41: a silent phase changes what its body names and PHASE. -/
theorem silentPhasesFrame : Obligations.SilentPhasesFrame := by
  refine fun s t => ⟨fun h => ?_, fun h => ?_, fun h => ?_, fun h => ?_⟩
  · obtain ⟨u, q, (hm : u = _), rfl⟩ := silent_moved (p := .keysort) rfl (fun _ => id) h
    rw [hm]
  · obtain ⟨u, q, (hm : u = _), rfl⟩ := silent_moved (p := .window) rfl (fun _ => id) h
    rw [hm]
  · obtain ⟨u, q, (hm : u = _), rfl⟩ := silent_moved (p := .tbuild) rfl (fun _ => id) h
    rw [hm]
  · obtain ⟨u, q, (hm : u = _), rfl⟩ := silent_moved (p := .cgen) rfl (fun _ => id) h
    rw [hm]

/-- Settles O42: what `Moved` says of the four phases; FLUSH goes on only by hanging. -/
theorem writingPhasesFrame : Obligations.WritingPhasesFrame := by
  refine fun s t ht => ⟨fun h => ?_, fun h => ?_, fun h => ?_, fun h => ?_⟩
  · obtain ⟨u, q, w, hm, rfl⟩ := moved_of_goes_on (p := .hdrw) rfl ht h
    rw [hm.eq]
  · obtain ⟨u, q, w, hm, rfl⟩ := moved_of_goes_on (p := .tabw) rfl ht h
    rw [hm.eq]
  · obtain ⟨u, q, w, hm, rfl⟩ := moved_of_goes_on (p := .pack) rfl ht h
    rw [hm.eq]
  · obtain ⟨u, w, -, hh, rfl⟩ := halted_of_goes_on (p := .flush) rfl (OutMoved.refl s) ht h
    rw [hh.eq]

/-- Settles O43: what `Moved` says of the four phases; WALK goes on only by hanging. -/
theorem readingPhasesFrame : Obligations.ReadingPhasesFrame := by
  refine fun s t ht => ⟨fun h => ?_, fun h => ?_, fun h => ?_, fun h => ?_⟩
  · obtain ⟨u, q, w, hm, rfl⟩ := moved_of_goes_on (p := .fcount) rfl ht h
    rw [hm.eq]
  · obtain ⟨u, q, w, hm, rfl⟩ := moved_of_goes_on (p := .hdrr) rfl ht h
    rw [hm.eq]
  · obtain ⟨u, q, w, hm, rfl⟩ := moved_of_goes_on (p := .tabr) rfl ht h
    rw [hm.eq]
  · obtain ⟨u, w, hm, -, rfl⟩ := halted_of_goes_on (p := .walk) rfl trivial ht h
    rw [hm.eq]

/-! ### When a phase fails -/

/-- FSIZE and SYMCNT where a phase stops: only HDRW sets FSIZE before it can fail, only PACK and WALK count (R195, R200, R226). -/
theorem Moved.counters_of_halted {p : Phase} {s u : State} (hm : Moved p s u) (hh : Halted p s u) :
    (p ≠ .hdrw → u.fsize = s.fsize) ∧ (p ≠ .pack → p ≠ .walk → u.symcnt = s.symcnt) := by
  cases p with
  | idle | keysort | window | tbuild | cgen => exact hh.elim
  | hdrr => exact ⟨fun _ => hh.1, fun _ _ => by rw [hm.eq]⟩
  | hdrw => exact ⟨fun h => absurd rfl h, fun _ _ => by rw [hm.eq]⟩
  | pack => exact ⟨fun _ => by rw [hm.eq], fun h => absurd rfl h⟩
  | walk => exact ⟨fun _ => by rw [hm.eq], fun _ h => absurd rfl h⟩
  | fcount | tabw | flush | tabr => exact ⟨fun _ => by rw [hm.eq], fun _ _ => by rw [hm.eq]⟩

/-- A turn of a running command that ends it without DONE has raised an error. -/
theorem raised_of_failed {s t : State} {e : ErrKind} (hs : Inv s) (hb : s.busy = true) (hf : t.Failed e)
    (h : exec s.phase.instr s = .next t) :
    ∃ u e', s.wait = none ∧ Moved s.phase s u ∧ Halted s.phase s u ∧ t = raiseError e' u := by
  obtain ⟨htb, htd, -, htp⟩ := hf
  cases exec_ends h with
  | fails u e' hwait hm hh he ht => exact ⟨u, e', hwait, hm, hh, ht⟩
  | hangs q hwait ht =>
    subst ht
    rw [hb] at htb
    cases htb
  | waits u q hwait hm hh ht =>
    subst ht
    rw [hm.kept.busy.trans hb] at htb
    cases htb
  | finishes u hwait hm hr ht =>
    subst ht
    rcases finish_cases (hs.busy_iff.mp hb) (u := u) (fun h => hm.kept.cmdreg ▸ hs.command_tbuild h) with
      ⟨-, hfin⟩ | ⟨q, -, hfin⟩ <;> rw [hfin] at htb htd
    · cases htd
    · rw [goPhase_busy, hm.kept.busy.trans hb] at htb
      cases htb

/-- Settles O44: a raise keeps the registers (R256), so it is as the phase's lines left them where it stopped. -/
theorem failureLeavesTheReadableRegisters : Obligations.FailureLeavesTheReadableRegisters := by
  intro s t e hs hb hh h hf
  rw [step_phase hh] at h
  obtain ⟨u, e', hwait, hm, hhalted, rfl⟩ := raised_of_failed hs hb hf h
  have hk := hm.kept
  obtain ⟨hsize, -, -⟩ := hm.table_of_halted hhalted
  obtain ⟨hfsize, hsymcnt⟩ := hm.counters_of_halted hhalted
  exact ⟨hk.cmdreg, hsize, hfsize, hsymcnt, hk.wait.trans hwait, hk.host.trans hh, hk.reads⟩

/-! ### The streams -/

theorem finish_streams (p : Phase) (u : State) : (finish p u).input = u.input ∧ (finish p u).output = u.output := by
  cases p <;> exact ⟨rfl, rfl⟩

/-- The streams after a turn are as the phase's lines left them. -/
theorem exec_streams {p : Phase} {s t : State} (h : exec p.instr s = .next t) :
    ∃ u, Moved p s u ∧ t.input = u.input ∧ t.output = u.output := by
  cases exec_ends h with
  | hangs q hwait ht => exact ⟨s, .refl p s, by rw [ht], by rw [ht]⟩
  | finishes u hwait hm hr ht =>
    subst ht
    exact ⟨u, hm, finish_streams p u⟩
  | waits u q hwait hm hh ht => exact ⟨u, hm, by rw [ht], by rw [ht]⟩
  | fails u e hwait hm hh he ht => exact ⟨u, hm, by rw [ht]; rfl, by rw [ht]; rfl⟩

/-- Every phase but FCOUNT moves the input's cursor forward only (R61). -/
theorem Moved.input_forward {p : Phase} {s u : State} (hp : p ≠ .fcount) (h : Moved p s u) :
    s.input.pos ≤ u.input.pos ∧ u.input.data = s.input.data := by
  cases p with
  | fcount => exact absurd rfl hp
  | idle | keysort | window | tbuild | cgen =>
    rw [show u = _ from h]
    exact ⟨Nat.le_refl _, rfl⟩
  | hdrw | tabw | flush =>
    rw [h.eq]
    exact ⟨Nat.le_refl _, rfl⟩
  | pack | hdrr | tabr | walk => exact ⟨h.mono, by rw [h.eq]⟩

/-- The phases before the header and the table, and before DECODE's checks have passed, write nothing (R64, R259). -/
theorem Moved.output_same {p : Phase} {s u : State}
    (hp : p ∈ [Phase.fcount, .keysort, .window, .tbuild, .cgen, .hdrr, .tabr]) (h : Moved p s u) : u.output = s.output := by
  cases p with
  | idle | hdrw | tabw | pack | flush | walk => simp at hp
  | keysort | window | tbuild | cgen => rw [show u = _ from h]
  | fcount | hdrr | tabr => rw [h.eq]

/-- An instruction is a command of the host's or a phase. -/
theorem issuer_host_or_phase (i : Instr) : i.issuer = .host ∨ ∃ p : Phase, i = p.instr := by
  cases i with
  | nop | encode | decode | reservedOp3 => exact .inl rfl
  | idle => exact .inr ⟨.idle, rfl⟩
  | fcount => exact .inr ⟨.fcount, rfl⟩
  | keysort => exact .inr ⟨.keysort, rfl⟩
  | window => exact .inr ⟨.window, rfl⟩
  | tbuild => exact .inr ⟨.tbuild, rfl⟩
  | cgen => exact .inr ⟨.cgen, rfl⟩
  | hdrw => exact .inr ⟨.hdrw, rfl⟩
  | tabw => exact .inr ⟨.tabw, rfl⟩
  | pack => exact .inr ⟨.pack, rfl⟩
  | flush => exact .inr ⟨.flush, rfl⟩
  | hdrr => exact .inr ⟨.hdrr, rfl⟩
  | tabr => exact .inr ⟨.tabr, rfl⟩
  | walk => exact .inr ⟨.walk, rfl⟩

/-- Settles O49: a command touches no stream; a phase does what `Moved` says. -/
theorem inputIsOnlyRead : Obligations.InputIsOnlyRead := by
  intro i s t h
  rcases issuer_host_or_phase i with hi | ⟨p, rfl⟩
  · have hin : t.input = s.input := by
      rcases exec_command hi s with ho | ⟨-, c, p, -, ho⟩ <;> cases ho.symm.trans h <;> rfl
    rw [hin]
    exact ⟨fun _ => rfl, fun _ => ⟨Nat.le_refl _, rfl⟩⟩
  · obtain ⟨u, hm, hin, -⟩ := exec_streams h
    rw [hin]
    exact ⟨hm.kept.data, fun hp => hm.input_forward fun hf => hp (congrArg Phase.instr hf)⟩

/-- Settles O50: none of the seven phases has a line that writes. -/
theorem nothingWrittenBeforeTheChecks : Obligations.NothingWrittenBeforeTheChecks := by
  intro i s t hi h
  obtain ⟨p, hp, rfl⟩ : ∃ p ∈ [Phase.fcount, .keysort, .window, .tbuild, .cgen, .hdrr, .tabr], p.instr = i :=
    List.mem_map.mp hi
  obtain ⟨u, hm, -, hout⟩ := exec_streams h
  rw [hout, hm.output_same hp]

/-- Settles O48: of what a step can be, only a phase writes, and only the host exchanges the stream. -/
theorem outputIsAppendOnly : Obligations.OutputIsAppendOnly := by
  intro s t h hhost
  cases step_is s with
  | turn rest ho =>
    obtain ⟨u, hm, -, hout⟩ := exec_streams (ho.symm.trans h)
    rw [hout]
    exact hm.kept.more
  | connectsOutput rest answers hb hh ho => exact absurd hh (hhost answers rest)
  | refuses ho => cases ho.symm.trans h
  | nothing _ _ _ ho | accepts _ _ _ _ _ ho | movesInput _ _ _ _ ho | resets _ _ ho =>
    cases ho.symm.trans h
    exact appends_of_output_eq rfl

/-! ### The outcome of a command -/

/-- Settles O51: an idle block's step changes the host's side or a stream, or accepts a command. -/
theorem outcomeStaysUntilAccepted : Obligations.OutcomeStaysUntilAccepted := by
  intro s t hs hb h hhost
  have hphase := hs.phase_of_not_busy hb
  cases step_is s with
  | turn rest ho =>
    have hinstr : s.phase.instr = .idle := congrArg Phase.instr hphase
    rw [hinstr, exec_idle] at ho
    cases ho.symm.trans h
    exact ⟨rfl, rfl, rfl, .inl ⟨hb, rfl, rfl, rfl, hphase⟩⟩
  | accepts rest c p _ hp ho =>
    cases ho.symm.trans h
    exact ⟨rfl, rfl, rfl, .inr ⟨rfl, rfl, rfl, hp⟩⟩
  | refuses ho => cases ho.symm.trans h
  | resets rest hh ho => exact absurd hh (hhost rest)
  | nothing _ _ _ ho | movesInput _ _ _ _ ho | connectsOutput _ _ _ _ ho =>
    cases ho.symm.trans h
    exact ⟨rfl, rfl, rfl, .inl ⟨hb, rfl, rfl, rfl, hphase⟩⟩

end Sys2Proof.Machine
end

section
/-!
PROOFS. The streams (spec/20_memory.md section 2, spec/60_exceptions.md R252, spec/70_reset_and_hazards.md R302): InReadN, a primitive
that fails and one that is never answered.
-/

namespace Sys2Proof.Machine

/-- Settles O14: enough bytes are left, or the input ends first. -/
theorem readNStopsShortAtTheEnd : Obligations.ReadNStopsShortAtTheEnd :=
  fun n s ha hp => ⟨inReadN_ok n s ha, inReadN_short n s ha hp⟩

section
variable {s : State} {rest : List Answer}

theorem askIn_fail (p : Prim) (ha : s.input.answers = .err :: rest) :
    askIn p s = .raise .io { s with input := { s.input with answers := rest }, trace := .failed p :: s.trace } := by
  rw [askIn, ha]
  rfl

theorem askIn_never (p : Prim) (ha : s.input.answers = .never :: rest) :
    askIn p s = .halt { s with input := { s.input with answers := rest }, wait := some p } := by
  rw [askIn, ha]

theorem outWrite_never (b : Byte) (ha : s.output.answers = .never :: rest) :
    outWrite b s = .halt { s with output := { s.output with answers := rest }, wait := some (.outWrite b) } := by
  rw [outWrite, askOut, ha]
  rfl

end

/-- The three primitives of the input ask first: they halt where that halts. -/
theorem input_primitives_halt {s : State} {f : Prim → State} (h : ∀ p, askIn p s = .halt (f p)) :
    inAtEnd s = .halt (f .inAtEnd) ∧ inRead s = .halt (f .inRead) ∧ inRewind s = .halt (f .inRewind) :=
  ⟨by rw [inAtEnd, h, Run.bind_halt], by rw [inRead, h, Run.bind_halt], by rw [inRewind, h, Run.bind_halt]⟩

/-- Settles O15: the stream's `err` raises before the primitive is performed. -/
theorem failedPrimitiveRaisesIoError : Obligations.FailedPrimitiveRaisesIoError :=
  ⟨fun _ _ ha => input_primitives_halt fun p => askIn_fail p ha, fun _ _ b ha => outWrite_fail b ha⟩

/-- A block that hangs stays as it is, whatever the phase (R302). -/
theorem exec_waiting {s : State} {q : Prim} (hw : s.wait = some q) (p : Phase) : exec p.instr s = .next s := by
  rcases exec_phase p s with ho | ⟨hnone, -⟩
  · rw [ho, runPhase_waiting hw]
  · rw [hw] at hnone
    cases hnone

/-- Settles O17: the stream's `never` halts before the primitive is performed, and then the sequencer's turn does nothing. -/
theorem unansweredPrimitiveHangs : Obligations.UnansweredPrimitiveHangs :=
  ⟨fun _ _ ha => input_primitives_halt fun p => askIn_never p ha, fun _ _ b ha => outWrite_never b ha,
    fun s _ hw hh => by rw [step_phase hh, exec_waiting hw]⟩

end Sys2Proof.Machine
end

section
/-!
PROOFS. Trees, codes and the container's parts (spec/42_tree_builder.md section 3, spec/43_code_generator.md, spec/30_encoding.md
sections 1 and 2).
-/

namespace Sys2Proof.Machine

/-! ### Byte order and payload -/

/-- Settles O52: each direction by its own law. -/
theorem littleEndianInverse : Obligations.LittleEndianInverse :=
  ⟨fun v => ⟨le64_length v, u64le_of_le64 v⟩, fun v => ⟨le32_length v, u32le_of_le32 v⟩, fun _ => le64_of_u64le,
    fun _ => le32_of_u32le⟩

/-- Settles O55: the length and the bits of a packed payload. -/
theorem payloadBitsRoundTrip : Obligations.PayloadBitsRoundTrip := fun bits => ⟨packBits_length bits, bitsOf_packBits bits⟩

/-! ### Codes -/

/-- Settles O28: a path for every leaf, of at least one edge and at most the tree's depth. -/
theorem codesAreTheLeavesAndBounded : Obligations.CodesAreTheLeavesAndBounded := by
  refine fun tree h2 => ⟨tree.path_isSome, fun b p hp => ⟨?_, ?_⟩⟩
  · exact List.length_pos_iff.mpr (tree.path_ne_nil b p h2 hp)
  · have hlen := tree.path_length b p hp
    have hdepth := tree.depth_lt
    omega

/-- Settles O29: two paths of one tree. -/
theorem codesArePrefixFree : Obligations.CodesArePrefixFree := HTree.path_prefix

/-! ### Weights -/

/-- A sum of words below 2^64 does not wrap. -/
theorem sum_toNat_of_lt : ∀ ws : List Word, (ws.map BitVec.toNat).sum < 2 ^ 64 → ws.sum.toNat = (ws.map BitVec.toNat).sum
  | [], _ => rfl
  | w :: ws, h => by
    simp only [List.map_cons, List.sum_cons] at h ⊢
    have ih := sum_toNat_of_lt ws (by omega)
    rw [BitVec.toNat_add, ih, Nat.mod_eq_of_lt h]

/-- At most 256 frequencies of 56 bits (R166, R170). -/
theorem freq_sum_lt {table : List Word} (h : table.length ≤ 256) : ((table.map unitFreq).map BitVec.toNat).sum < 2 ^ 64 := by
  have hle : ((table.map unitFreq).map BitVec.toNat).sum ≤ ((table.map unitFreq).map BitVec.toNat).length • (2 ^ 56 - 1) := by
    refine List.sum_le_card_nsmul _ _ fun n hn => ?_
    simp only [List.map_map, List.mem_map, Function.comp] at hn
    obtain ⟨u, -, rfl⟩ := hn
    exact Nat.le_pred_of_lt (unitFreq_lt u)
  simp only [List.length_map, smul_eq_mul] at hle
  omega

theorem ne_nil_of_treeOf {table : List Word} {tree : HTree} (h : treeOf table = some tree) : table ≠ [] := by
  rintro rfl
  cases h

/-- Settles O24: the root's weight is the sum of the words, which does not wrap. -/
theorem rootWeightIsTheSum : Obligations.RootWeightIsTheSum := by
  intro table tree hlen h
  obtain ⟨t, ht, -, -, -, hweight⟩ := treeOf_spec (ne_nil_of_treeOf h)
  cases ht.symm.trans h
  rw [hweight, sum_toNat_of_lt _ (freq_sum_lt hlen), List.map_map]
  rfl

/-! ### The merge -/

/-- In a sorted list a lower bound of the first is one of all. -/
theorem le_of_le_head {m : HTree} {ts : List HTree} (hs : ts.Pairwise (fun t u => t.weight.toNat ≤ u.weight.toNat))
    (hhead : ∀ u, ts.head? = some u → m.weight.toNat ≤ u.weight.toNat) : ∀ u ∈ ts, m.weight.toNat ≤ u.weight.toNat := by
  cases ts with
  | nil => simp
  | cons t ts =>
    have hm := hhead t rfl
    exact List.forall_mem_cons.mpr ⟨hm, fun u hu => hm.trans (List.rel_of_pairwise_cons hs hu)⟩

/-- Settles O25: the place where the merged tree goes has only lighter trees before it, and no lighter one after it. -/
theorem mergingKeepsTheSequenceSorted : Obligations.MergingKeepsTheSequenceSorted := by
  intro a b rest _ hsorted m
  obtain ⟨ha, hsorted⟩ := List.pairwise_cons.mp hsorted
  obtain ⟨hb, hrest⟩ := List.pairwise_cons.mp hsorted
  obtain ⟨before, after, hsplit, hinsert, hbefore, hhead⟩ := insertTree_split m rest
  rw [hsplit] at hrest
  obtain ⟨hsb, hsa, hba⟩ := List.pairwise_append.mp hrest
  have hafter := le_of_le_head hsa hhead
  refine ⟨?_, insertTree_perm m rest, fun u hu => ⟨ha u (List.mem_cons_of_mem b hu), hb u hu⟩,
    before, after, hinsert, hbefore, hafter⟩
  rw [hinsert]
  refine List.pairwise_append.mpr ⟨hsb, List.pairwise_cons.mpr ⟨hafter, hsa⟩, fun t ht => ?_⟩
  exact List.forall_mem_cons.mpr ⟨(hbefore t ht).le, hba t ht⟩

/-- The leaves of a table without their byte values are its frequencies. -/
theorem leafOf_shapes (table : List Word) :
    (table.map leafOf).map HTree.shape = (table.map unitFreq).map fun w => .leaf w 0 := by
  simp only [List.map_map]
  rfl

/-- The merge does not see the byte values (R167). -/
theorem treeOf_shape (table : List Word) :
    (treeOf table).map HTree.shape =
      (mergeTrees ((table.map unitFreq).length - 1) ((table.map unitFreq).map fun w => .leaf w 0)).head? := by
  rw [← leafOf_shapes, mergeTrees_shape, List.length_map, List.head?_map, treeOf]

/-- Settles O26: the shape is a function of the frequencies. -/
theorem shapeDependsOnFrequenciesOnly : Obligations.ShapeDependsOnFrequenciesOnly := by
  intro t1 t2 a b hfreq ha hb
  have hshape : (treeOf t1).map HTree.shape = (treeOf t2).map HTree.shape := by rw [treeOf_shape, treeOf_shape, hfreq]
  rw [ha, hb] at hshape
  exact Option.some.inj hshape

/-! ### A container without its last byte -/

theorem container_dropLast (fs : Word) (table : List Word) {payload : List Byte} (h : payload ≠ []) :
    (container fs table payload).dropLast = container fs table payload.dropLast := by
  simp only [container, ← List.append_assoc]
  exact List.dropLast_append_of_ne_nil h

/-- Without the last byte the packed bits are fewer than the bits, and a beginning of the bits and the zeros after them. -/
theorem bitsOf_packBits_dropLast {bits : List Bool} (h : bits ≠ []) :
    (bitsOf (packBits bits).dropLast).length < bits.length ∧
      ∃ cs zeros, bits ++ zeros = bitsOf (packBits bits).dropLast ++ cs := by
  have hpos := List.length_pos_iff.mpr h
  have hne : packBits bits ≠ [] := List.ne_nil_of_length_pos (by rw [packBits_length]; omega)
  refine ⟨?_, bitsOf [(packBits bits).getLast hne], _, (bitsOf_packBits bits).symm.trans ?_⟩
  · rw [bitsOf_length, List.length_dropLast, packBits_length]
    omega
  · rw [← bitsOf_append, List.dropLast_concat_getLast]

/-- Every byte has a code of at least one bit. -/
theorem payloadBits_ne_nil {t : HTree} (h2 : 2 ≤ t.leaves) {input : List Byte} (hne : input ≠ [])
    (hvalues : ∀ b ∈ input, b ∈ t.values) : payloadBits t input ≠ [] := by
  obtain ⟨b, bs, rfl⟩ := List.exists_cons_of_ne_nil hne
  obtain ⟨p, hp⟩ := Option.isSome_iff_exists.mp ((t.path_isSome b).mpr (hvalues b List.mem_cons_self))
  simp [payloadBits, hp, t.path_ne_nil b p h2 hp]

/-- Settles O60: the walk over the shortened payload is one cut short before its last bit. -/
theorem truncatedContainerFails : Obligations.TruncatedContainerFails := by
  intro input hne hlen
  obtain ⟨t, ht, hleaves, hvalues⟩ := encodeTable_tree hlen
  have hsize : (BitVec.ofNat 64 input.length).toNat = input.length := by
    rw [BitVec.toNat_ofNat]
    omega
  have hbits := payloadBits_ne_nil hleaves hne hvalues
  have hpacked : packBits (payloadBits t input) ≠ [] := by simp [packBits_cons hbits]
  obtain ⟨hshort, cs, zeros, hcs⟩ := bitsOf_packBits_dropLast hbits
  have hfull := walkTree_payload t hleaves zeros input hvalues
  rw [hcs] at hfull
  obtain ⟨hfin, hpre, hout⟩ := walkTree_cut t cs (bitsOf (packBits (payloadBits t input)).dropLast) t input.length
    (by rw [hfull]) (by rwa [hfull])
  rw [hfull] at hpre hout
  refine ⟨_, ?_, hpre, hout⟩
  rw [encodeFn_eq_container, ht, Option.getD_some, container_dropLast _ _ hpacked,
    decodeFn_container _ _ (two_le_encodeTable_length input) (encodeTable_length_le input)]
  simp only [ht, Option.getD_some, hsize, hfin, Bool.false_eq_true, if_false]

end Sys2Proof.Machine
end

section
/-!
PROOFS. The phases of ENCODE while the streams answer (spec/41_frequency_table.md, spec/42_tree_builder.md, spec/44_encode.md R200 to
R202): what FCOUNT, KEYSORT, TBUILD and PACK leave.
-/

namespace Sys2Proof.Machine

/-! ### FCOUNT -/

/-- Counting from zero gives the number of occurrences of every byte value (R150). -/
theorem countUp_fold_zero (bs : List Byte) :
    bs.foldl countUp (Vector.replicate 256 0) = tabulate 256 fun b => BitVec.ofNat 64 (bs.count (BitVec.ofFin b)) := by
  refine Vector.ext fun k hk => ?_
  have hcount := countUp_fold bs (Vector.replicate 256 0) (BitVec.ofFin ⟨k, hk⟩)
  rw [tabulate_getElem]
  refine hcount.trans ?_
  rw [Vector.getElem_replicate, zero_add]

theorem fcountBody_ok {s : State} (ha : AllOk s.input.answers) (hp : s.input.pos ≤ s.input.data.length) :
    fcountBody s = .ok () { s with
      freq := tabulate 256 fun b => BitVec.ofNat 64 (s.unread.count (BitVec.ofFin b))
      input :=
        { data := s.input.passes.headD s.input.data, pos := 0, passes := s.input.passes.tail,
          answers := s.input.answers.drop (2 * s.unread.length + 2) }
      trace := .rewound :: .atEnd true :: (readTrace s.unread ++ s.trace) } := by
  rw [fcountBody, countLoop_ok s.unread { s with freq := Vector.replicate 256 0 } s.byteRounds rfl ha hp (Nat.lt_succ_self _),
    Run.bind_ok, inRewind_ok (ha.drop _), countUp_fold_zero]
  simp only [List.drop_drop]

/-- Settles O18: the loop counts, and the rewind follows. -/
theorem fcountCountsAndRewinds : Obligations.FcountCountsAndRewinds :=
  fun _ hw ha hp => runPhase_ok (body := fcountBody) (fin := goPhase .keysort) hw (fcountBody_ok ha hp)

/-! ### KEYSORT's domain -/

theorem countedBytes_eq_sum (freq : Vector Word 256) : countedBytes freq = ∑ b : Fin 256, freq[b].toNat := by
  have hlist : freq.toList = List.ofFn fun b : Fin 256 => freq[b] :=
    List.ext_getElem (by rw [Vector.length_toList, List.length_ofFn]) fun k _ _ => by
      rw [List.getElem_ofFn, Vector.getElem_toList]
      rfl
  rw [countedBytes, hlist, List.map_ofFn, List.sum_ofFn]
  rfl

/-- With the counts of a shorter input KEYSORT is in its domain (R152). -/
theorem tooLong_of_counts {s : State} (hlen : s.input.data.length < 2 ^ 56)
    (hfreq : ∀ b : Fin 256, s.freq[b] = BitVec.ofNat 64 (s.input.data.count (BitVec.ofFin b))) : tooLong s = false := by
  have hcount (b : Fin 256) : s.freq[b].toNat = s.input.data.count (BitVec.ofFin b) := by
    have hle : s.input.data.count (BitVec.ofFin b) ≤ s.input.data.length := List.count_le_length
    rw [hfreq, BitVec.toNat_ofNat]
    omega
  have hsum : countedBytes s.freq = s.input.data.length := by
    rw [countedBytes_eq_sum, ← sum_count_ofFin]
    exact Finset.sum_congr rfl fun b _ => hcount b
  rw [tooLong, hsum, Bool.or_self, decide_eq_false (Nat.not_le.mpr hlen)]

/-- Settles O20: the refusal's own condition, and the sum of the counters. -/
theorem keysortRefusesLongInput : Obligations.KeysortRefusesLongInput := by
  refine ⟨fun s hw hlen => ?_, fun s hw hlen hfreq => ⟨_, exec_keysort hw (tooLong_of_counts hlen hfreq)⟩⟩
  have hlong : tooLong s = true := by
    rw [tooLong, decide_eq_true hlen, Bool.or_true]
  exact if_pos ⟨hw, hlong⟩

/-! ### TBUILD -/

theorem exec_tbuild {s : State} (hw : s.wait = none) (h2 : 2 ≤ s.tsize.toNat) (h256 : s.tsize.toNat ≤ 256) :
    exec .tbuild s = .next (afterTbuild (buildTree s.tsize.toNat s)) :=
  runPhase_ok (body := tbuildBody) hw (if_pos ⟨h2, h256⟩)

/-- Settles O22: what TBUILD builds, and the phase that CMDREG gives. -/
theorem tbuildBuildsTheMergeTree : Obligations.TbuildBuildsTheMergeTree := by
  intro s hw h2 h256
  have hbuilt := buildTree_spec s s.tsize.toNat h2 h256
  obtain ⟨tree, htree, hrep, hleaves⟩ := hbuilt.tree
  have hcmd : (buildTree s.tsize.toNat s).cmdreg = s.cmdreg := by rw [hbuilt.eq]
  refine ⟨_, tree, exec_tbuild hw h2 h256, htree, hrep, hleaves, ?_, hbuilt.node_ge, hbuilt.seq_ge, ?_⟩
  · rw [afterTbuild, goPhase_phase, hcmd]
  · rw [hbuilt.eq]
    rfl

/-- Settles O23: the places in the arena. -/
theorem tbuildFillsTheArenaInOrder : Obligations.TbuildFillsTheArenaInOrder := by
  intro s t hw h2 h256 h
  have hbuilt := buildTree_spec s s.tsize.toNat h2 h256
  cases (exec_tbuild hw h2 h256).symm.trans h
  exact ⟨hbuilt.root, hbuilt.node_leaf, hbuilt.node_merge⟩

/-! ### PACK -/

/-- At the end of the input PACK's loop is left (R200). -/
theorem packLoop_end {s : State} {n : Nat} (hn : 0 < n) (ha : AllOk s.input.answers)
    (hend : s.input.pos = s.input.data.length) :
    Run.loop n packByte s = .ok () { s with
      input := { s.input with answers := s.input.answers.drop 1 }
      trace := .atEnd true :: s.trace } := by
  obtain ⟨m, rfl⟩ := Nat.exists_eq_add_one.mpr hn
  rw [Run.loop, packByte, inNext_none ha hend, Run.bind_ok]

/-- Settles O32: one round for each byte (packLoop_ok), and a last one that finds the end. -/
theorem packWritesTheCodeBits : Obligations.PackWritesTheCodeBits := by
  intro s hs hcoded bits
  obtain ⟨hwait, hin, hout, hpos⟩ := hs
  have hrounds : s.unread.length < s.byteRounds := Nat.lt_succ_self _
  have hend : s.input.pos + s.unread.length = s.input.data.length := by
    rw [unread_length]
    omega
  have hpacked := Packed.start { s with acc := 0, nbits := 0, symcnt := 0 } rfl rfl
  obtain ⟨events, hloop, hreads, hwrites⟩ := packLoop_ok s.unread s.output.data [] { s with acc := 0, nbits := 0, symcnt := 0 }
    [] s.byteRounds (List.append_nil _).symm hpacked hin hout hpos hcoded hrounds
  have hbody := hloop.trans (packLoop_end (Nat.sub_pos_of_lt hrounds) (hin.drop _) hend)
  refine ⟨[.atEnd true] ++ events, (runPhase_ok (body := packBody) (fin := goPhase .flush) hwait hbody).trans ?_, ?_, ?_⟩
  · simp only [goPhase, List.nil_append, zero_add, hend, List.drop_drop, List.length_nil, Nat.zero_div, Nat.sub_zero,
      List.cons_append, bits]
  · rw [readsIn_append, hreads]
    exact List.append_nil _
  · rw [writesIn_append]
    exact (List.append_nil _).trans hwrites.symm

end Sys2Proof.Machine
end

section
/-!
PROOFS. The phases of DECODE on a container they accept (spec/45_decode.md R220 to R229), and the header that HDRR reads back.
-/

namespace Sys2Proof.Machine

/-! ### HDRR -/

/-- A legal header: read into HBUF, its two fields into FSIZE and TSIZE (R220). -/
theorem hdrrBody_ok {s : State} (ha : AllOk s.input.answers) (hn : 20 ≤ s.unread.length) (hm : s.unread.take 8 = magic) :
    hdrrBody s = .ok () { s with
      hbuf := tabulate 20 fun k => (s.unread.take 20).getD k.val 0
      fsize := u64le ((s.unread.drop 8).take 8)
      tsize := u32le ((s.unread.drop 16).take 4)
      input := { s.input with pos := s.input.pos + 20, answers := s.input.answers.drop 40 }
      trace := readTrace (s.unread.take 20) ++ s.trace } := by
  have hlen : (s.unread.take 20).length = 20 := List.length_take_of_le hn
  have hbuf : (tabulate 20 fun k => (s.unread.take 20).getD k.val 0).toList = s.unread.take 20 := tabulate_getD_toList 0 hlen
  rw [hdrrBody, inReadN_ok 20 s ha hn, Run.bind_ok, if_neg hlen.not_lt]
  dsimp only
  rw [hbuf, if_pos (by rwa [List.take_take])]
  simp only [List.drop_take, List.take_take]
  rfl

/-- Settles O35: 20 bytes are there and the magic is the container's. -/
theorem hdrrReadsTheHeader : Obligations.HdrrReadsTheHeader := by
  intro s hw ha hp hn hm
  have hexec := runPhase_ok (body := hdrrBody) (fin := goPhase .tabr) hw (hdrrBody_ok ha hn hm)
  exact ⟨_, hexec, tabulate_getD_toList 0 (List.length_take_of_le hn), rfl⟩

/-- The fields of a header that begins a list of bytes. -/
theorem header_fields (fs : Word) (n : Half) (rest : List Byte) :
    let bytes := magic ++ (le64 fs ++ (le32 n ++ rest))
    bytes.take 8 = magic ∧ u64le ((bytes.drop 8).take 8) = fs ∧ u32le ((bytes.drop 16).take 4) = n := by
  intro bytes
  have h8 : bytes.drop 8 = le64 fs ++ (le32 n ++ rest) := List.drop_left' magic_length
  have h16 : bytes.drop 16 = le32 n ++ rest := by
    rw [show 16 = 8 + 8 from rfl, ← List.drop_drop, h8, List.drop_left' (le64_length fs)]
  exact ⟨List.take_left' magic_length, by rw [h8, List.take_left' (le64_length fs), u64le_of_le64],
    by rw [h16, List.take_left' (le32_length n), u32le_of_le32]⟩

/-- Settles O54: HDRW's 20 bytes begin the input, and HDRR reads its fields from them. -/
theorem headerRoundTrip : Obligations.HeaderRoundTrip := by
  intro s s' d hw ha hempty h hwd had hpos hpre
  have hwrote := (hdrwWritesTheHeader.2 s hw).1 ha
  cases hwrote.symm.trans h
  obtain ⟨rest, hrest⟩ := hpre
  have hunread : d.unread = magic ++ (le64 s.node[s.root].weight ++ (le32 s.tsize ++ rest)) := by
    rw [State.unread, hpos, List.drop_zero, ← hrest, hempty]
    simp [magic]
  obtain ⟨hmagic, hfsize, htsize⟩ := header_fields s.node[s.root].weight s.tsize rest
  have hlen : 20 ≤ d.unread.length := by
    rw [hunread]
    simp only [List.length_append, magic_length, le64_length, le32_length]
    omega
  have hexec := runPhase_ok (body := hdrrBody) (fin := goPhase .tabr) hwd (hdrrBody_ok had hlen (by rw [hunread, hmagic]))
  rw [hunread, hfsize, htsize] at hexec
  exact ⟨_, hexec, rfl, rfl, rfl⟩

/-! ### TABR -/

/-- A legal table: entry k of TAB from the k-th eight bytes (R223). -/
theorem tabrBody_ok {s : State} (ha : AllOk s.input.answers) (h2 : 2 ≤ s.tsize.toNat) (h256 : s.tsize.toNat ≤ 256)
    (hn : 8 * s.tsize.toNat ≤ s.unread.length) :
    tabrBody s = .ok () { s with
      tab := fillTable s.tsize.toNat 0 s.unread s.tab
      input :=
        { s.input with
          pos := s.input.pos + 8 * s.tsize.toNat
          answers := s.input.answers.drop (16 * s.tsize.toNat) }
      trace := readTrace (s.unread.take (8 * s.tsize.toNat)) ++ s.trace } :=
  (tabrBody_in_range h2 h256).trans (tabrLoop_ok s.tsize.toNat 0 s ha hn)

/-- Settles O37: the loop over the entries, and TAB as a list. -/
theorem tabrReadsTheTable : Obligations.TabrReadsTheTable := by
  intro s hw ha hp h2 h256 hn
  have hexec := runPhase_ok (body := tabrBody) (fin := goPhase .tbuild) hw (tabrBody_ok ha h2 h256 hn)
  exact ⟨_, hexec, fillTable_toList _ h256 _ _, rfl⟩

/-! ### WALK -/

section
variable {s : State} {tree : HTree} (hs : s.Answered) (hrep : Represents s.node s.root tree) (h2 : 2 ≤ tree.leaves)
include hs hrep h2

/-- WALK's loop starts with an empty CACHE at the root: it computes walkTree on the bits of the unread bytes (R226). -/
theorem walkBody_walks :
    let w := walkTree tree tree s.fsize.toNat (bitsOf s.unread)
    let start : State := { s with cur := s.root, cbits := 0, symcnt := 0 }
    (w.finished = true → ∃ t, walkBody s = .ok () t ∧ Advanced start w.out ((w.used + 7) / 8) t) ∧
    (w.finished = false → ∃ t answers trace, walkBody s = .raise .truncated
        { t with input := { t.input with answers := answers }, trace := trace } ∧
      Advanced start w.out s.unread.length t) := by
  obtain ⟨-, hin, hout, hpos⟩ := hs
  exact walkLoop_ok tree h2 (bitsOf s.unread) tree s.fsize.toNat { s with cur := s.root, cbits := 0, symcnt := 0 }
    (8 * s.unread.length + 1) hrep hrep h2 hin hout hpos (Nat.zero_le 8) rfl (Nat.zero_add _)
    (by rw [bitsOf_length]; exact Nat.lt_succ_self _)

end

/-- Settles O39: the walk finishes, and the last line completes the command. -/
theorem walkEmitsTheSymbols : Obligations.WalkEmitsTheSymbols := by
  intro s tree hs hrep h2 w hfin
  obtain ⟨t, hbody, events, cache, cbits, cur, a, b, rfl, hreads, hwrites⟩ := (walkBody_walks hs hrep h2).1 hfin
  have hlen := (walkTree_out tree (bitsOf s.unread) tree s.fsize.toNat).1 hfin
  have hsymcnt : 0 + BitVec.ofNat 64 w.out.length = s.fsize := by
    rw [zero_add, hlen, BitVec.ofNat_toNat, BitVec.setWidth_eq]
  have hexec := runPhase_ok (body := walkBody) (fin := completeCommand) hs.1 hbody
  exact ⟨_, events, hexec, rfl, rfl, rfl, rfl, rfl, hlen, hsymcnt, rfl, rfl, rfl, rfl, rfl, rfl, rfl, hwrites, hreads⟩

/-- Settles O40: the bits end first, and the raise leaves what the walk has done. -/
theorem walkReportsTruncation : Obligations.WalkReportsTruncation := by
  intro s tree hs hrep h2 w hfin
  obtain ⟨t, answers, trace, hbody, events, cache, cbits, cur, a, b, rfl, -, -⟩ := (walkBody_walks hs hrep h2).2 hfin
  have hlen := (walkTree_out tree (bitsOf s.unread) tree s.fsize.toNat).2.1 hfin
  have hcursor : s.input.pos + s.unread.length = s.input.data.length := by
    rw [unread_length, Nat.add_sub_cancel' hs.2.2.2]
  have hexec := runPhase_raise (body := walkBody) (fin := completeCommand) hs.1 hbody
  exact ⟨_, hexec, raiseError_failed _ _, rfl, hlen, zero_add _, hcursor, rfl, rfl, rfl⟩

end Sys2Proof.Machine
end

section
/-!
PROOFS. The command DECODE as a whole (spec/40_commands.md R140): Decode is cut where the phases cut it, and each phase computes its
part or ends the command with the error that Decode answers.
-/

namespace Sys2Proof.Machine

/-! ### A running command -/

/-- A command in phase p with a host that does nothing and streams that perform every primitive. -/
structure Running (c : CmdReg) (p : Phase) (s : State) : Prop where
  phase : s.phase = p
  host : s.host = []
  cmdreg : s.cmdreg = c
  busy : s.busy = true
  err : s.err = .none
  wait : s.wait = none
  inAnswers : AllOk s.input.answers
  outAnswers : AllOk s.output.answers
  cursor : s.input.pos ≤ s.input.data.length

theorem Running.answered {c : CmdReg} {p : Phase} {s : State} (h : Running c p s) : s.Answered :=
  ⟨h.wait, h.inAnswers, h.outAnswers, h.cursor⟩

theorem Running.step {c : CmdReg} {p : Phase} {s : State} (h : Running c p s) : step s = exec p.instr s := by
  rw [step_phase h.host, h.phase]

/-- The first step of a command: the host's write is accepted (R131 to R133). -/
theorem running_accepted {s : State} {c : CmdReg} {p : Phase} (ha : s.Answered) :
    Running c p (accepted c p { s with host := [] }) :=
  ⟨rfl, rfl, rfl, rfl, rfl, ha.1, ha.2.1, ha.2.2.1, ha.2.2.2⟩

/-! ### After the end of a command -/

theorem exec_host {p : Phase} {s t : State} (h : exec p.instr s = .next t) : t.host = s.host := by
  cases exec_ends h with
  | hangs q hwait ht => rw [ht]
  | finishes u hwait hm hr ht =>
    rw [ht, ← hm.kept.host]
    cases p <;> rfl
  | waits u q hwait hm hh ht => rw [ht, ← hm.kept.host]
  | fails u e hwait hm hh he ht => rw [ht, ← hm.kept.host, raiseError_host]

/-- Nothing happens to an idle block while the host does nothing (R134). -/
theorem steps_idle {s : State} (hp : s.phase = .idle) (hh : s.host = []) : ∀ k, steps k s = .next s
  | 0 => steps_zero s
  | k + 1 => by
    have hstep : step s = .next s := by
      have hinstr : s.phase.instr = .idle := congrArg Phase.instr hp
      rw [step_phase hh, hinstr, exec_idle]
    rw [steps_succ hstep, steps_idle hp hh k]

/-- A phase that fails ends the command: the steps after it change nothing. -/
theorem Running.steps_failed {c : CmdReg} {p : Phase} {s t : State} {e : ErrKind} (h : Running c p s)
    (hexec : exec p.instr s = .next t) (hf : t.Failed e) (k : Nat) : steps (k + 1) s = .next t := by
  obtain ⟨-, -, -, hidle⟩ := hf
  rw [steps_succ (h.step.trans hexec), steps_idle hidle ((exec_host hexec).trans h.host)]

/-! ### Decode, cut where the phases cut it -/

/-- Decode from the payload on, which begins at this position (R140). -/
def decodePayload (fileSize : Nat) (tree : HTree) (pos : Nat) (payload : List Byte) : Decoded :=
  let w := walkTree tree tree fileSize (bitsOf payload)
  if w.finished = true then .finished w.out (pos + (w.used + 7) / 8) else .failed .truncated w.out

/-- The entries of a table of n units at the beginning of these bytes. -/
def entriesOf (bytes : List Byte) (n : Nat) : List Word := (List.range n).map fun k => u64le ((bytes.drop (8 * k)).take 8)

/-- Decode from the table on, which begins at this position (R140). -/
def decodeTable (fileSize n pos : Nat) (bytes : List Byte) : Decoded :=
  if n < 2 ∨ 256 < n then .failed .format []
  else if bytes.length < 8 * n then .failed .format []
  else decodePayload fileSize ((treeOf (entriesOf bytes n)).getD (.leaf 0 0)) (pos + 8 * n) (bytes.drop (8 * n))

theorem containerTable_eq_entriesOf (c : List Byte) (n : Nat) : containerTable c n = entriesOf (c.drop 20) n := by
  simp only [containerTable, entriesOf, List.drop_drop]

theorem decodeFn_of_bad_header {c : List Byte} (h : c.length < 20 ∨ c.take 8 ≠ magic) : decodeFn c = .failed .format [] := by
  unfold decodeFn
  split_ifs with hlen hmagic
  · rfl
  · rfl
  · exact absurd h (not_or.mpr ⟨hlen, hmagic⟩)

theorem decodeFn_of_header {c : List Byte} (hlen : 20 ≤ c.length) (hmagic : c.take 8 = magic) :
    decodeFn c = decodeTable (u64le ((c.drop 8).take 8)).toNat (u32le ((c.drop 16).take 4)).toNat 20 (c.drop 20) := by
  have hshort (n : Nat) : c.length < 20 + 8 * n ↔ (c.drop 20).length < 8 * n := by
    rw [List.length_drop]
    omega
  rw [decodeFn, if_neg (Nat.not_lt.mpr hlen), if_neg (not_not_intro hmagic)]
  simp only [decodeTable, decodePayload, hshort, containerTable_eq_entriesOf, List.drop_drop]

/-! ### The phases of DECODE -/

/-- The state in which a command DECODE has ended says what Decode says, the output having held `before` (R140). -/
def Decodes (before : List Byte) (d : Decoded) (t : State) : Prop :=
  t.cmdreg = .decode ∧
    match d with
    | .finished out consumed =>
      t.Completed ∧ t.output.data = before ++ out ∧ t.input.pos = consumed ∧ t.symcnt = t.fsize
    | .failed e out => t.Failed e ∧ t.output.data = before ++ out

theorem decodes_walk {s : State} {tree : HTree} (h : Running .decode .walk s) (hrep : Represents s.node s.root tree)
    (h2 : 2 ≤ tree.leaves) :
    ∃ t, steps 1 s = .next t ∧ Decodes s.output.data (decodePayload s.fsize.toNat tree s.input.pos s.unread) t := by
  unfold decodePayload
  by_cases hfin : (walkTree tree tree s.fsize.toNat (bitsOf s.unread)).finished = true
  · obtain ⟨t, events, hexec, hphase, hbusy, hdone, herr, hout, -, hsymcnt, -, hpos, hfsize, -, hcmd, -⟩ :=
      walkEmitsTheSymbols s tree h.answered hrep h2 hfin
    refine ⟨t, steps_succ (h.step.trans hexec), hcmd.trans h.cmdreg, ?_⟩
    rw [if_pos hfin]
    exact ⟨⟨hbusy, hdone, herr.trans h.err, hphase⟩, hout, hpos, hsymcnt.trans hfsize.symm⟩
  · obtain ⟨t, hexec, hfailed, hout, -, -, -, -, -, hcmd⟩ :=
      walkReportsTruncation s tree h.answered hrep h2 (eq_false_of_ne_true hfin)
    refine ⟨t, steps_succ (h.step.trans hexec), hcmd.trans h.cmdreg, ?_⟩
    rw [if_neg hfin]
    exact ⟨hfailed, hout⟩

theorem decodes_tbuild {s : State} (h : Running .decode .tbuild s) (h2 : 2 ≤ s.tsize.toNat) (h256 : s.tsize.toNat ≤ 256) :
    ∃ t, steps 2 s = .next t ∧ Decodes s.output.data
      (decodePayload s.fsize.toNat ((treeOf (s.tab.toList.take s.tsize.toNat)).getD (.leaf 0 0)) s.input.pos s.unread) t := by
  obtain ⟨u, tree, hexec, htree, hrep, hleaves, hphase, -, -, hframe⟩ := tbuildBuildsTheMergeTree s h.wait h2 h256
  rw [if_neg (by rw [h.cmdreg]; nofun)] at hphase
  have hrun : Running .decode .walk u := by
    rw [hphase] at hframe
    rw [hframe]
    exact ⟨rfl, h.host, h.cmdreg, h.busy, h.err, h.wait, h.inAnswers, h.outAnswers, h.cursor⟩
  have hfsize : u.fsize = s.fsize := by rw [hframe]
  have hinput : u.input = s.input := by rw [hframe]
  have houtput : u.output = s.output := by rw [hframe]
  obtain ⟨t, hsteps, ht⟩ := decodes_walk hrun hrep (hleaves ▸ h2)
  refine ⟨t, (steps_succ (h.step.trans hexec)).trans hsteps, ?_⟩
  rw [State.unread, hfsize, hinput, houtput] at ht
  rwa [htree]

theorem decodes_tabr {s : State} (h : Running .decode .tabr s) :
    ∃ t, steps 3 s = .next t ∧
      Decodes s.output.data (decodeTable s.fsize.toNat s.tsize.toNat s.input.pos s.unread) t := by
  unfold decodeTable
  split_ifs with hsize hshort
  · obtain ⟨t, hexec, hfailed, -, hout, -, -, -, -, hcmd⟩ := tabrRejectsBadSizeAndShortTable.1 s h.wait hsize
    exact ⟨t, h.steps_failed hexec hfailed 2, hcmd.trans h.cmdreg, hfailed, by rw [hout, List.append_nil]⟩
  · obtain ⟨t, hexec, hfailed, -, hout, -, -, -, hcmd⟩ :=
      tabrRejectsBadSizeAndShortTable.2 s h.wait h.inAnswers h.cursor (by omega) (by omega) hshort
    exact ⟨t, h.steps_failed hexec hfailed 2, hcmd.trans h.cmdreg, hfailed, by rw [hout, List.append_nil]⟩
  · have h2 : 2 ≤ s.tsize.toNat := by omega
    have h256 : s.tsize.toNat ≤ 256 := by omega
    have hlen := unread_length s
    obtain ⟨u, hexec, htab, hframe⟩ := tabrReadsTheTable s h.wait h.inAnswers h.cursor h2 h256 (Nat.le_of_not_lt hshort)
    have hrun : Running .decode .tbuild u := by
      rw [hframe]
      exact ⟨rfl, h.host, h.cmdreg, h.busy, h.err, h.wait, h.inAnswers.drop _, h.outAnswers, by dsimp only; omega⟩
    have hfsize : u.fsize = s.fsize := by rw [hframe]
    have htsize : u.tsize = s.tsize := by rw [hframe]
    have hpos : u.input.pos = s.input.pos + 8 * s.tsize.toNat := by rw [hframe]
    have hunread := unread_advance (s := s) (8 * s.tsize.toNat) u (by rw [hframe]) hpos
    have houtput : u.output = s.output := by rw [hframe]
    have hentries : u.tab.toList.take u.tsize.toNat = entriesOf s.unread s.tsize.toNat := by
      rw [htab, htsize]
      exact List.take_left' (by rw [List.length_map, List.length_range])
    obtain ⟨t, hsteps, ht⟩ := decodes_tbuild hrun (htsize ▸ h2) (htsize ▸ h256)
    refine ⟨t, (steps_succ (h.step.trans hexec)).trans hsteps, ?_⟩
    rwa [hentries, hfsize, hpos, hunread, houtput] at ht

theorem decodes_hdrr {s : State} (h : Running .decode .hdrr s) (hstart : s.input.pos = 0) :
    ∃ t, steps 4 s = .next t ∧ Decodes s.output.data (decodeFn s.input.data) t := by
  have hdata : s.unread = s.input.data := by rw [State.unread, hstart, List.drop_zero]
  by_cases hbad : s.input.data.length < 20 ∨ s.input.data.take 8 ≠ magic
  · obtain ⟨t, hexec, hfailed, -, -, -, hcmd, hout, -⟩ :=
      hdrrRejectsShortOrForeignHeaders s h.wait h.inAnswers h.cursor (hdata ▸ hbad)
    rw [decodeFn_of_bad_header hbad]
    exact ⟨t, h.steps_failed hexec hfailed 3, hcmd.trans h.cmdreg, hfailed, by rw [hout, List.append_nil]⟩
  · obtain ⟨hlen, hmagic⟩ := not_or.mp hbad
    rw [Nat.not_lt] at hlen
    rw [not_not] at hmagic
    obtain ⟨u, hexec, -, hframe⟩ := hdrrReadsTheHeader s h.wait h.inAnswers h.cursor (hdata ▸ hlen) (hdata ▸ hmagic)
    have hrun : Running .decode .tabr u := by
      rw [hframe]
      exact ⟨rfl, h.host, h.cmdreg, h.busy, h.err, h.wait, h.inAnswers.drop _, h.outAnswers, by dsimp only; omega⟩
    have hfsize : u.fsize = u64le ((s.input.data.drop 8).take 8) := by rw [hframe, ← hdata]
    have htsize : u.tsize = u32le ((s.input.data.drop 16).take 4) := by rw [hframe, ← hdata]
    have hpos : u.input.pos = 20 := by rw [hframe, hstart]
    have hunread : u.unread = s.input.data.drop 20 := by
      rw [State.unread, hpos, hframe]
    have houtput : u.output = s.output := by rw [hframe]
    obtain ⟨t, hsteps, ht⟩ := decodes_tabr hrun
    refine ⟨t, (steps_succ (h.step.trans hexec)).trans hsteps, ?_⟩
    rw [decodeFn_of_header hlen hmagic]
    rwa [hfsize, htsize, hpos, hunread, houtput] at ht

/-- Settles O58: the host's write, then the four phases, each of which computes its part of Decode. -/
theorem decodeCommandComputesDecode : Obligations.DecodeCommandComputesDecode := by
  intro s v _ hb hh hv ha hstart
  have hstep : step s = .next (accepted .decode .hdrr { s with host := [] }) := by
    rw [step_ctrlWrite hh, decodeCtrl_decode hv, exec_decode, acceptCommand_eq_accepted]
    exact hb
  obtain ⟨t, hsteps, hcmd, ht⟩ := decodes_hdrr (running_accepted ha) hstart
  refine ⟨t, (steps_succ hstep).trans hsteps, hcmd, ht⟩

end Sys2Proof.Machine
end

section
/-!
PROOFS. The command ENCODE as a whole (spec/40_commands.md R139): after each phase, the part of Encode(S) that stands in the
memories or in the output.
-/

namespace Sys2Proof.Machine

/-! ### KEY and TAB as Encode's K and T -/

/-- The counters of an input, as FCOUNT leaves them (R150). -/
def countsOf (input : List Byte) : Vector Word 256 := tabulate 256 fun b => BitVec.ofNat 64 (input.count (BitVec.ofFin b))

theorem countsOf_get (input : List Byte) (b : Fin 256) :
    (countsOf input)[b] = BitVec.ofNat 64 (input.count (BitVec.ofFin b)) := tabulate_getElem 256 _ b.val b.isLt

/-- KEYSORT on these counters gives K (R139, R190). -/
theorem sortedKeys_countsOf (input : List Byte) : (sortedKeys (countsOf input)).toList = encodeKeys input := by
  rw [sortedKeys_toList, rawKeys, encodeKeys]
  simp only [countsOf_get]

/-- Where p passes from right to left in a list, the entries with p are its leading ones. -/
theorem takeWhile_length_eq_countP {α : Type} {p : α → Bool} : ∀ {l : List α},
    l.Pairwise (fun a b => p b = true → p a = true) → (l.takeWhile p).length = l.countP p
  | [], _ => rfl
  | x :: xs, h => by
    obtain ⟨hx, hxs⟩ := List.pairwise_cons.mp h
    by_cases hp : p x = true
    · rw [List.takeWhile_cons_of_pos hp, List.countP_cons_of_pos hp, List.length_cons, takeWhile_length_eq_countP hxs]
    · have hnone : xs.countP p = 0 := List.countP_eq_zero.mpr fun b hb hpb => hp (hx b hb hpb)
      rw [List.takeWhile_cons_of_neg hp, List.countP_cons_of_neg hp, hnone, List.length_nil]

theorem unitFreq_beq_zero (u : Word) : (unitFreq u == 0) = freqZero u := by
  rw [freqZero, Bool.eq_iff_iff, beq_iff_eq, decide_eq_true_eq, ← BitVec.toNat_inj]
  rfl

/-- WINDOW's start is Encode's ws (R139, R192). -/
theorem windowStart_eq_encodeStart {input : List Byte} (hlen : input.length < 2 ^ 56) {key : Vector Word 256}
    (hkey : key.toList = encodeKeys input) : windowStart key = encodeStart input := by
  have hzeros : leadingZeros key = (encodeKeys input).countP freqZero := by
    simp only [leadingZeros, hkey, unitFreq_beq_zero]
    exact takeWhile_length_eq_countP ((encodeKeys_ascending input).imp fun h => freqZero_of_le (Nat.le_of_lt h))
  rw [windowStart, hzeros, encodeKeys_countP_freqZero hlen, encodeStart]

/-- The header's FSIZE: the root's weight is the number of bytes (R139, R195). -/
theorem treeOf_encodeTable_weight {input : List Byte} (hlen : input.length < 2 ^ 56) {tree : HTree}
    (ht : treeOf (encodeTable input) = some tree) : tree.weight = BitVec.ofNat 64 input.length := by
  have hsum := rootWeightIsTheSum _ _ (encodeTable_length_le input) ht
  rw [encodeTable_freq_sum hlen] at hsum
  rw [← hsum, BitVec.ofNat_toNat, BitVec.setWidth_eq]

/-- PACK's code bits are the payload's (R96): every byte of the input has its leaf's path as code. -/
theorem codeBits_of_holdsCodes {code : Vector CodeEntry 256} {tree : HTree} (hcodes : HoldsCodes code tree) {b : Byte}
    (hb : b ∈ tree.values) : (code[b.toNat]).valid = true ∧ codeBits code[b.toNat] = (tree.path b).getD [] := by
  obtain ⟨p, hp⟩ := Option.isSome_iff_exists.mp ((tree.path_isSome b).mpr hb)
  have hcode := hcodes b
  rw [hp] at hcode ⊢
  exact ⟨hcode.1, hcode.2.2.1⟩

theorem flatMap_codeBits {code : Vector CodeEntry 256} {tree : HTree} (hcodes : HoldsCodes code tree) :
    ∀ {input : List Byte}, (∀ b ∈ input, b ∈ tree.values) →
      (input.flatMap fun b => codeBits code[b.toNat]) = payloadBits tree input
  | [], _ => rfl
  | b :: bs, h => by
    obtain ⟨hb, hbs⟩ := List.forall_mem_cons.mp h
    rw [List.flatMap_cons, (codeBits_of_holdsCodes hcodes hb).2, flatMap_codeBits hcodes hbs, payloadBits, payloadBits,
      List.flatMap_cons]

/-! ### The phases of ENCODE -/

/-- A command ENCODE of this input in phase p, about to read it from its first byte, with this output. -/
structure Encoding (p : Phase) (input out : List Byte) (s : State) : Prop extends Running .encode p s where
  data : s.input.data = input
  start : s.input.pos = 0
  written : s.output.data = out

/-- TSIZE and TAB hold Encode's table T. -/
def HoldsTable (input : List Byte) (s : State) : Prop :=
  s.tsize = BitVec.ofNat 32 (encodeTable input).length ∧ s.tab.toList.take (encodeTable input).length = encodeTable input

section
variable {input out : List Byte} {s : State}

theorem Encoding.unread {p : Phase} (h : Encoding p input out s) : s.unread = input := by
  rw [State.unread, h.start, h.data, List.drop_zero]

/-- A phase without stream primitives leaves the streams and the status as they are. -/
theorem Encoding.silent {p q : Phase} (h : Encoding p input out s) {t : State}
    (ht : t = { s with
      phase := q, key := t.key, wstart := t.wstart, tsize := t.tsize, tab := t.tab, node := t.node, seq := t.seq,
      root := t.root, i := t.i, j := t.j, m := t.m, code := t.code, cgstk := t.cgstk, cgsp := t.cgsp }) :
    Encoding q input out t := by
  rw [ht]
  exact ⟨⟨rfl, h.host, h.cmdreg, h.busy, h.err, h.wait, h.inAnswers, h.outAnswers, h.cursor⟩, h.data, h.start, h.written⟩

/-- A phase that writes leaves the input and the status as they are. -/
theorem Encoding.writes {p q : Phase} (h : Encoding p input out s) {t : State} (bytes : List Byte) (k : Nat)
    (ht : t = { s with
      phase := q, fsize := t.fsize, trace := t.trace
      output := { data := s.output.data ++ bytes, answers := s.output.answers.drop k } }) :
    Encoding q input (out ++ bytes) t := by
  rw [ht]
  exact ⟨⟨rfl, h.host, h.cmdreg, h.busy, h.err, h.wait, h.inAnswers, h.outAnswers.drop k, h.cursor⟩, h.data, h.start,
    congrArg (· ++ bytes) h.written⟩

theorem Encoding.fcount (h : Encoding .fcount input out s) (hpasses : s.input.passes = []) :
    ∃ t, exec .fcount s = .next t ∧ Encoding .keysort input out t ∧ t.freq = countsOf input := by
  have hexec := fcountCountsAndRewinds s h.wait h.inAnswers h.cursor
  rw [h.unread, hpasses] at hexec
  exact ⟨_, hexec, ⟨⟨rfl, h.host, h.cmdreg, h.busy, h.err, h.wait, h.inAnswers.drop _, h.outAnswers, Nat.zero_le _⟩, h.data, rfl,
    h.written⟩, rfl⟩

theorem Encoding.keysort (h : Encoding .keysort input out s) (hlen : input.length < 2 ^ 56)
    (hfreq : s.freq = countsOf input) :
    ∃ t, exec .keysort s = .next t ∧ Encoding .window input out t ∧ t.key.toList = encodeKeys input := by
  have hcounts (b : Fin 256) : s.freq[b] = BitVec.ofNat 64 (s.input.data.count (BitVec.ofFin b)) := by
    rw [hfreq, h.data, countsOf_get]
  have hexec := exec_keysort h.wait (tooLong_of_counts (h.data ▸ hlen) hcounts)
  exact ⟨_, hexec, h.silent rfl, by rw [hfreq, sortedKeys_countsOf]⟩

theorem Encoding.window (h : Encoding .window input out s) (hlen : input.length < 2 ^ 56)
    (hkey : s.key.toList = encodeKeys input) :
    ∃ t, exec .window s = .next t ∧ Encoding .tbuild input out t ∧ HoldsTable input t := by
  have hexec := exec_window h.wait
  have htab := windowTable_toList (Nat.le_trans (windowStart_le s.key) (by decide)) s.key s.tab
  have htlen := encodeTable_length input
  rw [windowStart_eq_encodeStart hlen hkey] at hexec htab
  rw [hkey, ← encodeTable] at htab
  refine ⟨_, hexec, h.silent rfl, by rw [htlen], ?_⟩
  exact (congrArg _ htab).trans (List.take_left' rfl)

theorem HoldsTable.tsize_toNat (ht : HoldsTable input s) : s.tsize.toNat = (encodeTable input).length := by
  have := encodeTable_length_le input
  rw [ht.1, BitVec.toNat_ofNat]
  omega

theorem Encoding.tbuild (h : Encoding .tbuild input out s) (ht : HoldsTable input s) :
    ∃ t tree, exec .tbuild s = .next t ∧ Encoding .cgen input out t ∧ HoldsTable input t ∧
      treeOf (encodeTable input) = some tree ∧ Represents t.node t.root tree ∧ tree.leaves ≤ 256 := by
  have hn := ht.tsize_toNat
  have h2 := two_le_encodeTable_length input
  have h256 := encodeTable_length_le input
  obtain ⟨t, tree, hexec, htree, hrep, hleaves, hphase, -, -, hframe⟩ :=
    tbuildBuildsTheMergeTree s h.wait (hn ▸ h2) (hn ▸ h256)
  rw [if_pos h.cmdreg] at hphase
  rw [hn, ht.2] at htree
  rw [hphase] at hframe
  refine ⟨t, tree, hexec, h.silent (by rw [hframe]), ?_, htree, hrep, by rw [hleaves, hn]; exact h256⟩
  rw [hframe]
  exact ht

theorem Encoding.cgen (h : Encoding .cgen input out s) (ht : HoldsTable input s) {tree : HTree}
    (hrep : Represents s.node s.root tree) (hleaves : tree.leaves ≤ 256) :
    ∃ t, exec .cgen s = .next t ∧ Encoding .hdrw input out t ∧ HoldsTable input t ∧ HoldsCodes t.code tree ∧
      t.node[t.root].weight = tree.weight := by
  obtain ⟨code, stk, hexec, hcodes⟩ := exec_cgen_of_represents h.wait hrep hleaves
  exact ⟨_, hexec, h.silent rfl, ht, hcodes, hrep.weight⟩

theorem Encoding.hdrw (h : Encoding .hdrw input out s) (ht : HoldsTable input s)
    (hweight : s.node[s.root].weight = BitVec.ofNat 64 input.length) :
    ∃ t, exec .hdrw s = .next t ∧
      Encoding .tabw input (out ++ (magic ++ le64 (BitVec.ofNat 64 input.length) ++
        le32 (BitVec.ofNat 32 (encodeTable input).length))) t ∧
      HoldsTable input t ∧ t.code = s.code ∧ t.fsize = BitVec.ofNat 64 input.length := by
  have hexec := (hdrwWritesTheHeader.2 s h.wait).1 h.outAnswers
  have hsize : le32 s.tsize = le32 (BitVec.ofNat 32 (encodeTable input).length) := congrArg le32 ht.1
  rw [hweight, hsize] at hexec
  exact ⟨_, hexec, h.writes _ 20 rfl, ht, rfl, rfl⟩

theorem Encoding.tabw (h : Encoding .tabw input out s) (ht : HoldsTable input s) :
    ∃ t, exec .tabw s = .next t ∧ Encoding .pack input (out ++ (encodeTable input).flatMap le64) t ∧
      t.code = s.code ∧ t.fsize = s.fsize ∧ t.tsize = s.tsize := by
  have hn := ht.tsize_toNat
  have hexec := (tabwWritesTheTable.2 s h.wait (hn ▸ encodeTable_length_le input)).1 h.outAnswers
  rw [hn, ht.2] at hexec
  exact ⟨_, hexec, h.writes _ _ rfl, rfl, rfl, rfl⟩

/-- PACK ends with the whole bytes of the payload in the output and the rest in ACC (R202). -/
theorem Encoding.pack (h : Encoding .pack input out s) {tree : HTree} (hcodes : HoldsCodes s.code tree)
    (hvalues : ∀ b ∈ input, b ∈ tree.values) :
    ∃ t, exec .pack s = .next t ∧ Running .encode .flush t ∧ Packed out (payloadBits tree input) t ∧
      t.symcnt = BitVec.ofNat 64 input.length ∧ t.input.data = input ∧ t.input.pos = input.length ∧
      t.fsize = s.fsize ∧ t.tsize = s.tsize := by
  obtain ⟨events, hexec, -, -⟩ := packWritesTheCodeBits s h.answered fun b hb =>
    (codeBits_of_holdsCodes hcodes (hvalues b (h.unread ▸ hb))).1
  rw [h.unread, flatMap_codeBits hcodes hvalues] at hexec
  exact ⟨_, hexec, ⟨rfl, h.host, h.cmdreg, h.busy, h.err, h.wait, h.inAnswers.drop _, h.outAnswers.drop _, Nat.le_refl _⟩,
    ⟨rfl, rfl, congrArg (· ++ _) h.written⟩, rfl, h.data, congrArg _ h.data, rfl, rfl⟩

/-- FLUSH completes the payload and the command (R203, R204). -/
theorem flush_completes {bits : List Bool} (h : Running .encode .flush s) (hp : Packed out bits s) :
    ∃ t, exec .flush s = .next t ∧ t.Completed ∧ t.output.data = out ++ packBits bits ∧ t.input = s.input ∧
      t.fsize = s.fsize ∧ t.tsize = s.tsize ∧ t.symcnt = s.symcnt ∧ t.cmdreg = .encode := by
  have hzero : s.nbits = 0 ↔ bits.length % 8 = 0 := by
    rw [hp.nbits, ← BitVec.toNat_inj]
    simp
  obtain ⟨hempty, hpartial, -⟩ := flushWritesTheLastByte.2 s h.wait
  rw [packBits_eq, ← List.append_assoc, ← hp.out, ← hp.acc]
  by_cases hn : s.nbits = 0
  · obtain ⟨-, t, hexec, hphase, hbusy, hdone, herr, hout, hin, -, hfsize, htsize, hsymcnt, hcmd, -⟩ := hempty hn
    rw [if_pos (hzero.mp hn), List.append_nil]
    exact ⟨t, hexec, ⟨hbusy, hdone, herr.trans h.err, hphase⟩, by rw [hout], hin, hfsize, htsize, hsymcnt,
      hcmd.trans h.cmdreg⟩
  · obtain ⟨-, t, hexec, hphase, hbusy, hdone, herr, hout, hin, -, hfsize, htsize, hsymcnt, hcmd, -⟩ := hpartial hn h.outAnswers
    rw [if_neg (mt hzero.mpr hn)]
    exact ⟨t, hexec, ⟨hbusy, hdone, herr.trans h.err, hphase⟩, hout, hin, hfsize, htsize, hsymcnt, hcmd.trans h.cmdreg⟩

end

/-- Settles O57: the host's write, then the nine phases, each of which makes its part of Encode(S). -/
theorem encodeCommandWritesEncode : Obligations.EncodeCommandWritesEncode := by
  intro s v _ hb hh hv ha hstart hpasses hlen
  have hstep : step s = .next (accepted .encode .fcount { s with host := [] }) := by
    rw [step_ctrlWrite hh, decodeCtrl_encode hv, exec_encode, acceptCommand_eq_accepted]
    exact hb
  have h0 : Encoding .fcount s.input.data s.output.data (accepted .encode .fcount { s with host := [] }) :=
    ⟨running_accepted ha, rfl, hstart, rfl⟩
  obtain ⟨s1, e1, h1, hfreq⟩ := h0.fcount hpasses
  obtain ⟨s2, e2, h2, hkey⟩ := h1.keysort hlen hfreq
  obtain ⟨s3, e3, h3, htable⟩ := h2.window hlen hkey
  obtain ⟨s4, tree, e4, h4, htable, htree, hrep, hleaves⟩ := h3.tbuild htable
  obtain ⟨s5, e5, h5, htable, hcodes, hweight⟩ := h4.cgen htable hrep hleaves
  obtain ⟨s6, e6, h6, htable, hcode6, hfsize6⟩ := h5.hdrw htable (hweight.trans (treeOf_encodeTable_weight hlen htree))
  obtain ⟨s7, e7, h7, hcode7, hfsize7, htsize7⟩ := h6.tabw htable
  obtain ⟨t', ht', -, hvalues⟩ := encodeTable_tree hlen
  cases htree.symm.trans ht'
  obtain ⟨s8, e8, h8, hpacked, hsymcnt8, hdata8, hpos8, hfsize8, htsize8⟩ := h7.pack (by rwa [hcode7, hcode6]) hvalues
  obtain ⟨t, e9, hcompleted, hout, hin, hfsize, htsize, hsymcnt, hcmd⟩ := flush_completes h8 hpacked
  have hsteps : steps 10 s = .next t := by
    rw [steps_succ hstep, steps_succ (h0.step.trans e1), steps_succ (h1.step.trans e2), steps_succ (h2.step.trans e3),
      steps_succ (h3.step.trans e4), steps_succ (h4.step.trans e5), steps_succ (h5.step.trans e6),
      steps_succ (h6.step.trans e7), steps_succ (h7.step.trans e8), steps_succ (h8.step.trans e9), steps_zero]
  have hfs : t.fsize = BitVec.ofNat 64 s.input.data.length := by rw [hfsize, hfsize8, hfsize7, hfsize6]
  refine ⟨t, hsteps, hcompleted, ?_, by rw [hin, hdata8], by rw [hin, hpos8], ?_, by rw [hsymcnt, hsymcnt8, hfs], ?_, hcmd⟩
  · rw [hout, encodeFn, htree]
    simp only [Option.getD_some, List.append_assoc]
  · rw [hfs, BitVec.toNat_ofNat]
    omega
  · rw [htsize, htsize8, htsize7, htable.tsize_toNat]

end Sys2Proof.Machine
end
